-- ==== Sys2Proof/Word.lean ====
section
/-! DEFINITION. The value types of the HAST core: symbols, counts, node records, table entries, bytes, registers, and what
crosses the host interface (20_memory.md R60, R61). A quantity whose width is a parameter of 00_scope.md R6 is a natural
number (a symbol of `SYM_W` bits, 10_state.md R32; a count of `CNT_W`, R33; the fields of a node record, R34; the length of
a table entry, R35), which by R12 loses nothing: that every one of them fits its width is part of the invariant `Inv`. -/

namespace Sys2Proof

/-- A byte of BYTEBUF (10_state.md R36). -/
abbrev Byte := BitVec 8
/-- A register of REG, and a command word: `REG_W` = 32 bits (00_scope.md R6, 10_state.md R23). -/
abbrev Word := BitVec 32
/-- An opcode, and the field `ERROP` of STATUS (30_encoding.md R90, 10_state.md R25). -/
abbrev Opcode := BitVec 8
/-- A bit-string, first bit first (00_scope.md R9). -/
abbrev Bits := List Bool

/-- The 1-bit field `kind` of a node record: 0 is a leaf, 1 a branch (10_state.md R34). -/
inductive NodeKind where
  | leaf
  | branch
  deriving DecidableEq, Repr, Inhabited

/-- One record of NODE (10_state.md R34). -/
structure NodeRec where
  kind : NodeKind
  weight : Nat
  depth : Nat
  key : Nat
  left : Nat
  right : Nat
  deriving DecidableEq, Repr, Inhabited

/-- One entry of CODETAB (10_state.md R35): the symbol, the code length (`LEN_W` bits) and the container
(`LEN_MAX` = 32 bits). -/
structure Entry where
  sym : Nat
  len : Nat
  code : BitVec 32
  deriving DecidableEq, Repr, Inhabited

/-- The six address spaces (20_memory.md R60). -/
inductive Space where
  | reg
  | symbuf
  | freq
  | node
  | codetab
  | bytebuf
  deriving DecidableEq, Repr

/-- One element of a space, as a host access moves it (20_memory.md R60, R67). The constructor says the space. -/
inductive Element where
  | reg (v : Word)
  | sym (v : Nat)
  | count (v : Nat)
  | node (v : NodeRec)
  | entry (v : Entry)
  | byte (v : Byte)
  deriving DecidableEq, Repr

/-- The space an element belongs to (20_memory.md R60). -/
def Element.space : Element → Space
  | .reg _ => .reg
  | .sym _ => .symbuf
  | .count _ => .freq
  | .node _ => .node
  | .entry _ => .codetab
  | .byte _ => .bytebuf

/-- What the outside world can do to the block: the host's two operations (20_memory.md R61; a command is a write of
REG index 0) and the platform's reset (70_reset_and_hazards.md R240). -/
inductive HostOp where
  | read (sp : Space) (i : Nat)
  | write (i : Nat) (v : Element)
  | reset
  deriving DecidableEq, Repr

end Sys2Proof
end

