-- ==== Sys2Proof/Config.lean ====
section
/-! DEFINITION. The implementation parameters of 00_scope.md R6 as one argument of the model, with their constraints and
their reference values (log entry 4), and the free values of 93_implementation_defined.md U3 (log entry 3). -/

namespace Sys2Proof

/-- Longest code in bits, and width of the code container: fixed in this hardware (00_scope.md R6). -/
abbrev Config.lenMax : Nat := 32
/-- Width of every register in REG: fixed (00_scope.md R6). -/
abbrev Config.regW : Nat := 32
/-- Number of registers in REG (10_state.md R23). -/
abbrev Config.regCount : Nat := 9

/-- The parameters an instance of the block is built with, under the constraints of 00_scope.md R6. -/
structure Params where
  /-- `SYM_W`: width of a symbol in bits. -/
  symW : Nat
  /-- `CNT_W`: width of one frequency count. -/
  cntW : Nat
  /-- `LEN_W`: width of the code-length field. -/
  lenW : Nat
  /-- `SYM_CAP`: number of SYMBUF cells. -/
  symCap : Nat
  /-- `BYTE_CAP`: number of BYTEBUF cells. -/
  byteCap : Nat
  symW_pos : 1 ≤ symW
  cntW_pos : 1 ≤ cntW
  lenW_fits : Config.lenMax < 2 ^ lenW
  symCap_pos : 1 ≤ symCap
  symCap_count : symCap ≤ 2 ^ cntW - 1
  symCap_bits : symCap * Config.lenMax < 2 ^ 32
  byteCap_pos : 1 ≤ byteCap
  byteCap_bits : 8 * byteCap < 2 ^ 32
  /-- DEDUCED (log entry 4): NODECNT, a register of `REG_W` bits, counts up to `NODE_CAP` records (10_state.md R23, R31). -/
  nodeCap_reg : 2 * 2 ^ symW - 1 < 2 ^ Config.regW
  deriving DecidableEq, Repr

/-- `N_MAX`: largest number of distinct symbols; size of FREQ and CODETAB. -/
abbrev Params.nMax (c : Params) : Nat := 2 ^ c.symW
/-- `WT_W`: width of a node weight. -/
abbrev Params.wtW (c : Params) : Nat := c.cntW + c.symW
/-- `DEPTH_W`: width of the depth field. -/
abbrev Params.depthW (c : Params) : Nat := c.symW + 1
/-- `IDX_W`: width of a node index. -/
abbrev Params.idxW (c : Params) : Nat := c.symW + 1
/-- `NODE_CAP`: number of NODE records. -/
abbrev Params.nodeCap (c : Params) : Nat := 2 * c.nMax - 1
/-- `TAB_CAP`: number of CODETAB entries. -/
abbrev Params.tabCap (c : Params) : Nat := c.nMax

/-- The reference configuration: the values this hardware takes (00_scope.md R6). -/
def Params.reference : Params where
  symW := 16
  cntW := 32
  lenW := 6
  symCap := 65536
  byteCap := 262144
  symW_pos := by decide
  cntW_pos := by decide
  lenW_fits := by decide
  symCap_pos := by decide
  symCap_count := by decide
  symCap_bits := by decide
  byteCap_pos := by decide
  byteCap_bits := by decide
  nodeCap_reg := by decide

/-- FREE VALUE: what the n-th free draw gives for a cell of SYMBUF, before it is cut to the width of the cell
(93_implementation_defined.md U3). Nothing constrains it. -/
opaque Config.freeSymbol : Nat → Nat
/-- FREE VALUE: what the n-th free draw gives for a record of NODE, before its fields are cut to their widths
(93_implementation_defined.md U3). Nothing constrains it. -/
opaque Config.freeNode : Nat → NodeRec
/-- FREE VALUE: what the n-th free draw gives for an entry of CODETAB, before its fields are cut to their widths
(93_implementation_defined.md U3). Nothing constrains it. -/
opaque Config.freeEntry : Nat → Entry
/-- FREE VALUE: what the n-th free draw gives for a cell of BYTEBUF (93_implementation_defined.md U3). Nothing constrains it. -/
opaque Config.freeByte : Nat → Byte

end Sys2Proof
end

