-- ==== Sys2Proof/Syntax.lean ====
section
/-! DEFINITION. The commands of the block: one constructor per row of spec/opcode_table.json (30_encoding.md R91). No
command has an operand (30_encoding.md R92). -/

namespace Sys2Proof

/-- The seven commands (30_encoding.md R91). -/
inductive Instr where
  /-- `CLR`, 45_orchestration_and_control.md R197. -/
  | clr
  /-- `COUNT`, 40_symbol_freq_counter.md R110. -/
  | count
  /-- `BUILD`, 41_huffman_tree_builder.md R120. -/
  | build
  /-- `DERIVE`, 42_code_table_gen.md R140. -/
  | derive
  /-- `PACK`, 43_bit_packer.md R160. -/
  | pack
  /-- `UNPACK` (pseudo-command `DECODE`), 44_bit_unpacker.md R175. -/
  | unpack
  /-- `ENCODE`, 45_orchestration_and_control.md R195. -/
  | encode
  deriving DecidableEq, Repr

end Sys2Proof
end

