-- ==== Sys2Proof/WellFormed.lean ====
section
/-! DEFINITION. The checks on what is given to the machine: a command word is legal (30_encoding.md R90), an index lies
in its space (20_memory.md R60, R63), an element has its width (20_memory.md R67). A command has no operand
field, so every `Instr` is well-formed (30_encoding.md R92). -/

namespace Sys2Proof

/-- Every command is well-formed: it has no operand that could be out of range (30_encoding.md R92). -/
def Instr.wellFormed : Instr → Bool
  | .clr => true
  | .count => true
  | .build => true
  | .derive => true
  | .pack => true
  | .unpack => true
  | .encode => true

/-- A command word is legal when bits 31:8 are 0 and bits 7:0 are one of the seven opcodes (30_encoding.md R90). -/
def wordLegal (w : Word) : Bool :=
  w.extractLsb' 8 24 == 0 && (1 ≤ (w.extractLsb' 0 8).toNat && (w.extractLsb' 0 8).toNat ≤ 7)

/-- The number of elements of each space (20_memory.md R60). -/
def Space.elements (c : Params) : Space → Nat
  | .reg => Config.regCount
  | .symbuf => c.symCap
  | .freq => c.nMax
  | .node => c.nodeCap
  | .codetab => c.tabCap
  | .bytebuf => c.byteCap

/-- Every field of a node record has its width (10_state.md R34). -/
def NodeRec.fits (c : Params) (r : NodeRec) : Bool :=
  r.weight < 2 ^ c.wtW && r.depth < 2 ^ c.depthW && r.key < 2 ^ c.symW && r.left < 2 ^ c.idxW && r.right < 2 ^ c.idxW

/-- Every field of a table entry has its width (10_state.md R35). -/
def Entry.fits (c : Params) (e : Entry) : Bool := e.sym < 2 ^ c.symW && e.len < 2 ^ c.lenW

/-- An element has the width of its space (20_memory.md R60, R67). -/
def Element.fits (c : Params) : Element → Bool
  | .reg _ => true
  | .sym v => v < 2 ^ c.symW
  | .count v => v < 2 ^ c.cntW
  | .node r => r.fits c
  | .entry e => e.fits c
  | .byte _ => true

/-- A host operation names an element that exists (20_memory.md R63) and moves one of its width (20_memory.md R67). -/
def HostOp.wellFormed (c : Params) : HostOp → Bool
  | .read sp i => i < sp.elements c
  | .write i v => i < v.space.elements c && v.fits c
  | .reset => true

end Sys2Proof
end

