-- ==== Sys2Proof/Decode.lean ====
section
/-! DEFINITION. Decoding a command word (30_encoding.md R90, R91, R93), the encoder, and the same through the opcode
table's bit numbering. -/

namespace Sys2Proof

/-- Why a word is not a command (30_encoding.md R93). -/
inductive IllegalWord where
  /-- The field `zero` (bits 31:8) is not 0. -/
  | zeroFieldNotZero
  /-- The opcode is 0x00 or 0x08 to 0xFF: reserved. -/
  | opcodeReserved
  deriving DecidableEq, Repr

/-- The field `op` of a command word: bits 7:0 (30_encoding.md R90). -/
def opField (w : Word) : Opcode := w.extractLsb' 0 8

/-- The field `zero` of a command word: bits 31:8 (30_encoding.md R90). -/
def zeroField (w : Word) : BitVec 24 := w.extractLsb' 8 24

/-- The opcode map (30_encoding.md R91). -/
def decodeOpcode (op : Opcode) : Option Instr :=
  match op.toNat with
  | 1 => some .clr
  | 2 => some .count
  | 3 => some .build
  | 4 => some .derive
  | 5 => some .pack
  | 6 => some .unpack
  | 7 => some .encode
  | _ => none

/-- Decoding a command word: the decoder of 30_encoding.md R91, total on every word, rejecting by name (R93). -/
def decode (w : Word) : Except IllegalWord Instr :=
  if zeroField w = 0 then
    match decodeOpcode (opField w) with
    | some i => .ok i
    | none => .error .opcodeReserved
  else .error .zeroFieldNotZero

/-- The opcode of each command (30_encoding.md R91). -/
def opcode : Instr → Opcode
  | .clr => 0x01
  | .count => 0x02
  | .build => 0x03
  | .derive => 0x04
  | .pack => 0x05
  | .unpack => 0x06
  | .encode => 0x07

/-- The command word of each command: the opcode in bits 7:0, zeros above (30_encoding.md R90, R91). -/
def encode (i : Instr) : Word := 0#24 ++ opcode i

/-- The instruction in `nbits` bits of value `w`, numbered as spec/opcode_table.json numbers them. The block has one
command length, one 32-bit word (30_encoding.md R94), so bits above `nbits` are zeros of that word and more than 32 bits
are no command. -/
def decodeTableWord (nbits w : Nat) : Option Instr :=
  if nbits ≤ Config.regW ∧ w < 2 ^ nbits then
    match decode (BitVec.ofNat 32 w) with
    | .ok i => some i
    | .error _ => none
  else none

end Sys2Proof
end

