-- ==== Sys2Proof/Machine/State.lean ====
section
/-! DEFINITION. The architectural state (10_state.md R20), the model's own fields beside it, the reasons a step can
stop, and the state after reset (10_state.md R40). -/

namespace Sys2Proof.Machine

/-- Cells of one space that hold a value, as (index, element) pairs in one canonical form (`Memory.wf`): indexes strictly
rising, none at what an unlisted cell reads as. An unlisted cell of FREQ reads 0; an unlisted cell of the other four
memories is unwritten (10_state.md R39). -/
abbrev Cells (α : Type) := List (Nat × α)

/-- The state. The first fourteen fields are the whole architectural state of 10_state.md R20; the last four are the
model's own: the configuration, what the host will do and has read, and the counter of free draws (log entries 4, 1, 2,
3). -/
structure State where
  /-- REG index 0 (10_state.md R24). -/
  cmd : Word
  /-- REG index 1 (10_state.md R25). -/
  status : Word
  /-- REG index 2 (10_state.md R26). -/
  symlen : Word
  /-- REG index 3 (10_state.md R27). -/
  symcount : Word
  /-- REG index 4 (10_state.md R28). -/
  tabsize : Word
  /-- REG index 5 (10_state.md R29). -/
  bitlen : Word
  /-- REG index 6 (10_state.md R30). -/
  bytelen : Word
  /-- REG index 7 (10_state.md R31). -/
  nodecnt : Word
  /-- REG index 8 (10_state.md R31). -/
  nleaf : Word
  /-- SYMBUF (10_state.md R32): an unlisted cell is unwritten. -/
  symbuf : Cells Nat
  /-- FREQ (10_state.md R33): an unlisted cell is 0. -/
  freq : Cells Nat
  /-- NODE (10_state.md R34): an unlisted cell is unwritten. -/
  node : Cells NodeRec
  /-- CODETAB (10_state.md R35): an unlisted cell is unwritten. -/
  codetab : Cells Entry
  /-- BYTEBUF (10_state.md R36): an unlisted cell is unwritten. -/
  bytebuf : List Host.Cell
  /-- MODEL'S OWN (log entry 4): the parameters this instance is built with, the argument of 00_scope.md R6. No step changes
  it. -/
  config : Params
  /-- MODEL'S OWN (log entry 1): the host operations to come, next first. -/
  pending : List HostOp
  /-- MODEL'S OWN (log entry 2): what the host's reads returned, last first. -/
  readLog : List Element
  /-- MODEL'S OWN (log entry 3): how many free values have been drawn. -/
  draws : Nat
  deriving DecidableEq, Repr

/-- Why a step stops with a model fault. -/
inductive Fault where
  /-- Raised by COUNT, PACK, UNPACK and ENCODE that read an unwritten cell inside a valid region
  (10_state.md R39, 93_implementation_defined.md U2, 60_exceptions.md R227), and by DERIVE in states no run reaches. Safe. -/
  | unwrittenCell (sp : Space)
  /-- Raised by DERIVE when NODE does not hold a tree (its child indexes lead round in a circle): no state reached by a
  run is like that (log entry 5). Safe. -/
  | treeNotBottomUp
  deriving DecidableEq, Repr

/-- Why a step is refused. -/
inductive Refusal where
  /-- The instruction has no meaning in the model. No arm uses it. Safe. -/
  | notModelled (mnemonic : String)
  /-- A host access with an index outside its space (20_memory.md R63, 93_implementation_defined.md U5). Safe. -/
  | indexOutOfRange
  /-- A host write of a value wider than an element of its space (20_memory.md R61, R67): no operation of the block (log
  entry 13). Safe. -/
  | elementTooWide
  /-- A host access other than a read of STATUS while STATUS.BUSY = 1 (70_reset_and_hazards.md R243,
  93_implementation_defined.md U1); no run reaches such a state. Safe. -/
  | busyAccess
  deriving DecidableEq, Repr

/-- The state right after reset (10_state.md R40, 70_reset_and_hazards.md R240). The configuration is the
reference one (00_scope.md R6, log entry 4). The host has nothing pending: no program is put into it (log entry 1). -/
def State.reset : State :=
  { cmd := 0, status := 0, symlen := 0, symcount := 0, tabsize := 0, bitlen := 0, bytelen := 0, nodecnt := 0, nleaf := 0,
    symbuf := [], freq := [], node := [], codetab := [], bytebuf := [],
    config := Params.reference, pending := [], readLog := [], draws := 0 }

end Sys2Proof.Machine
end

