-- ==== Sys2Proof/Machine/Flags.lean ====
section
/-! DEFINITION. The block's only flags: the fields of STATUS (10_state.md R25), the error kinds and their codes
(60_exceptions.md R211), and the two words a command can leave in STATUS (60_exceptions.md R218, R219). -/

namespace Sys2Proof.Machine

/-- The six errors a command can end with (60_exceptions.md R211). -/
inductive ErrorKind where
  | emptyInput
  | unknownSymbol
  | malformedCode
  | capacity
  | sequence
  | illegalCommand
  deriving DecidableEq, Repr

/-- The code of an error, as STATUS.ERRCODE shows it (60_exceptions.md R211). -/
def errorCode : ErrorKind → BitVec 4
  | .emptyInput => 1
  | .unknownSymbol => 2
  | .malformedCode => 3
  | .capacity => 4
  | .sequence => 5
  | .illegalCommand => 6

/-- STATUS after a command that completed without error: every field 0 (60_exceptions.md R219). -/
def statusOk : Word := 0

/-- STATUS after an error: ERROP in bits 15:8, ERRCODE in bits 7:4, ERR = 1 in bit 1, BUSY = 0 in bit 0, reserved bits 0
(10_state.md R25, 60_exceptions.md R218, R219). -/
def statusError (e : ErrorKind) (op : Opcode) : Word :=
  0#16 ++ op ++ errorCode e ++ 0#2 ++ 1#1 ++ 0#1

/-- STATUS.BUSY, bit 0 (10_state.md R25). -/
def statusBusy (w : Word) : Bool := w.getLsbD 0

/-- STATUS.ERR, bit 1 (10_state.md R25). -/
def statusErr (w : Word) : Bool := w.getLsbD 1

/-- STATUS.ERRCODE, bits 7:4 (10_state.md R25). -/
def statusErrCode (w : Word) : BitVec 4 := w.extractLsb' 4 4

/-- STATUS.ERROP, bits 15:8 (10_state.md R25). -/
def statusErrOp (w : Word) : Opcode := w.extractLsb' 8 8

/-- STATUS with BUSY cleared: the block idle (10_state.md R22, R25). -/
def statusIdle (w : Word) : Word := w &&& 0xFFFFFFFE#32

end Sys2Proof.Machine
end

