-- ==== Sys2Proof/Machine/Ops.lean ====
section
/-! DEFINITION. The named operations over memory and registers: the cells of a space, the updates of the state, and how
a command ends: completing without error, or taking an error (60_exceptions.md R219), the block's one "trap entry".
There is no return from an error (60_exceptions.md R220): the next command simply overwrites STATUS. -/

namespace Sys2Proof.Machine

/-! Cells of a space. -/

/-- The element a listed cell holds. -/
def Memory.get {α : Type} : Cells α → Nat → Option α
  | [], _ => none
  | (a, x) :: r, i => if a = i then some x else Memory.get r i

/-- Write one cell, keeping the indexes rising. -/
def Memory.set {α : Type} : Cells α → Nat → α → Cells α
  | [], i, v => [(i, v)]
  | (a, x) :: r, i, v =>
    if i < a then (i, v) :: (a, x) :: r
    else if i = a then (i, v) :: r
    else (a, x) :: Memory.set r i v

/-- Unlist one cell: it then holds what an unlisted cell reads as. -/
def Memory.clear {α : Type} (m : Cells α) (i : Nat) : Cells α := m.filter fun c => c.1 != i

/-- Write consecutive cells from index `i` on. -/
def Memory.setRange {α : Type} : Cells α → Nat → List α → Cells α
  | m, _, [] => m
  | m, i, v :: vs => Memory.setRange (Memory.set m i v) (i + 1) vs

/-- The indexes rise strictly. -/
def Memory.rising {α : Type} : Cells α → Bool
  | [] => true
  | (a, _) :: r => r.all (fun c => decide (a < c.1)) && Memory.rising r

/-- The canonical form of a space of `size` elements whose unlisted cells are unwritten: strictly rising indexes, all of
them in the space. -/
def Memory.wf {α : Type} (size : Nat) (m : Cells α) : Bool :=
  Memory.rising m && m.all fun c => decide (c.1 < size)

/-- `FREQ[s]`: a cell that is not listed reads 0 (10_state.md R33, R39). -/
def freqGet (m : Cells Nat) (i : Nat) : Nat := (Memory.get m i).getD 0

/-- `FREQ[s] <- c`, keeping the canonical form: a count of 0 is not listed. -/
def freqSet (m : Cells Nat) (i : Nat) (c : Nat) : Cells Nat :=
  if c = 0 then Memory.clear m i else Memory.set m i c

/-- The canonical form of FREQ: as `Memory.wf`, and no listed count is 0. -/
def freqWf (c : Params) (m : Cells Nat) : Bool :=
  Memory.wf c.nMax m && m.all fun x => x.2 != 0

/-- The number of elements of each space (20_memory.md R60). -/
def spaceSize (c : Params) : Space → Nat
  | .reg => Config.regCount
  | .symbuf => c.symCap
  | .freq => c.nMax
  | .node => c.nodeCap
  | .codetab => c.tabCap
  | .bytebuf => c.byteCap

/-- All five memories are in canonical form. -/
def memoriesWf (s : State) : Bool :=
  Memory.wf s.config.symCap s.symbuf && freqWf s.config s.freq && Memory.wf s.config.nodeCap s.node &&
    Memory.wf s.config.tabCap s.codetab && Memory.wf s.config.byteCap s.bytebuf

/-! Updates of the state. -/

/-- Store a word in CMD (10_state.md R24). -/
def setCmd (w : Word) (s : State) : State := { s with cmd := w }

/-- Write STATUS whole: a command's completion overwrites all its fields together (10_state.md R25). -/
def setStatus (w : Word) (s : State) : State := { s with status := w }

/-- Write FREQ (COUNT's result memory). -/
def setFreq (f : Cells Nat) (s : State) : State := { s with freq := f }

/-- Write the tree: NODE, NODECNT, NLEAF (BUILD's result). -/
def setTree (m : Cells NodeRec) (cnt leaves : Word) (s : State) : State :=
  { s with node := m, nodecnt := cnt, nleaf := leaves }

/-- Write the table: CODETAB, TABSIZE; and release the tree: NODECNT is 0 (DERIVE's result, 42_code_table_gen.md R146). -/
def setTable (m : Cells Entry) (size : Word) (s : State) : State :=
  { s with codetab := m, tabsize := size, nodecnt := 0 }

/-- Write the packing: BYTEBUF, BYTELEN, BITLEN, SYMCOUNT (PACK's result, 43_bit_packer.md R164). -/
def setPacking (m : Cells Byte) (bytes bits syms : Word) (s : State) : State :=
  { s with bytebuf := m, bytelen := bytes, bitlen := bits, symcount := syms }

/-- Write the decoded sequence: SYMBUF, SYMLEN (UNPACK's result). -/
def setDecoded (m : Cells Nat) (len : Word) (s : State) : State :=
  { s with symbuf := m, symlen := len }

/-- Every register but CMD and STATUS to 0, FREQ all 0, the other memories unwritten (10_state.md R40,
45_orchestration_and_control.md R197). -/
def scrub (s : State) : State :=
  { s with symlen := 0, symcount := 0, tabsize := 0, bitlen := 0, bytelen := 0, nodecnt := 0, nleaf := 0,
           symbuf := [], freq := [], node := [], codetab := [], bytebuf := [] }

/-! How a command ends. -/

/-- What a command's computation over the present state comes to, before any write. -/
inductive Attempt (α : Type) where
  /-- It has a result to write. -/
  | ok (a : α)
  /-- It raises an error (00_scope.md R10, 60_exceptions.md R210). -/
  | raised (e : ErrorKind)
  /-- It reads an unwritten cell (93_implementation_defined.md U2). -/
  | fault (f : Fault)
  deriving DecidableEq, Repr

/-- One computation after another. -/
def Attempt.andThen {α β : Type} (r : Attempt α) (k : α → Attempt β) : Attempt β :=
  match r with
  | .ok a => k a
  | .raised e => .raised e
  | .fault f => .fault f

/-- A command completes without error (60_exceptions.md R219): STATUS is 0. -/
def complete (s : State) : Host.Outcome State Fault Refusal := .next (setStatus statusOk s)

/-- TAKING AN ERROR, the block's trap entry (60_exceptions.md R218, R219): STATUS records ERR, the code and the opcode of
the primitive step that raised it; no state is saved, control goes nowhere. `s` is the state with the failing command's
own writes made. -/
def raiseError (e : ErrorKind) (op : Opcode) (s : State) : State := setStatus (statusError e op) s

/-- End a primitive step of opcode `op`: on a result, write it and go on with `k`; on an error, make the writes of the
failing case and take the error; on a fault, stop (60_exceptions.md R219, 45_orchestration_and_control.md R195). -/
def settle {α : Type} (op : Opcode) (r : Attempt α) (commit : α → State) (failed : State)
    (k : State → Host.Outcome State Fault Refusal) : Host.Outcome State Fault Refusal :=
  match r with
  | .ok a => k (commit a)
  | .raised e => .next (raiseError e op failed)
  | .fault f => .fault f

end Sys2Proof.Machine
end

