-- ==== Sys2Proof/Machine/Operands.lean ====
section
/-! DEFINITION. The operand forms: every operand of a command is implicit, a valid region of one memory named by a length
register (30_encoding.md R92, 10_state.md R38, R46). -/

namespace Sys2Proof.Machine

/-- Read `n` cells of a space from index `i` on; an unwritten cell is a model fault (10_state.md R39,
93_implementation_defined.md U2). -/
def readRegion {α : Type} (sp : Space) (m : Cells α) (i : Nat) : Nat → Attempt (List α)
  | 0 => .ok []
  | n + 1 =>
    match Memory.get m i with
    | none => .fault (.unwrittenCell sp)
    | some v => (readRegion sp m (i + 1) n).andThen fun vs => .ok (v :: vs)

/-- `SYMBUF[0..SYMLEN)` (10_state.md R26, R32). -/
def readSymbols (s : State) : Attempt (List Nat) := readRegion .symbuf s.symbuf 0 s.symlen.toNat

/-- `CODETAB[0..TABSIZE)` (10_state.md R28, R35). -/
def readTable (s : State) : Attempt (List Entry) := readRegion .codetab s.codetab 0 s.tabsize.toNat

/-- `BYTEBUF[0..BYTELEN)` (10_state.md R30, R36). -/
def readBytes (s : State) : Attempt (List Byte) := readRegion .bytebuf s.bytebuf 0 s.bytelen.toNat

end Sys2Proof.Machine
end

