-- ==== Sys2Proof/Machine/Build.lean ====
section
/-! DEFINITION. huffman_tree_builder: the BUILD command (41_huffman_tree_builder.md). -/

namespace Sys2Proof.Machine

/-- BUILD's opcode (30_encoding.md R91). -/
def opBuild : Opcode := 0x03

/-- The entries: the symbols with a nonzero count, in ascending order, with their counts (41_huffman_tree_builder.md
R120, R121). FREQ lists its nonzero cells with rising indexes, so they stand there in that order. -/
def entries (f : Cells Nat) : List (Nat × Nat) :=
  f.filter fun c => c.2 != 0

/-- The leaf of an entry (41_huffman_tree_builder.md R121). -/
def leafRec (e : Nat × Nat) : NodeRec :=
  { kind := .leaf, weight := e.2, depth := 1, key := e.1, left := 0, right := 0 }

/-- A node of the working collection: its index in NODE and its record. -/
abbrev Live := Nat × NodeRec

/-- `X` is lighter than `Y`: the smaller weight, and among equal weights the larger key (41_huffman_tree_builder.md
R122). -/
def lighter (x y : NodeRec) : Bool :=
  x.weight < y.weight || (x.weight == y.weight && y.key < x.key)

/-- The lightest node of the working collection, and the rest (41_huffman_tree_builder.md R122). -/
def takeLightest : List Live → Option (Live × List Live)
  | [] => none
  | x :: xs =>
    match takeLightest xs with
    | none => some (x, [])
    | some (y, ys) => if lighter x.2 y.2 then some (x, y :: ys) else some (y, x :: ys)

/-- The branch over `P` (left) and `Q` (right): weight the sum, depth one more than the deeper child's, key the smaller
key (41_huffman_tree_builder.md R123, R124). -/
def branchRec (p q : Live) : NodeRec :=
  { kind := .branch, weight := p.2.weight + q.2.weight,
    depth := max p.2.depth q.2.depth + 1,
    key := min p.2.key q.2.key,
    left := p.1, right := q.1 }

/-- `n` merges on a working collection, the first branch getting index `next`; the branches in order of creation
(41_huffman_tree_builder.md R120, R124, R130). `Q`, the lightest, becomes the right child, `P`, the lightest of the rest,
the left child. -/
def mergeAll : Nat → Nat → List Live → List NodeRec
  | 0, _, _ => []
  | n + 1, next, w =>
    match takeLightest w with
    | none => []
    | some (q, w1) =>
      match takeLightest w1 with
      | none => []
      | some (p, w2) => branchRec p q :: mergeAll n (next + 1) ((next, branchRec p q) :: w2)

/-- The working collection at the start: every leaf with its index (41_huffman_tree_builder.md R120). -/
def numbered : Nat → List NodeRec → List Live
  | _, [] => []
  | i, r :: rs => (i, r) :: numbered (i + 1) rs

/-- `NODE[0..2N-1)` for the given entries: the leaves in symbol order, then the branches of the `N - 1` merges in order
of creation (41_huffman_tree_builder.md R120, R125, R130). -/
def treeNodes (es : List (Nat × Nat)) : List NodeRec :=
  es.map leafRec ++ mergeAll (es.length - 1) es.length (numbered 0 (es.map leafRec))

/-- BUILD's one check, then the entries (41_huffman_tree_builder.md R120, R127). -/
def buildResult (s : State) : Attempt (List (Nat × Nat)) :=
  if (entries s.freq).length = 0 then .raised .emptyInput else .ok (entries s.freq)

/-- BUILD's writes: the node records, `NODECNT = 2N - 1`, `NLEAF = N` (41_huffman_tree_builder.md R120, R125). -/
def buildCommit (s : State) (es : List (Nat × Nat)) : State :=
  setTree (Memory.setRange s.node 0 (treeNodes es)) (BitVec.ofNat 32 (2 * es.length - 1)) (BitVec.ofNat 32 es.length) s

/-- Perform BUILD and go on with `k` if it raises nothing; on the error NODECNT = NLEAF = 0 and NODE is unwritten
(41_huffman_tree_builder.md R127). -/
def performBuild (s : State) (k : State → Host.Outcome State Fault Refusal) : Host.Outcome State Fault Refusal :=
  settle opBuild (buildResult s) (buildCommit s) (setTree [] 0 0 s) k

/-- BUILD (41_huffman_tree_builder.md R120). -/
def execBuild (s : State) : Host.Outcome State Fault Refusal := performBuild s complete

end Sys2Proof.Machine
end

