-- ==== Sys2Proof/Machine/Count.lean ====
section
/-! DEFINITION. symbol_freq_counter: the COUNT command (40_symbol_freq_counter.md). -/

namespace Sys2Proof.Machine

/-- COUNT's opcode (30_encoding.md R91). -/
def opCount : Opcode := 0x02

/-- `FREQ[s] <- FREQ[s] + 1` (40_symbol_freq_counter.md R110). -/
def tallyOne (f : Cells Nat) (x : Nat) : Cells Nat := freqSet f x (freqGet f x + 1)

/-- The tally of a symbol sequence, from an empty FREQ (40_symbol_freq_counter.md R110, R111). -/
def tally (xs : List Nat) : Cells Nat := xs.foldl tallyOne []

/-- COUNT's checks in their order, then the tally (40_symbol_freq_counter.md R110). -/
def countResult (s : State) : Attempt (Cells Nat) :=
  if s.config.symCap < s.symlen.toNat then .raised .capacity
  else if s.symlen.toNat = 0 then .raised .emptyInput
  else (readSymbols s).andThen fun xs => .ok (tally xs)

/-- Perform COUNT and go on with `k` if it raises nothing; on an error FREQ is all 0 (40_symbol_freq_counter.md R110). -/
def performCount (s : State) (k : State → Host.Outcome State Fault Refusal) : Host.Outcome State Fault Refusal :=
  settle opCount (countResult s) (fun f => setFreq f s) (setFreq [] s) k

/-- COUNT (40_symbol_freq_counter.md R110). -/
def execCount (s : State) : Host.Outcome State Fault Refusal := performCount s complete

end Sys2Proof.Machine
end

