-- ==== Sys2Proof/Machine/Bits.lean ====
section
/-! DEFINITION. Bit-strings and their values (00_scope.md R9), and the positional packing of bits into bytes
(43_bit_packer.md R162, R163) with its inverse (44_bit_unpacker.md R176). -/

namespace Sys2Proof.Machine

/-- `val(b)`: the value of a bit-string, first bit most significant (00_scope.md R9). -/
def bitsVal (b : Bits) : Nat := b.foldl (fun acc x => 2 * acc + x.toNat) 0

/-- `bits(n, v)`: the bit-string of length `n` whose value is `v`, for `v < 2^n` (00_scope.md R9). -/
def bitsOf : Nat → Nat → Bits
  | 0, _ => []
  | n + 1, v => v.testBit n :: bitsOf n v

/-- `ceil(L/8)` (00_scope.md R8). -/
def ceilDiv8 (n : Nat) : Nat := (n + 7) / 8

/-- Byte `k` of a packing: logical bit `8k + j` stands in bit `7 - j`, and 0 where the bits have ended
(43_bit_packer.md R162, R163). -/
def packByte (b : Bits) (k : Nat) : Byte :=
  BitVec.ofNat 8 (bitsVal ((List.range 8).map fun j => b.getD (8 * k + j) false))

/-- `pack_bits(B)`: the `ceil(L/8)` bytes of a bit sequence of length `L` (43_bit_packer.md R162). -/
def packBits (b : Bits) : List Byte := (List.range (ceilDiv8 b.length)).map (packByte b)

/-- `unpack_bits(Y)`: the bits of a byte sequence, most significant bit of each byte first (44_bit_unpacker.md R176). -/
def unpackBits (ys : List Byte) : Bits := ys.flatMap fun y => bitsOf 8 y.toNat

end Sys2Proof.Machine
end

