-- ==== Sys2Proof/Machine/Table.lean ====
section
/-! DEFINITION. Code table entries as bit-strings (10_state.md R43), the well-formedness check (42_code_table_gen.md
R148), and the two look-ups: symbol to code (43_bit_packer.md R161) and code to symbol (42_code_table_gen.md R149). -/

namespace Sys2Proof.Machine

/-- The code of an entry: `bits(len, code)` (10_state.md R43). -/
def entryBits (e : Entry) : Bits := bitsOf e.len e.code.toNat

/-- The entry of a symbol and its code: `(sym, |b|, zext_32(val(b)))` (10_state.md R43, 42_code_table_gen.md R140). -/
def entryOf (c : Nat × Bits) : Entry :=
  { sym := c.1, len := c.2.length, code := BitVec.ofNat 32 (bitsVal c.2) }

/-- `p` holds of every element and every later one. -/
def allPairs {α : Type} (p : α → α → Bool) : List α → Bool
  | [] => true
  | x :: xs => xs.all (p x) && allPairs p xs

/-- (W1) of 42_code_table_gen.md R148: the length is 1 to `LEN_MAX`. -/
def lenLegal (e : Entry) : Bool := 1 ≤ e.len && e.len ≤ Config.lenMax

/-- (W2) of 42_code_table_gen.md R148: the container's bits above the code are 0. -/
def containerClean (e : Entry) : Bool := e.code.toNat < 2 ^ e.len

/-- (W3) of 42_code_table_gen.md R148, for two entries: different symbols. -/
def symbolsDiffer (e f : Entry) : Bool := e.sym != f.sym

/-- (W4) of 42_code_table_gen.md R148, for two entries: neither code is a prefix of the other. -/
def prefixFreePair (e f : Entry) : Bool :=
  !(entryBits e).isPrefixOf (entryBits f) && !(entryBits f).isPrefixOf (entryBits e)

/-- `TableWF(T)` (42_code_table_gen.md R148). -/
def tableWF (t : List Entry) : Bool :=
  t.all lenLegal && t.all containerClean && allPairs symbolsDiffer t && allPairs prefixFreePair t

/-- `code_of(T, s)`: the code of the entry of `s` (43_bit_packer.md R161). -/
def codeOf (t : List Entry) (s : Nat) : Option Bits := (t.find? fun e => e.sym == s).map entryBits

/-- `match(T, b)`: the symbol of the entry whose code is `b` (42_code_table_gen.md R149). -/
def matchCode (t : List Entry) (b : Bits) : Option Nat := (t.find? fun e => entryBits e == b).map (·.sym)

/-- `maxlen(T)`: the largest length in the table, 0 for the empty table (42_code_table_gen.md R149). -/
def maxLen (t : List Entry) : Nat := t.foldl (fun m e => max m e.len) 0

end Sys2Proof.Machine
end

