-- ==== Sys2Proof/Machine/Derive.lean ====
section
/-! DEFINITION. canonical_code_table_gen: the DERIVE command (42_code_table_gen.md). -/

namespace Sys2Proof.Machine

/-- DERIVE's opcode (30_encoding.md R91). -/
def opDerive : Opcode := 0x04

/-- `walk(k, b)`: depth first, left subtree ("0") before right subtree ("1"), each leaf with the bit-string of the turns
to it (42_code_table_gen.md R140, R141, R143). The first argument bounds the depth of the walk: a tree of `n` records is
never deeper than `n` (log entry 5). -/
def walk (nodes : Cells NodeRec) : Nat → Nat → Bits → Attempt (List (Nat × Bits))
  | 0, _, _ => .fault .treeNotBottomUp
  | d + 1, k, b =>
    match Memory.get nodes k with
    | none => .fault (.unwrittenCell .node)
    | some r =>
      match r.kind with
      | .leaf => .ok [(r.key, b)]
      | .branch =>
        (walk nodes d r.left (b ++ [false])).andThen fun l =>
          (walk nodes d r.right (b ++ [true])).andThen fun t => .ok (l ++ t)

/-- The symbols and codes of the tree of `n` records: the one-bit code "0" when the root is a leaf
(42_code_table_gen.md R142), the walk from the root otherwise (42_code_table_gen.md R140). -/
def treeCodes (nodes : Cells NodeRec) (n : Nat) : Attempt (List (Nat × Bits)) :=
  match Memory.get nodes (n - 1) with
  | none => .fault (.unwrittenCell .node)
  | some r =>
    match r.kind with
    | .leaf => .ok [(r.key, [false])]
    | .branch => walk nodes n (n - 1) []

/-- DERIVE's checks in their order: a tree is there, every code fits its container (42_code_table_gen.md R140, R145). -/
def deriveResult (s : State) : Attempt (List (Nat × Bits)) :=
  if s.nodecnt.toNat = 0 then .raised .sequence
  else (treeCodes s.node s.nodecnt.toNat).andThen fun t =>
    if t.any fun c => decide (Config.lenMax < c.2.length) then .raised .capacity else .ok t

/-- DERIVE's writes: the entries in the order of the walk, TABSIZE, and the release of the tree
(42_code_table_gen.md R140, R146). -/
def deriveCommit (s : State) (t : List (Nat × Bits)) : State :=
  setTable (Memory.setRange s.codetab 0 (t.map entryOf)) (BitVec.ofNat 32 t.length) s

/-- Perform DERIVE and go on with `k` if it raises nothing; on an error TABSIZE = 0, CODETAB is unwritten and the tree is
released (42_code_table_gen.md R140, R146, 60_exceptions.md R219). -/
def performDerive (s : State) (k : State → Host.Outcome State Fault Refusal) : Host.Outcome State Fault Refusal :=
  settle opDerive (deriveResult s) (deriveCommit s) (setTable [] 0 s) k

/-- DERIVE (42_code_table_gen.md R140). -/
def execDerive (s : State) : Host.Outcome State Fault Refusal := performDerive s complete

end Sys2Proof.Machine
end

