-- ==== Sys2Proof/Machine/Pack.lean ====
section
/-! DEFINITION. bit_packer: the PACK command (43_bit_packer.md). -/

namespace Sys2Proof.Machine

/-- PACK's opcode (30_encoding.md R91). -/
def opPack : Opcode := 0x05

/-- The logical bit sequence of `n` symbols of SYMBUF from index `i` on, after the bits `b`, for an output of `cap` bytes:
per symbol, an unknown symbol is found before a full output (43_bit_packer.md R160 checks 3 and 4, R165). -/
def gatherBits (cap : Nat) (t : List Entry) (m : Cells Nat) : Nat → Nat → Bits → Attempt Bits
  | 0, _, b => .ok b
  | n + 1, i, b =>
    match Memory.get m i with
    | none => .fault (.unwrittenCell .symbuf)
    | some x =>
      match codeOf t x with
      | none => .raised .unknownSymbol
      | some c => if 8 * cap < b.length + c.length then .raised .capacity else gatherBits cap t m n (i + 1) (b ++ c)

/-- PACK's checks in their order and the logical bit sequence (43_bit_packer.md R160). -/
def packResult (s : State) : Attempt Bits :=
  if s.config.symCap < s.symlen.toNat ∨ s.config.tabCap < s.tabsize.toNat then .raised .capacity
  else (readTable s).andThen fun t =>
    if tableWF t then gatherBits s.config.byteCap t s.symbuf s.symlen.toNat 0 [] else .raised .malformedCode

/-- PACK's writes: the packed bytes, BYTELEN, BITLEN, SYMCOUNT (43_bit_packer.md R160, R164). -/
def packCommit (s : State) (b : Bits) : State :=
  setPacking (Memory.setRange s.bytebuf 0 (packBits b)) (BitVec.ofNat 32 (ceilDiv8 b.length))
    (BitVec.ofNat 32 b.length) s.symlen s

/-- Perform PACK and go on with `k` if it raises nothing; on an error BYTELEN = BITLEN = SYMCOUNT = 0 and BYTEBUF is
unwritten (43_bit_packer.md R160). -/
def performPack (s : State) (k : State → Host.Outcome State Fault Refusal) : Host.Outcome State Fault Refusal :=
  settle opPack (packResult s) (packCommit s) (setPacking [] 0 0 0 s) k

/-- PACK (43_bit_packer.md R160). -/
def execPack (s : State) : Host.Outcome State Fault Refusal := performPack s complete

end Sys2Proof.Machine
end

