-- ==== Sys2Proof/Machine/Control.lean ====
section
/-! DEFINITION. Orchestration and control: the ENCODE and CLR commands (45_orchestration_and_control.md). -/

namespace Sys2Proof.Machine

/-- CLR (45_orchestration_and_control.md R197): the reset state, but for CMD. -/
def execClr (s : State) : Host.Outcome State Fault Refusal := complete (scrub s)

/-- ENCODE (45_orchestration_and_control.md R195): COUNT, BUILD, DERIVE, PACK in turn, stopping at the first error, which
is recorded with the opcode of the sub-step that raised it; STATUS is written once. -/
def execEncode (s : State) : Host.Outcome State Fault Refusal :=
  performCount s fun s1 => performBuild s1 fun s2 => performDerive s2 fun s3 => performPack s3 complete

end Sys2Proof.Machine
end

