-- ==== Sys2Proof/Machine/Unpack.lean ====
section
/-! DEFINITION. bit_unpacker: the UNPACK command (44_bit_unpacker.md). -/

namespace Sys2Proof.Machine

/-- UNPACK's opcode (30_encoding.md R91). -/
def opUnpack : Opcode := 0x06

/-- `decode_walk(T, X, c)` with the accumulator `acc`: bit by bit, a match before the over-length test, no bit taken once
`c` symbols are out; `none` is the walk's failure (44_bit_unpacker.md R177 to R180). -/
def decodeWalk (t : List Entry) : Bits → Nat → Bits → Option (List Nat)
  | _, 0, _ => some []
  | [], _ + 1, _ => none
  | x :: xs, c + 1, acc =>
    match matchCode t (acc ++ [x]) with
    | some s => (decodeWalk t xs c []).map (s :: ·)
    | none => if maxLen t < (acc ++ [x]).length then none else decodeWalk t xs (c + 1) (acc ++ [x])

/-- UNPACK's checks in their order and the decoded sequence (44_bit_unpacker.md R175, R181). With SYMCOUNT = 0 it
completes whatever BYTELEN and the bytes are (44_bit_unpacker.md R183), so it then reads none of them (log entry 6). -/
def unpackResult (s : State) : Attempt (List Nat) :=
  if s.config.symCap < s.symcount.toNat ∨ s.config.tabCap < s.tabsize.toNat ∨ s.config.byteCap < s.bytelen.toNat then
    .raised .capacity
  else (readTable s).andThen fun t =>
    if tableWF t then
      if s.symcount.toNat = 0 then .ok []
      else (readBytes s).andThen fun ys =>
        match decodeWalk t (unpackBits ys) s.symcount.toNat [] with
        | some out => .ok out
        | none => .raised .malformedCode
    else .raised .malformedCode

/-- UNPACK's writes: the decoded symbols and SYMLEN (44_bit_unpacker.md R175). -/
def unpackCommit (s : State) (out : List Nat) : State :=
  setDecoded (Memory.setRange s.symbuf 0 out) s.symcount s

/-- Perform UNPACK and go on with `k` if it raises nothing; on an error SYMLEN = 0 and SYMBUF is unwritten
(44_bit_unpacker.md R182). -/
def performUnpack (s : State) (k : State → Host.Outcome State Fault Refusal) : Host.Outcome State Fault Refusal :=
  settle opUnpack (unpackResult s) (unpackCommit s) (setDecoded [] 0 s) k

/-- UNPACK (44_bit_unpacker.md R175). -/
def execUnpack (s : State) : Host.Outcome State Fault Refusal := performUnpack s complete

end Sys2Proof.Machine
end

