-- ==== Sys2Proof/Machine/HostPort.lean ====
section
/-! DEFINITION. The host's operations on the block (20_memory.md R61 to R63): reading and writing one element, issuing a
command by writing CMD, and reset (70_reset_and_hazards.md R240). -/

namespace Sys2Proof.Machine

/-- Register `i` of REG (10_state.md R23). -/
def regRead (i : Nat) (s : State) : Word :=
  match i with
  | 0 => s.cmd
  | 1 => s.status
  | 2 => s.symlen
  | 3 => s.symcount
  | 4 => s.tabsize
  | 5 => s.bitlen
  | 6 => s.bytelen
  | 7 => s.nodecnt
  | 8 => s.nleaf
  | _ => 0

/-- A host write of register `i` other than CMD: SYMLEN, SYMCOUNT, TABSIZE, BYTELEN take it, STATUS, BITLEN, NODECNT,
NLEAF ignore it (20_memory.md R62). -/
def regWrite (i : Nat) (w : Word) (s : State) : State :=
  match i with
  | 2 => { s with symlen := w }
  | 3 => { s with symcount := w }
  | 4 => { s with tabsize := w }
  | 6 => { s with bytelen := w }
  | _ => s

/-- The element at index `i` of a space, or `none` where the spec leaves the value open: an unwritten cell, or a NODE
record at index `NODECNT` or above (10_state.md R34, R39, 93_implementation_defined.md U3). -/
def elementAt (sp : Space) (i : Nat) (s : State) : Option Element :=
  match sp with
  | .reg => some (.reg (regRead i s))
  | .symbuf => (Memory.get s.symbuf i).map .sym
  | .freq => some (.count (freqGet s.freq i))
  | .node => if i < s.nodecnt.toNat then (Memory.get s.node i).map .node else none
  | .codetab => (Memory.get s.codetab i).map .entry
  | .bytebuf => (Memory.get s.bytebuf i).map .byte

/-- An element with every field cut to its width (20_memory.md R60). -/
def cutToWidth (c : Params) : Element → Element
  | .reg w => .reg w
  | .sym x => .sym (x % 2 ^ c.symW)
  | .count x => .count (x % 2 ^ c.cntW)
  | .node r =>
    .node
      { kind := r.kind, weight := r.weight % 2 ^ c.wtW, depth := r.depth % 2 ^ c.depthW, key := r.key % 2 ^ c.symW,
        left := r.left % 2 ^ c.idxW, right := r.right % 2 ^ c.idxW }
  | .entry e => .entry { sym := e.sym % 2 ^ c.symW, len := e.len % 2 ^ c.lenW, code := e.code }
  | .byte y => .byte y

/-- The free value of the `n`-th draw for a space: "an arbitrary element of the right width"
(93_implementation_defined.md U3, log entry 3). Registers and counts always hold a value, so nothing is ever drawn for
them. -/
def freeElement (c : Params) (sp : Space) (n : Nat) : Element :=
  match sp with
  | .reg => .reg 0
  | .symbuf => cutToWidth c (.sym (Config.freeSymbol n))
  | .freq => .count 0
  | .node => cutToWidth c (.node (Config.freeNode n))
  | .codetab => cutToWidth c (.entry (Config.freeEntry n))
  | .bytebuf => .byte (Config.freeByte n)

/-- `HostRead(space, i)` (20_memory.md R61): the block does not change; the host has the element, or a fresh free value
where the spec leaves it open. -/
def hostRead (sp : Space) (i : Nat) (s : State) : State :=
  match elementAt sp i s with
  | some e => { s with readLog := e :: s.readLog }
  | none => { s with readLog := freeElement s.config sp s.draws :: s.readLog, draws := s.draws + 1 }

/-- `HostWrite(space, i, v)` of anything but CMD (20_memory.md R61, R62): the cell holds `v`; a NODE record ignores it. -/
def hostWrite (i : Nat) (v : Element) (s : State) : State :=
  match v with
  | .reg w => regWrite i w s
  | .sym x => { s with symbuf := Memory.set s.symbuf i x }
  | .count c => { s with freq := freqSet s.freq i c }
  | .node _ => s
  | .entry e => { s with codetab := Memory.set s.codetab i e }
  | .byte b => { s with bytebuf := Memory.set s.bytebuf i b }

/-- `HostWrite(REG, 0, w)` (20_memory.md R61, 30_encoding.md R90, R93): store `w` in CMD, then run the command it
encodes; an illegal word raises IllegalCommandError with its bits 7:0 as ERROP and changes nothing else. -/
def issueCommand (w : Word) (s : State) : Host.Outcome State Fault Refusal :=
  match decode w with
  | .ok i => exec i (setCmd w s)
  | .error _ => .next (raiseError .illegalCommand (opField w) (setCmd w s))

/-- Reset (70_reset_and_hazards.md R240, 10_state.md R40): every register 0, FREQ 0, the other memories unwritten. What
the host has pending and has read is not in the block and stays. -/
def hostReset (s : State) : State := setCmd 0 (setStatus 0 (scrub s))

/-- The one host access allowed while BUSY = 1: a read of STATUS (70_reset_and_hazards.md R243). -/
def readsStatus (op : HostOp) : Bool :=
  match op with
  | .read .reg 1 => true
  | .read _ _ => false
  | .write _ _ => false
  | .reset => false

/-- One host operation, carried out. An access while BUSY = 1 (93_implementation_defined.md U1), an index outside its space
(93_implementation_defined.md U5) and a value wider than the element (log entry 13) are refused. -/
def hostStep (op : HostOp) (s : State) : Host.Outcome State Fault Refusal :=
  match op with
  | .reset => .next (hostReset s)
  | .read sp i =>
    if statusBusy s.status && !readsStatus (.read sp i) then .refused .busyAccess
    else if spaceSize s.config sp ≤ i then .refused .indexOutOfRange
    else .next (hostRead sp i s)
  | .write i v =>
    if statusBusy s.status then .refused .busyAccess
    else if spaceSize s.config v.space ≤ i then .refused .indexOutOfRange
    else if !v.fits s.config then .refused .elementTooWide
    else
      match v, i with
      | .reg w, 0 => issueCommand w s
      | _, _ => .next (hostWrite i v s)

/-- The state with the operation at the head of the pending ones taken off (log entry 1). -/
def setPending (ops : List HostOp) (s : State) : State := { s with pending := ops }

/-- The next pending host operation, carried out; with none pending the block does nothing
(70_reset_and_hazards.md R241). -/
def nextHostOp (s : State) : Host.Outcome State Fault Refusal :=
  match s.pending with
  | [] => .next s
  | op :: rest => hostStep op (setPending rest s)

/-- The state in which the next thing the host does is to write the word `w` of `nbits` bits to CMD, the block being
idle. -/
def commandNext (nbits w : Nat) (s : State) : State :=
  setStatus (statusIdle s.status)
    (setPending (.write 0 (.reg (BitVec.ofNat 32 (w % 2 ^ nbits))) :: s.pending) s)

end Sys2Proof.Machine
end

