-- ==== Sys2Proof/Machine/Step.lean ====
section
/-! DEFINITION. One step of the model is one host operation (00_scope.md R7, 20_memory.md R61). -/

namespace Sys2Proof.Machine

/-- One step: the next pending host operation (00_scope.md R7). -/
def step (s : State) : Host.Outcome State Fault Refusal := nextHostOp s

/-- The state with a write of this command word to CMD as the host's next operation (log entry 1). -/
def State.withFetchWord (s : State) (nbits w : Nat) : State := commandNext nbits w s

end Sys2Proof.Machine
end

