-- ==== Sys2Proof/Machine/Payload.lean ====
section
/-! DEFINITION. The payload as a view of the state (10_state.md R44) and the reference serialisation of it (20_memory.md
R73), a layout on the host's side that the block does not execute. -/

namespace Sys2Proof.Machine

/-- EncodedPayload: the table, the symbol count, the packed bytes (10_state.md R44). -/
structure Payload where
  table : List Entry
  symbolCount : Word
  packedBytes : List Byte
  deriving DecidableEq, Repr

/-- `payload(state)` (10_state.md R44); an unwritten cell in a valid region has no payload. -/
def payloadOf (s : State) : Attempt Payload :=
  (readTable s).andThen fun t =>
    (readBytes s).andThen fun ys => .ok { table := t, symbolCount := s.symcount, packedBytes := ys }

/-- `be_k(v)`: the `k`-byte big-endian encoding (20_memory.md R73). -/
def bigEndian : Nat → Nat → List Byte
  | 0, _ => []
  | k + 1, v => BitVec.ofNat 8 (v / 2 ^ (8 * k)) :: bigEndian k v

/-- The value of a big-endian byte string. -/
def bigEndianVal (ys : List Byte) : Nat := ys.foldl (fun acc y => 256 * acc + y.toNat) 0

/-- `SB = ceil(SYM_W/8)`: the bytes of a symbol (20_memory.md R73). -/
def symBytes (c : Params) : Nat := ceilDiv8 c.symW

/-- One entry in the reference serialisation: `SB`-byte symbol, 1-byte length, 4-byte container (20_memory.md R73). -/
def serialiseEntry (c : Params) (e : Entry) : List Byte :=
  bigEndian (symBytes c) e.sym ++ bigEndian 1 e.len ++ bigEndian 4 e.code.toNat

/-- The fields of a payload that have a big-endian encoding in the bytes 20_memory.md R73 gives them: the symbols, the
lengths and the number of entries. -/
def serialisable (c : Params) (p : Payload) : Bool :=
  p.table.length < 2 ^ 32 && p.table.all fun e => e.sym < 2 ^ (8 * symBytes c) && e.len < 2 ^ 8

/-- `serialise(table, symbolCount, packedBytes)` (20_memory.md R73). DESIGN CHOICE (log entry 12): the spec does not say
what the stream is where a field does not fit the bytes it has there; the model then gives none. -/
def serialise (c : Params) (p : Payload) : Option (List Byte) :=
  if serialisable c p then
    some (bigEndian 4 p.symbolCount.toNat ++ bigEndian 4 p.table.length ++ p.table.flatMap (serialiseEntry c) ++
      p.packedBytes)
  else none

/-- The entry in the first `SB + 5` bytes of a stream (20_memory.md R73). DESIGN CHOICE (log entry 12): the spec does not
say what a symbol or a length that has no room in the field of CODETAB means (a length byte of 64 or more with
`LEN_W` = 6); the model reads no entry there, and cuts nothing to fit. -/
def deserialiseEntry (c : Params) (ys : List Byte) : Option Entry :=
  let e : Entry :=
    { sym := bigEndianVal (ys.take (symBytes c)),
      len := bigEndianVal ((ys.drop (symBytes c)).take 1),
      code := BitVec.ofNat 32 (bigEndianVal ((ys.drop (symBytes c + 1)).take 4)) }
  if e.fits c then some e else none

/-- Read `n` entries of the reference serialisation; the entries and the bytes after them (20_memory.md R73). DESIGN CHOICE
(log entry 12): the spec does not say what a stream that ends within its entries means; the model reads none from it. -/
def deserialiseEntries (c : Params) : Nat → List Byte → Option (List Entry × List Byte)
  | 0, ys => some ([], ys)
  | n + 1, ys =>
    if ys.length < symBytes c + 5 then none
    else
      match deserialiseEntry c ys, deserialiseEntries c n (ys.drop (symBytes c + 5)) with
      | some e, some (es, rest) => some (e :: es, rest)
      | _, _ => none

/-- Deserialising reads the fields in the same order; the packed bytes run to the end of the stream (20_memory.md R73).
DESIGN CHOICE (log entry 12): the spec does not say what a stream of fewer than 8 bytes, or one shorter than the entries it
announces, means; the model gives no payload for it, nor for one with an entry that CODETAB cannot hold. -/
def deserialise (c : Params) (ys : List Byte) : Option Payload :=
  if ys.length < 8 then none
  else
    match deserialiseEntries c (bigEndianVal ((ys.drop 4).take 4)) (ys.drop 8) with
    | none => none
    | some (es, rest) =>
      some { table := es, symbolCount := BitVec.ofNat 32 (bigEndianVal (ys.take 4)), packedBytes := rest }

end Sys2Proof.Machine
end

