-- ==== Sys2Proof/Machine/HostProgram.lean ====
section
/-! DEFINITION. The notation for host programs (30_encoding.md R95) and the pseudo-commands (30_encoding.md R96), as lists of
host operations; loading a payload for UNPACK (45_orchestration_and_control.md R196). -/

namespace Sys2Proof.Machine

/-- A mnemonic on a line of its own: a write of its command word to CMD (30_encoding.md R95). -/
def issueOp (i : Instr) : HostOp := .write 0 (.reg (encode i))

/-- The pseudo-command `DECODE`: UNPACK (30_encoding.md R96). -/
def decodeOp : HostOp := issueOp .unpack

/-- `WRSEQ space, [v0, ..., vk]` (30_encoding.md R96), from index `i` on; the elements name their space. -/
def writeSeq : Nat → List Element → List HostOp
  | _, [] => []
  | i, v :: vs => .write i v :: writeSeq (i + 1) vs

/-- `LOADSYMS [s0, ..., sk]` (30_encoding.md R96). -/
def loadSyms (xs : List Nat) : List HostOp :=
  writeSeq 0 (xs.map .sym) ++ [.write 2 (.reg (BitVec.ofNat 32 xs.length))]

/-- Write a payload's fields where UNPACK reads them (45_orchestration_and_control.md R196). -/
def loadPayload (p : Payload) : List HostOp :=
  writeSeq 0 (p.table.map .entry) ++ [.write 4 (.reg (BitVec.ofNat 32 p.table.length))] ++
    writeSeq 0 (p.packedBytes.map .byte) ++ [.write 6 (.reg (BitVec.ofNat 32 p.packedBytes.length))] ++
    [.write 3 (.reg p.symbolCount)]

end Sys2Proof.Machine
end

