-- ==== Sys2Proof/Machine/Views.lean ====
section
/-! DEFINITION. The source's data model as views of the state: the tree held in NODE (10_state.md R42) and what its
leaves' codes are (42_code_table_gen.md R141, R142). -/

namespace Sys2Proof.Machine

/-- A tree as an abstract value (10_state.md R42). -/
inductive CodeTree where
  | leaf (sym : Nat) (weight : Nat) (depth : Nat)
  | branch (weight : Nat) (depth : Nat) (left right : CodeTree)
  deriving DecidableEq, Repr

/-- `tree_at(k)` (10_state.md R42), for a tree of depth at most the first argument. -/
def treeAt (nodes : Cells NodeRec) : Nat → Nat → Option CodeTree
  | 0, _ => none
  | d + 1, k =>
    match Memory.get nodes k with
    | none => none
    | some r =>
      match r.kind with
      | .leaf => some (.leaf r.key r.weight r.depth)
      | .branch =>
        match treeAt nodes d r.left, treeAt nodes d r.right with
        | some l, some t => some (.branch r.weight r.depth l t)
        | _, _ => none

/-- The tree held in NODE, `tree_at(NODECNT - 1)`; none when NODECNT = 0 (10_state.md R31, R42). -/
def heldTree (s : State) : Option CodeTree :=
  if s.nodecnt.toNat = 0 then none else treeAt s.node s.nodecnt.toNat (s.nodecnt.toNat - 1)

/-- The symbols of the leaves, from left to right. -/
def treeSymbols : CodeTree → List Nat
  | .leaf s _ _ => [s]
  | .branch _ _ l r => treeSymbols l ++ treeSymbols r

/-- The number of branches. -/
def treeBranches : CodeTree → Nat
  | .leaf _ _ _ => 0
  | .branch _ _ l r => treeBranches l + treeBranches r + 1

/-- The weight of the root. -/
def treeWeight : CodeTree → Nat
  | .leaf _ w _ => w
  | .branch w _ _ _ => w

/-- The depth field of the root. -/
def treeDepth : CodeTree → Nat
  | .leaf _ _ d => d
  | .branch _ d _ _ => d

/-- The smallest symbol among the leaves (41_huffman_tree_builder.md R123). -/
def treeKey : CodeTree → Nat
  | .leaf s _ _ => s
  | .branch _ _ l r => min (treeKey l) (treeKey r)

/-- The number of edges from the root to the furthest leaf. -/
def treeHeight : CodeTree → Nat
  | .leaf _ _ _ => 0
  | .branch _ _ l r => max (treeHeight l) (treeHeight r) + 1

/-- The codes of the leaves below a node whose own path is `b`: "0" to the left, "1" to the right (42_code_table_gen.md
R141). -/
def pathCodes (b : Bits) : CodeTree → List (Nat × Bits)
  | .leaf s _ _ => [(s, b)]
  | .branch _ _ l r => pathCodes (b ++ [false]) l ++ pathCodes (b ++ [true]) r

/-- The codes of a whole tree: the one-bit code "0" for a single leaf (42_code_table_gen.md R142). -/
def codesOfTree : CodeTree → List (Nat × Bits)
  | .leaf s _ _ => [(s, [false])]
  | .branch w d l r => pathCodes [] (.branch w d l r)

/-- The weighted path length of a tree for given counts, its root at distance `d` from the root of the whole:
the sum of count(s) * rootdistance(s) (41_huffman_tree_builder.md R128 (f)). -/
def pathCost (count : Nat → Nat) (d : Nat) : CodeTree → Nat
  | .leaf s _ _ => count s * d
  | .branch _ _ l r => pathCost count (d + 1) l + pathCost count (d + 1) r

/-- In every part of the tree the weight is the sum of the children's, the depth is one more than the deeper child's and
1 at a leaf, and a leaf's weight is its symbol's count (41_huffman_tree_builder.md R128 (b), (c)). -/
def treeFieldsRight (count : Nat → Nat) : CodeTree → Bool
  | .leaf s w d => w == count s && d == 1
  | .branch w d l r =>
    w == treeWeight l + treeWeight r && d == max (treeDepth l) (treeDepth r) + 1 &&
      treeFieldsRight count l && treeFieldsRight count r

/-- In every branch the left child is not lighter than the right child: the heavier weight is left, or the weights are
equal and the smaller key is left (41_huffman_tree_builder.md R124). -/
def heavierLeft : CodeTree → Bool
  | .leaf _ _ _ => true
  | .branch _ _ l r =>
    (treeWeight r < treeWeight l || (treeWeight l == treeWeight r && treeKey l < treeKey r)) &&
      heavierLeft l && heavierLeft r

/-- Node `j` is in the working collection just before node `k` is made, the leaves being the first `n` records: it is
made already, and no branch made before `k` has it as a child (41_huffman_tree_builder.md R120). -/
def liveBefore (nodes : Cells NodeRec) (n k j : Nat) : Prop :=
  j < k ∧ ∀ b r, n ≤ b → b < k → Memory.get nodes b = some r → r.left ≠ j ∧ r.right ≠ j

end Sys2Proof.Machine
end

