-- ==== Sys2Proof/Safety.lean ====
section
/-! DEFINITION. The terms claims are stated in: what the memories hold, the invariant every step keeps, what a failed
command leaves, and two ways of comparing states. -/

namespace Sys2Proof

open Sys2Proof.Machine

/-- The cells `0 .. |xs|-1` of a space are written and hold the sequence `xs`. -/
def Holds {α : Type} (m : Cells α) (xs : List α) : Prop := ∀ k, k < xs.length → Memory.get m k = xs[k]?

/-- The cells from `n` on are in `m'` as they were in `m`. -/
def SameFrom {α : Type} (n : Nat) (m m' : Cells α) : Prop := ∀ k, n ≤ k → Memory.get m' k = Memory.get m k

/-- No cell of a space is written (10_state.md R39). -/
def Unwritten {α : Type} (m : Cells α) : Prop := ∀ k, Memory.get m k = none

/-- `SYMBUF[0..SYMLEN)` is written and is the sequence `xs`. -/
def SymbolsAre (s : State) (xs : List Nat) : Prop := s.symlen.toNat = xs.length ∧ Holds s.symbuf xs

/-- `CODETAB[0..TABSIZE)` is written and is the table `t`. -/
def TableIs (s : State) (t : List Entry) : Prop := s.tabsize.toNat = t.length ∧ Holds s.codetab t

/-- `BYTEBUF[0..BYTELEN)` is written and is the byte sequence `ys`. -/
def BytesAre (s : State) (ys : List Byte) : Prop := s.bytelen.toNat = ys.length ∧ Holds s.bytebuf ys

/-- `cs` are the codes of the symbols `xs`, one by one, in the table `t` (43_bit_packer.md R161). -/
def Coded (t : List Entry) (xs : List Nat) (cs : List Bits) : Prop :=
  List.Forall₂ (fun x c => ∃ e ∈ t, e.sym = x ∧ c = entryBits e) xs cs

/-- `X` is lighter than `Y`: the smaller weight, or the same weight and the larger key (41_huffman_tree_builder.md R122). -/
def LighterThan (x y : NodeRec) : Prop := x.weight < y.weight ∨ (x.weight = y.weight ∧ y.key < x.key)

/-- The symbols with a nonzero count (41_huffman_tree_builder.md R120). -/
def PresentSymbols (s : State) : Finset Nat := (Finset.range s.config.nMax).filter fun x => freqGet s.freq x ≠ 0

/-- The sum of all counts. -/
def CountSum (s : State) : Nat := ∑ x ∈ Finset.range s.config.nMax, freqGet s.freq x

/-- Every element of a sequence is a symbol: an integer of `SYM_W` bits (10_state.md R32). -/
def AreSymbols (s : State) (xs : List Nat) : Prop := ∀ x ∈ xs, x < 2 ^ s.config.symW

/-- Every cell of the memories has the width of its space (20_memory.md R60): nothing has wrapped (00_scope.md R12). -/
def cellsFit (s : State) : Bool :=
  (s.symbuf.all fun x => (Element.sym x.2).fits s.config) && (s.freq.all fun x => (Element.count x.2).fits s.config) &&
    (s.node.all fun x => x.2.fits s.config) && s.codetab.all fun x => x.2.fits s.config

/-- STATUS is a word a command can leave or reset leaves: 0, or BUSY = 0, ERR = 1, a code of 1 to 6, reserved bits 0
(10_state.md R25, 60_exceptions.md R211). -/
def statusLegal (w : Word) : Bool :=
  w == 0 ||
    (!statusBusy w && statusErr w && 1 ≤ (statusErrCode w).toNat && (statusErrCode w).toNat ≤ 6 &&
      w.extractLsb' 2 2 == 0 && w.extractLsb' 16 16 == 0)

/-- Record `k` is right for a tree of `n` leaves: a leaf below `n`; from `n` on a branch whose children stand below it,
with the fields of 41_huffman_tree_builder.md R121, R123, R124. -/
def nodeOk (nodes : Cells NodeRec) (n k : Nat) : Bool :=
  match Memory.get nodes k with
  | none => false
  | some r =>
    if k < n then
      r.kind == .leaf && r.depth == 1 && r.left == 0 && r.right == 0 && r.weight != 0
    else
      r.kind == .branch && decide (r.left < k) && decide (r.right < k) &&
        match Memory.get nodes r.left, Memory.get nodes r.right with
        | some p, some q =>
          r.weight == p.weight + q.weight && r.depth == max p.depth q.depth + 1 &&
            r.key == min p.key q.key
        | _, _ => false

/-- Leaf `k` has a smaller key than leaf `k + 1` (41_huffman_tree_builder.md R121). -/
def keysRise (nodes : Cells NodeRec) (k : Nat) : Bool :=
  match Memory.get nodes k, Memory.get nodes (k + 1) with
  | some a, some b => decide (a.key < b.key)
  | _, _ => false

/-- NODE holds a tree BUILD can have made (10_state.md R31, 41_huffman_tree_builder.md R121, R124, R128, R130). -/
structure TreeHeld (s : State) : Prop where
  /-- NODECNT = 2 NLEAF - 1. -/
  counts : s.nodecnt.toNat + 1 = 2 * s.nleaf.toNat
  /-- Every record in the valid region is right. -/
  records : ∀ k < s.nodecnt.toNat, nodeOk s.node s.nleaf.toNat k = true
  /-- The leaves stand in ascending symbol order. -/
  rising : ∀ k < s.nleaf.toNat - 1, keysRise s.node k = true
  /-- The tree under the root has every leaf once, and its heavier children on the left. -/
  whole : ∃ t, heldTree s = some t ∧ (treeSymbols t).length = s.nleaf.toNat ∧ (treeSymbols t).Nodup ∧ heavierLeft t = true

/-- The invariant that every step keeps: the memories are in canonical form and inside their spaces, every cell
has the width of its space, STATUS is a legal word with BUSY = 0, NLEAF and BITLEN stay in their ranges, and NODECNT names
either no tree or a tree. -/
structure Inv (s : State) : Prop where
  memories : memoriesWf s = true
  widths : cellsFit s = true
  status : statusLegal s.status = true
  leaves : s.nleaf.toNat ≤ s.config.nMax
  bits : s.bitlen.toNat ≤ 8 * s.config.byteCap
  tree : s.nodecnt.toNat = 0 ∨ TreeHeld s

/-- Every cell of the valid regions that the commands other than DERIVE read is written, as far as the lengths are within
the capacities (the premise under which no command meets 93_implementation_defined.md U2). -/
def RegionsWritten (s : State) : Prop :=
  (s.symlen.toNat ≤ s.config.symCap → ∀ k < s.symlen.toNat, (Memory.get s.symbuf k).isSome = true) ∧
  (s.tabsize.toNat ≤ s.config.tabCap → ∀ k < s.tabsize.toNat, (Memory.get s.codetab k).isSome = true) ∧
  (s.bytelen.toNat ≤ s.config.byteCap → ∀ k < s.bytelen.toNat, (Memory.get s.bytebuf k).isSome = true)

/-- The errors each command can end with, and the opcode STATUS then shows (60_exceptions.md R211, R218;
45_orchestration_and_control.md R195). -/
def errorsOf : Instr → List (ErrorKind × Opcode)
  | .clr => []
  | .count => [(.capacity, 0x02), (.emptyInput, 0x02)]
  | .build => [(.emptyInput, 0x03)]
  | .derive => [(.sequence, 0x04), (.capacity, 0x04)]
  | .pack => [(.capacity, 0x05), (.malformedCode, 0x05), (.unknownSymbol, 0x05)]
  | .unpack => [(.capacity, 0x06), (.malformedCode, 0x06)]
  | .encode => [(.capacity, 0x02), (.emptyInput, 0x02), (.capacity, 0x04), (.capacity, 0x05)]

/-- Go on with `k` after a command that completed without error; stop at an error, a fault or a refusal
(45_orchestration_and_control.md R195). -/
def thenUnlessError (o : Host.Outcome State Fault Refusal) (k : State → Host.Outcome State Fault Refusal) :
    Host.Outcome State Fault Refusal :=
  match o with
  | .next t => if statusErr t.status then .next t else k t
  | .fault f => .fault f
  | .refused r => .refused r

/-- An outcome with its next state changed by `f`. -/
def mapNext (f : State → State) (o : Host.Outcome State Fault Refusal) : Host.Outcome State Fault Refusal :=
  match o with
  | .next t => .next (f t)
  | .fault r => .fault r
  | .refused r => .refused r

/-- The state with the registers that no command reads blanked: CMD, BITLEN, NLEAF (10_state.md R24, R29, R31). -/
def hideResults (s : State) : State := { s with cmd := 0, bitlen := 0, nleaf := 0 }

end Sys2Proof
end

