-- ==== Sys2Proof/Certificates/Slice0/Obligations.lean ====
section
/-! DEFINITION. The statements for the provers: one definition each, listed in OBLIGATIONS.json. -/

open Sys2Proof Sys2Proof.Machine

/-! Encoding (30_encoding.md). -/

/-- The words of the opcode map decode to their commands, and some words that are no command are rejected by name. -/
def Obligations.CommandWordsDecode : Prop :=
  decode 0x00000001 = .ok .clr ∧ decode 0x00000002 = .ok .count ∧ decode 0x00000003 = .ok .build ∧
  decode 0x00000004 = .ok .derive ∧ decode 0x00000005 = .ok .pack ∧ decode 0x00000006 = .ok .unpack ∧
  decode 0x00000007 = .ok .encode ∧ decode 0x00000000 = .error .opcodeReserved ∧
  decode 0x00000008 = .error .opcodeReserved ∧ decode 0x000000FF = .error .opcodeReserved ∧
  decode 0x00000102 = .error .zeroFieldNotZero ∧ decode 0xFFFFFFFF = .error .zeroFieldNotZero

/-- Decoding the word of a command gives the command back, directly and through the opcode table's bit numbering. -/
def Obligations.DecodeOfEncodeIsTheCommand : Prop :=
  ∀ i : Instr, i.wellFormed = true → decode (encode i) = .ok i ∧ decodeTableWord 32 (encode i).toNat = some i

/-- Of all 32-bit words exactly the words of the seven commands decode, each to its command, and exactly they pass the
legality check of bits 31:8 and 7:0. -/
def Obligations.OnlyCommandWordsDecode : Prop :=
  ∀ w : Word, (∀ i, decode w = .ok i ↔ w = encode i) ∧ (wordLegal w = true ↔ ∃ i, w = encode i)

/-! Steps: the host's operations (20_memory.md R61 to R63). -/

/-- When the host's next operation writes a word that decodes to `i` to CMD, the block being idle, the step is `exec i` on
the state with that operation taken off and the word stored in CMD. -/
def Obligations.StepRunsTheDecodedCommand : Prop :=
  ∀ (s : State) (rest : List HostOp) (w : Word) (i : Instr),
    s.pending = .write 0 (.reg w) :: rest → statusBusy s.status = false → decode w = .ok i →
    step s = exec i { s with pending := rest, cmd := w }

/-- After `withFetchWord` of a word that decodes to `i` the very next step is `exec i`, on the state with that word in CMD
and BUSY = 0. -/
def Obligations.FetchWordIsRunNext : Prop :=
  ∀ (s : State) (w : Nat) (i : Instr), decodeTableWord 32 w = some i →
    step (s.withFetchWord 32 w) = exec i { s with cmd := BitVec.ofNat 32 w, status := statusIdle s.status }

/-- An illegal word written to CMD is stored there, raises IllegalCommandError with its bits 7:0 as ERROP, and changes
nothing else. -/
def Obligations.IllegalWordChangesOnlyCmdAndStatus : Prop :=
  ∀ (s : State) (rest : List HostOp) (w : Word),
    s.pending = .write 0 (.reg w) :: rest → statusBusy s.status = false →
    (w.extractLsb' 8 24 ≠ 0 ∨ (w.extractLsb' 0 8).toNat = 0 ∨ 8 ≤ (w.extractLsb' 0 8).toNat) →
    step s = .next { s with pending := rest, cmd := w,
                            status := statusError .illegalCommand (w.extractLsb' 0 8) }

/-- A host read of an element that exists, the block being idle (or the register read being STATUS), changes no state of
the block and gives the host one element of that space (of its width, where every cell has its width): the register, the
count, or what the written cell holds (for NODE, inside the valid region). Where the spec leaves the value open nothing is said of it. -/
def Obligations.HostReadReturnsTheElement : Prop :=
  ∀ (s : State) (rest : List HostOp) (sp : Space) (i : Nat),
    s.pending = .read sp i :: rest → (statusBusy s.status = false ∨ (sp = .reg ∧ i = 1)) → i < sp.elements s.config →
    ∃ (e : Element) (d : Nat),
      step s = .next { s with pending := rest, readLog := e :: s.readLog, draws := d } ∧ e.space = sp ∧
      (cellsFit s = true → e.fits s.config = true) ∧
      (sp = .reg → ([s.cmd, s.status, s.symlen, s.symcount, s.tabsize, s.bitlen, s.bytelen, s.nodecnt, s.nleaf].map
        Element.reg)[i]? = some e) ∧
      (sp = .symbuf → ∀ v, Memory.get s.symbuf i = some v → e = .sym v) ∧
      (sp = .freq → e = .count (freqGet s.freq i)) ∧
      (sp = .node → i < s.nodecnt.toNat → ∀ v, Memory.get s.node i = some v → e = .node v) ∧
      (sp = .codetab → ∀ v, Memory.get s.codetab i = some v → e = .entry v) ∧
      (sp = .bytebuf → ∀ v, Memory.get s.bytebuf i = some v → e = .byte v)

/-- A host write of an element that exists, other than CMD: SYMLEN, SYMCOUNT, TABSIZE, BYTELEN and the cells of SYMBUF,
FREQ, CODETAB and BYTEBUF take the value, every other cell and register is as it was; STATUS, BITLEN, NODECNT, NLEAF and
the NODE records ignore it. -/
def Obligations.HostWriteStoresOrIsIgnored : Prop :=
  ∀ (s : State) (rest : List HostOp) (i : Nat) (v : Element),
    s.pending = .write i v :: rest → statusBusy s.status = false → i < v.space.elements s.config →
    v.fits s.config = true → (v.space = .reg → i ≠ 0) →
    ∃ t, step s = .next t ∧
      (∀ w, v = .reg w → t =
        if i = 2 then { s with pending := rest, symlen := w }
        else if i = 3 then { s with pending := rest, symcount := w }
        else if i = 4 then { s with pending := rest, tabsize := w }
        else if i = 6 then { s with pending := rest, bytelen := w }
        else { s with pending := rest }) ∧
      (∀ x, v = .sym x → t = { s with pending := rest, symbuf := t.symbuf } ∧
        Memory.get t.symbuf i = some x ∧ ∀ j, j ≠ i → Memory.get t.symbuf j = Memory.get s.symbuf j) ∧
      (∀ x, v = .count x → t = { s with pending := rest, freq := t.freq } ∧
        freqGet t.freq i = x ∧ ∀ j, j ≠ i → freqGet t.freq j = freqGet s.freq j) ∧
      (∀ x, v = .node x → t = { s with pending := rest }) ∧
      (∀ x, v = .entry x → t = { s with pending := rest, codetab := t.codetab } ∧
        Memory.get t.codetab i = some x ∧ ∀ j, j ≠ i → Memory.get t.codetab j = Memory.get s.codetab j) ∧
      (∀ x, v = .byte x → t = { s with pending := rest, bytebuf := t.bytebuf } ∧
        Memory.get t.bytebuf i = some x ∧ ∀ j, j ≠ i → Memory.get t.bytebuf j = Memory.get s.bytebuf j)

/-- The refusals of a host access: an index outside its space, any access but a read of STATUS while BUSY = 1, and (the
model's choice, log entry 13) a write of a value wider than an element of its space. -/
def Obligations.HostAccessRefusals : Prop :=
  (∀ (s : State) (rest : List HostOp) (sp : Space) (i : Nat), s.pending = .read sp i :: rest →
    statusBusy s.status = false → sp.elements s.config ≤ i → step s = .refused .indexOutOfRange) ∧
  (∀ (s : State) (rest : List HostOp) (i : Nat) (v : Element), s.pending = .write i v :: rest →
    statusBusy s.status = false → v.space.elements s.config ≤ i → step s = .refused .indexOutOfRange) ∧
  (∀ (s : State) (rest : List HostOp) (sp : Space) (i : Nat), s.pending = .read sp i :: rest →
    statusBusy s.status = true → ¬ (sp = .reg ∧ i = 1) → step s = .refused .busyAccess) ∧
  (∀ (s : State) (rest : List HostOp) (i : Nat) (v : Element), s.pending = .write i v :: rest →
    statusBusy s.status = true → step s = .refused .busyAccess) ∧
  (∀ (s : State) (rest : List HostOp) (i : Nat) (v : Element), s.pending = .write i v :: rest →
    statusBusy s.status = false → i < v.space.elements s.config → v.fits s.config = false →
    step s = .refused .elementTooWide)

/-- A reset, at any time, leaves the block in the reset state; the configuration is fixed, and what the host has pending and
has read is not the block's (log entries 1, 2, 3, 4). -/
def Obligations.ResetFromAnyState : Prop :=
  ∀ (s : State) (rest : List HostOp), s.pending = .reset :: rest →
    step s = .next { State.reset with config := s.config, pending := rest, readLog := s.readLog, draws := s.draws }

/-- With nothing pending the block does nothing. -/
def Obligations.IdleBlockDoesNothing : Prop :=
  ∀ s : State, s.pending = [] → step s = .next s

/-- The state after reset and the state after a CLR command, register by register and memory by memory. -/
def Obligations.ResetAndClearedValues : Prop :=
  (State.reset.cmd = 0 ∧ State.reset.status = 0 ∧ State.reset.symlen = 0 ∧ State.reset.symcount = 0 ∧
    State.reset.tabsize = 0 ∧ State.reset.bitlen = 0 ∧ State.reset.bytelen = 0 ∧ State.reset.nodecnt = 0 ∧
    State.reset.nleaf = 0 ∧ (∀ k, freqGet State.reset.freq k = 0) ∧ Unwritten State.reset.symbuf ∧
    Unwritten State.reset.node ∧ Unwritten State.reset.codetab ∧ Unwritten State.reset.bytebuf) ∧
  ∀ (s : State) (rest : List HostOp), s.pending = .write 0 (.reg 0x00000001) :: rest → statusBusy s.status = false →
    ∃ t, step s = .next t ∧ t.cmd = 0x00000001 ∧ t.status = 0 ∧ t.symlen = 0 ∧ t.symcount = 0 ∧ t.tabsize = 0 ∧
      t.bitlen = 0 ∧ t.bytelen = 0 ∧ t.nodecnt = 0 ∧ t.nleaf = 0 ∧ (∀ k, freqGet t.freq k = 0) ∧ Unwritten t.symbuf ∧
      Unwritten t.node ∧ Unwritten t.codetab ∧ Unwritten t.bytebuf

/-! The invariant. -/

/-- The reset state meets the invariant. -/
def Obligations.InvHoldsAtReset : Prop := Inv State.reset

/-- Every step keeps the invariant, from every state that meets it, in every configuration: memories in canonical form and
within their spaces, no value wider than its field, STATUS legal, NODE a tree wherever NODECNT says so. No step changes the
configuration. -/
def Obligations.StepKeepsInv : Prop :=
  ∀ s t : State, Inv s → step s = .next t → Inv t ∧ t.config = s.config

/-! COUNT (40_symbol_freq_counter.md). -/

/-- COUNT of 1 to SYM_CAP written symbols completes: every FREQ cell holds the number of occurrences of its symbol, STATUS
is 0, and nothing else changes. -/
def Obligations.CountTalliesTheSymbols : Prop :=
  ∀ (s : State) (xs : List Nat), SymbolsAre s xs → 1 ≤ xs.length → xs.length ≤ s.config.symCap →
    ∃ t, exec .count s = .next t ∧ t = { s with freq := t.freq, status := 0 } ∧
      ∀ x : Nat, freqGet t.freq x = xs.count x

/-- COUNT's errors in their order, each leaving FREQ all 0 and everything else as it was; and the fault where a symbol in
the valid region was never written. -/
def Obligations.CountErrorsAndUnwritten : Prop :=
  (∀ s : State, s.config.symCap < s.symlen.toNat →
    ∃ t, exec .count s = .next t ∧ t = { s with freq := t.freq, status := statusError .capacity 0x02 } ∧
      ∀ k, freqGet t.freq k = 0) ∧
  (∀ s : State, s.symlen = 0 →
    ∃ t, exec .count s = .next t ∧ t = { s with freq := t.freq, status := statusError .emptyInput 0x02 } ∧
      ∀ k, freqGet t.freq k = 0) ∧
  (∀ (s : State) (k : Nat), s.symlen.toNat ≤ s.config.symCap → k < s.symlen.toNat → Memory.get s.symbuf k = none →
    exec .count s = .fault (.unwrittenCell .symbuf))

/-- After a COUNT of symbols that succeeds the counts sum to the input length, the nonzero cells are the symbols that
occur, their number is from 1 to min(SYMLEN, N_MAX), and a permutation of the input gives the same FREQ. -/
def Obligations.CountSumsAndIgnoresOrder : Prop :=
  ∀ (s : State) (xs : List Nat) (t : State), SymbolsAre s xs → AreSymbols s xs → exec .count s = .next t →
    t.status = 0 →
    CountSum t = s.symlen.toNat ∧
    (∀ x : Nat, 0 < freqGet t.freq x ↔ x ∈ xs) ∧
    1 ≤ (PresentSymbols t).card ∧ (PresentSymbols t).card ≤ min s.symlen.toNat s.config.nMax ∧
    ∀ (s' : State) (ys : List Nat), SymbolsAre s' ys → s'.config = s.config → xs.Perm ys →
      ∃ t', exec .count s' = .next t' ∧ t'.status = 0 ∧ ∀ k, freqGet t'.freq k = freqGet t.freq k

/-! BUILD (41_huffman_tree_builder.md). -/

/-- BUILD with every cell of FREQ 0 raises EmptyInputError, NODECNT and NLEAF become 0 and NODE unwritten; ENCODE never
ends with that error of BUILD's. -/
def Obligations.BuildWithoutEntries : Prop :=
  (∀ s : State, freqWf s.config s.freq = true → (∀ k, freqGet s.freq k = 0) →
    ∃ t, exec .build s = .next t ∧
      t = { s with node := t.node, nodecnt := 0, nleaf := 0, status := statusError .emptyInput 0x03 } ∧
      Unwritten t.node) ∧
  ∀ s t : State, exec .encode s = .next t → t.status ≠ statusError .emptyInput 0x03

/-- BUILD with a nonzero count completes: NLEAF is the number N of nonzero counts, NODECNT is 2N - 1, NODE[0..N) are the
leaves of the present symbols in ascending order with their counts as weights, the cells of NODE from 2N - 1 on and all
else but STATUS are as they were. -/
def Obligations.BuildMakesTheLeaves : Prop :=
  ∀ s : State, freqWf s.config s.freq = true → (PresentSymbols s).Nonempty →
    ∃ t, exec .build s = .next t ∧
      t = { s with node := t.node, nodecnt := t.nodecnt, nleaf := t.nleaf, status := 0 } ∧
      t.nleaf.toNat = (PresentSymbols s).card ∧ t.nodecnt.toNat = 2 * t.nleaf.toNat - 1 ∧
      (∀ k, k < t.nleaf.toNat → ∃ x ∈ PresentSymbols s, ∃ r, Memory.get t.node k = some r ∧ r.kind = .leaf ∧
        r.weight = freqGet s.freq x ∧ r.depth = 1 ∧ r.key = x ∧ r.left = 0 ∧ r.right = 0) ∧
      (∀ k, k + 1 < t.nleaf.toNat → keysRise t.node k = true) ∧
      SameFrom t.nodecnt.toNat s.node t.node

/-- Every branch BUILD makes joins the two lightest nodes of the working collection as it then is: the lightest is the
right child, the lightest of the rest the left child; its weight is the sum of theirs, its depth one more than the larger
of theirs, its key the smaller of theirs. -/
def Obligations.BuildMergesTheTwoLightest : Prop :=
  ∀ s t : State, freqWf s.config s.freq = true → exec .build s = .next t → t.status = 0 →
    ∀ k, t.nleaf.toNat ≤ k → k < t.nodecnt.toNat →
    ∃ r p q, Memory.get t.node k = some r ∧ r.kind = .branch ∧
      Memory.get t.node r.left = some p ∧ Memory.get t.node r.right = some q ∧ r.left ≠ r.right ∧
      liveBefore t.node t.nleaf.toNat k r.left ∧ liveBefore t.node t.nleaf.toNat k r.right ∧
      (∀ j x, liveBefore t.node t.nleaf.toNat k j → j ≠ r.right → Memory.get t.node j = some x →
        LighterThan q x) ∧
      (∀ j x, liveBefore t.node t.nleaf.toNat k j → j ≠ r.right → j ≠ r.left →
        Memory.get t.node j = some x → LighterThan p x) ∧
      r.weight = p.weight + q.weight ∧ r.depth = max p.depth q.depth + 1 ∧ r.key = min p.key q.key

/-- After a BUILD that succeeds the root is NODE[2N - 2] and weighs the sum of all counts. -/
def Obligations.BuildRootWeighsAllCounts : Prop :=
  ∀ s t : State, freqWf s.config s.freq = true → exec .build s = .next t → t.status = 0 →
    ∃ r, Memory.get t.node (2 * t.nleaf.toNat - 2) = some r ∧ r.weight = CountSum s ∧
      t.nodecnt.toNat - 1 = 2 * t.nleaf.toNat - 2

/-- With one present symbol BUILD makes the single leaf, which is the root, and DERIVE then gives the one-bit code "0". -/
def Obligations.SingleSymbolTreeAndCode : Prop :=
  ∀ (s : State) (x : Nat), freqWf s.config s.freq = true → PresentSymbols s = {x} →
    ∃ t, exec .build s = .next t ∧ t.status = 0 ∧ t.nodecnt = 1 ∧ t.nleaf = 1 ∧
      (∃ r, Memory.get t.node 0 = some r ∧ r.kind = .leaf ∧ r.key = x ∧
        r.weight = freqGet s.freq x ∧ r.depth = 1) ∧
      ∃ u, exec .derive t = .next u ∧ u.status = 0 ∧ u.tabsize = 1 ∧ u.nodecnt = 0 ∧
        Memory.get u.codetab 0 = some { sym := x, len := 1, code := 0 }

/-- The tree a successful BUILD leaves: N leaves and N - 1 branches, each present symbol in exactly one leaf and no other
symbol in any, every weight the sum below it and a leaf's its count, every depth one more than the deeper child's and the
root's one more than the largest root distance, and no left child lighter than its right sibling. -/
def Obligations.BuiltTreeIsSound : Prop :=
  ∀ s t : State, freqWf s.config s.freq = true → exec .build s = .next t → t.status = 0 →
    ∃ T, heldTree t = some T ∧ (treeSymbols T).length = t.nleaf.toNat ∧ treeBranches T + 1 = t.nleaf.toNat ∧
      (treeSymbols T).Nodup ∧ (treeSymbols T).toFinset = PresentSymbols s ∧
      treeFieldsRight (fun x => freqGet s.freq x) T = true ∧ treeDepth T = treeHeight T + 1 ∧
      heavierLeft T = true

/-- The tree a successful BUILD leaves minimises the sum of count times root distance over all binary trees with the same
leaves. -/
def Obligations.BuiltTreeIsOptimal : Prop :=
  ∀ (s t : State) (T U : CodeTree), freqWf s.config s.freq = true → exec .build s = .next t → t.status = 0 →
    heldTree t = some T → (treeSymbols U).Perm (treeSymbols T) →
    pathCost (fun x => freqGet s.freq x) 0 T ≤ pathCost (fun x => freqGet s.freq x) 0 U

/-- BUILD depends on the contents of FREQ alone: equal counts give equal records, whatever else the two states hold. -/
def Obligations.BuildDependsOnCountsAlone : Prop :=
  ∀ s s' t t' : State, freqWf s.config s.freq = true → freqWf s'.config s'.freq = true →
    (∀ k, freqGet s.freq k = freqGet s'.freq k) →
    exec .build s = .next t → exec .build s' = .next t' →
    t.status = t'.status ∧ t.nodecnt = t'.nodecnt ∧ t.nleaf = t'.nleaf ∧
      ∀ k, k < t.nodecnt.toNat → Memory.get t.node k = Memory.get t'.node k

/-! DERIVE (42_code_table_gen.md). -/

/-- DERIVE with NODECNT = 0 raises SequenceError; TABSIZE is 0, CODETAB unwritten, and nothing else changes. -/
def Obligations.DeriveWithoutTree : Prop :=
  ∀ s : State, s.nodecnt = 0 →
    ∃ t, exec .derive s = .next t ∧
      t = { s with codetab := t.codetab, tabsize := 0, status := statusError .sequence 0x04 } ∧ Unwritten t.codetab

/-- DERIVE of a tree whose codes fit completes: CODETAB[0..N) holds the leaves' codes from left to right ("0" to the
left, "1" to the right, "0" alone for a single leaf), TABSIZE is N = NLEAF, the tree is released, the entries behind and
all else but STATUS are as they were. -/
def Obligations.DeriveWritesTheCodes : Prop :=
  ∀ (s : State) (T : CodeTree), Inv s → heldTree s = some T →
    (∀ c ∈ codesOfTree T, c.2.length ≤ Config.lenMax) →
    ∃ t, exec .derive s = .next t ∧
      t = { s with codetab := t.codetab, tabsize := t.tabsize, nodecnt := 0, status := 0 } ∧
      t.tabsize.toNat = s.nleaf.toNat ∧ TableIs t ((codesOfTree T).map entryOf) ∧
      SameFrom t.tabsize.toNat s.codetab t.codetab

/-- DERIVE of a tree with a code of more than 32 bits raises CapacityError, writes no entry, and releases the tree. -/
def Obligations.DeriveCodeTooLong : Prop :=
  ∀ (s : State) (T : CodeTree), Inv s → heldTree s = some T →
    (∃ c ∈ codesOfTree T, Config.lenMax < c.2.length) →
    ∃ t, exec .derive s = .next t ∧
      t = { s with codetab := t.codetab, tabsize := 0, nodecnt := 0, status := statusError .capacity 0x04 } ∧
      Unwritten t.codetab

/-- A table DERIVE wrote is well-formed, with one entry for each leaf of the tree and the leaf's root distance as its
length (1 for a single leaf). -/
def Obligations.DerivedTableIsWellFormed : Prop :=
  ∀ s t : State, Inv s → exec .derive s = .next t → t.status = 0 →
    ∃ T table, heldTree s = some T ∧ TableIs t table ∧ tableWF table = true ∧ table.length = s.nleaf.toNat ∧
      table.map (·.sym) = treeSymbols T ∧
      (s.nleaf.toNat ≠ 1 → table.map entryBits = (pathCodes [] T).map (·.2)) ∧
      (s.nleaf.toNat = 1 → table.map entryBits = [[false]])

/-- A table DERIVE wrote for two or more symbols is complete: every infinite bit sequence begins with exactly one of its
codes; for one symbol no code begins with 1. -/
def Obligations.DerivedTableIsComplete : Prop :=
  ∀ (s t : State) (table : List Entry), Inv s → exec .derive s = .next t → t.status = 0 → TableIs t table →
    (2 ≤ table.length → ∀ f : Nat → Bool,
      ∃! e, e ∈ table ∧ entryBits e = (List.range e.len).map f) ∧
    (table.length = 1 → ∀ e ∈ table, ∀ b, entryBits e ≠ true :: b)

/-- DERIVE lists its entries in ascending order of the codes compared as bit-strings. -/
def Obligations.DerivedTableIsInCodeOrder : Prop :=
  ∀ (s t : State) (table : List Entry), Inv s → exec .derive s = .next t → t.status = 0 → TableIs t table →
    (table.map entryBits).Pairwise (fun a b => List.Lex (fun x y => x = false ∧ y = true) a b)

/-! Tables (42_code_table_gen.md R148). -/

/-- The table check is W1 to W4: lengths 1 to 32, clean containers, distinct symbols, and no code a prefix of another. -/
def Obligations.TableCheckMeansW1ToW4 : Prop :=
  ∀ t : List Entry, tableWF t = true ↔
    (∀ e ∈ t, 1 ≤ e.len ∧ e.len ≤ 32) ∧ (∀ e ∈ t, e.code.toNat < 2 ^ e.len) ∧
    (∀ i j (hi : i < t.length) (hj : j < t.length), i ≠ j → t[i].sym ≠ t[j].sym) ∧
    (∀ i j (hi : i < t.length) (hj : j < t.length), i ≠ j →
      ¬ bitsOf t[i].len t[i].code.toNat <+: bitsOf t[j].len t[j].code.toNat)

/-- PACK and UNPACK with their lengths within the capacities raise MalformedCodeError on a table that is not well-formed,
before they look at a symbol or a bit, and leave no result. -/
def Obligations.MalformedTableIsRejected : Prop :=
  (∀ (s : State) (table : List Entry), s.symlen.toNat ≤ s.config.symCap → s.tabsize.toNat ≤ s.config.tabCap →
    TableIs s table → tableWF table = false →
    ∃ t, exec .pack s = .next t ∧
      t = { s with bytebuf := t.bytebuf, bytelen := 0, bitlen := 0, symcount := 0,
                   status := statusError .malformedCode 0x05 } ∧ Unwritten t.bytebuf) ∧
  (∀ (s : State) (table : List Entry), s.symcount.toNat ≤ s.config.symCap → s.tabsize.toNat ≤ s.config.tabCap →
    s.bytelen.toNat ≤ s.config.byteCap → TableIs s table → tableWF table = false →
    ∃ t, exec .unpack s = .next t ∧
      t = { s with symbuf := t.symbuf, symlen := 0, status := statusError .malformedCode 0x06 } ∧ Unwritten t.symbuf)

/-! PACK (43_bit_packer.md). -/

/-- PACK of symbols that all have a code in a well-formed table, and codes that fit BYTEBUF, completes: bit i of the
concatenated codes stands in bit
7 - i mod 8 of byte i div 8, the unused low bits of the last byte are 0, BITLEN, BYTELEN and SYMCOUNT are the lengths,
the bytes behind and all else but STATUS are as they were. -/
def Obligations.PackWritesTheCodes : Prop :=
  ∀ (s : State) (xs : List Nat) (table : List Entry) (cs : List Bits),
    SymbolsAre s xs → xs.length ≤ s.config.symCap → TableIs s table → table.length ≤ s.config.tabCap →
    tableWF table = true → Coded table xs cs → cs.flatten.length ≤ 8 * s.config.byteCap →
    ∃ t, exec .pack s = .next t ∧
      t = { s with bytebuf := t.bytebuf, bytelen := t.bytelen, bitlen := t.bitlen, symcount := s.symlen, status := 0 } ∧
      t.bitlen.toNat = cs.flatten.length ∧ t.bytelen.toNat = (cs.flatten.length + 7) / 8 ∧
      (∀ i, i < 8 * t.bytelen.toNat → ∃ y, Memory.get t.bytebuf (i / 8) = some y ∧
        y.getLsbD (7 - i % 8) = cs.flatten.getD i false) ∧
      SameFrom t.bytelen.toNat s.bytebuf t.bytebuf

/-- PACK's other errors: lengths beyond the capacities; the first symbol that has no entry, the codes before it fitting
BYTEBUF; the first symbol whose code does not fit BYTEBUF after the codes before it. Each leaves BYTELEN,
BITLEN and SYMCOUNT 0, BYTEBUF unwritten and everything else as it was. -/
def Obligations.PackErrors : Prop :=
  (∀ s : State, s.config.symCap < s.symlen.toNat ∨ s.config.tabCap < s.tabsize.toNat →
    ∃ t, exec .pack s = .next t ∧
      t = { s with bytebuf := t.bytebuf, bytelen := 0, bitlen := 0, symcount := 0,
                   status := statusError .capacity 0x05 } ∧ Unwritten t.bytebuf) ∧
  (∀ (s : State) (table : List Entry) (xs : List Nat) (cs : List Bits) (x : Nat),
    s.symlen.toNat ≤ s.config.symCap → TableIs s table → table.length ≤ s.config.tabCap → tableWF table = true →
    xs.length < s.symlen.toNat → Holds s.symbuf (xs ++ [x]) → Coded table xs cs →
    cs.flatten.length ≤ 8 * s.config.byteCap → (∀ e ∈ table, e.sym ≠ x) →
    ∃ t, exec .pack s = .next t ∧
      t = { s with bytebuf := t.bytebuf, bytelen := 0, bitlen := 0, symcount := 0,
                   status := statusError .unknownSymbol 0x05 } ∧ Unwritten t.bytebuf) ∧
  (∀ (s : State) (table : List Entry) (xs : List Nat) (cs : List Bits) (e : Entry),
    s.symlen.toNat ≤ s.config.symCap → TableIs s table → table.length ≤ s.config.tabCap → tableWF table = true →
    xs.length < s.symlen.toNat → Holds s.symbuf (xs ++ [e.sym]) → Coded table xs cs → e ∈ table →
    cs.flatten.length ≤ 8 * s.config.byteCap → 8 * s.config.byteCap < cs.flatten.length + e.len →
    ∃ t, exec .pack s = .next t ∧
      t = { s with bytebuf := t.bytebuf, bytelen := 0, bitlen := 0, symcount := 0,
                   status := statusError .capacity 0x05 } ∧ Unwritten t.bytebuf)

/-- Gathering bits for an output of any capacity: a result has the codes of the symbols in order and fits the capacity;
a capacity error means that the codes up to some symbol fit and with the next one they do not. -/
def Obligations.GatheringStaysWithinCapacity : Prop :=
  ∀ (cap : Nat) (table : List Entry) (m : Cells Nat) (n i : Nat) (b : Bits), b.length ≤ 8 * cap →
    (∀ out, gatherBits cap table m n i b = .ok out →
      out.length ≤ 8 * cap ∧ ∃ (xs : List Nat) (cs : List Bits), xs.length = n ∧
        (∀ k, k < n → Memory.get m (i + k) = xs[k]?) ∧ List.Forall₂ (fun x c => codeOf table x = some c) xs cs ∧
        out = b ++ cs.flatten) ∧
    (gatherBits cap table m n i b = .raised .capacity →
      ∃ (xs : List Nat) (cs : List Bits) (x : Nat) (c : Bits), xs.length < n ∧
        (∀ k, k ≤ xs.length → Memory.get m (i + k) = (xs ++ [x])[k]?) ∧
        List.Forall₂ (fun x c => codeOf table x = some c) xs cs ∧ codeOf table x = some c ∧
        (b ++ cs.flatten).length ≤ 8 * cap ∧ 8 * cap < (b ++ cs.flatten ++ c).length)

/-- Packing is positional, most significant bit first, zero-padded, and unpacking is its inverse up to the padding. -/
def Obligations.PackingIsPositional : Prop :=
  (∀ b : Bits, (packBits b).length = (b.length + 7) / 8) ∧
  (∀ (b : Bits) (k j : Nat) (hk : k < (packBits b).length), j < 8 →
    (packBits b)[k].getLsbD (7 - j) = if h : 8 * k + j < b.length then b[8 * k + j] else false) ∧
  (∀ (ys : List Byte), (unpackBits ys).length = 8 * ys.length) ∧
  (∀ (ys : List Byte) (i : Nat) (hi : i < (unpackBits ys).length) (hy : i / 8 < ys.length),
    (unpackBits ys)[i] = ys[i / 8].getLsbD (7 - i % 8)) ∧
  (∀ b : Bits, unpackBits (packBits b) = b ++ List.replicate (8 * ((b.length + 7) / 8) - b.length) false)

/-! UNPACK (44_bit_unpacker.md). -/

/-- UNPACK of bytes whose bits begin with the codes of SYMCOUNT symbols completes with those symbols, ignoring all bits
and bytes after them; the cells of SYMBUF behind and all else but STATUS are as they were. -/
def Obligations.UnpackReturnsTheCodedSymbols : Prop :=
  ∀ (s : State) (xs : List Nat) (table : List Entry) (cs : List Bits) (ys : List Byte) (rest : Bits),
    s.symcount.toNat = xs.length → xs.length ≤ s.config.symCap → TableIs s table → table.length ≤ s.config.tabCap →
    tableWF table = true → BytesAre s ys → ys.length ≤ s.config.byteCap → Coded table xs cs →
    unpackBits ys = cs.flatten ++ rest →
    ∃ t, exec .unpack s = .next t ∧
      t = { s with symbuf := t.symbuf, symlen := s.symcount, status := 0 } ∧ SymbolsAre t xs ∧
      SameFrom s.symcount.toNat s.symbuf t.symbuf

/-- An UNPACK that succeeds had a well-formed table and returned exactly SYMCOUNT symbols whose codes the bits begin
with: no truncated and no guessed sequence. -/
def Obligations.UnpackSuccessIsExact : Prop :=
  ∀ s t : State, exec .unpack s = .next t → t.status = 0 →
    ∃ (table : List Entry) (xs : List Nat) (cs : List Bits), TableIs s table ∧ tableWF table = true ∧
      SymbolsAre t xs ∧ xs.length = s.symcount.toNat ∧ Coded table xs cs ∧
      (s.symcount.toNat ≠ 0 → ∃ ys rest, BytesAre s ys ∧ unpackBits ys = cs.flatten ++ rest)

/-- UNPACK's other errors: lengths beyond the capacities, and bits that do not begin with the codes of SYMCOUNT symbols
(exhausted or over-long). Each leaves SYMLEN 0, SYMBUF unwritten and everything else as it was. -/
def Obligations.UnpackErrors : Prop :=
  (∀ s : State,
    s.config.symCap < s.symcount.toNat ∨ s.config.tabCap < s.tabsize.toNat ∨ s.config.byteCap < s.bytelen.toNat →
    ∃ t, exec .unpack s = .next t ∧
      t = { s with symbuf := t.symbuf, symlen := 0, status := statusError .capacity 0x06 } ∧ Unwritten t.symbuf) ∧
  (∀ (s : State) (table : List Entry) (ys : List Byte), s.symcount.toNat ≤ s.config.symCap → TableIs s table →
    table.length ≤ s.config.tabCap → tableWF table = true → BytesAre s ys → ys.length ≤ s.config.byteCap →
    (¬ ∃ xs cs rest, Coded table xs cs ∧ xs.length = s.symcount.toNat ∧ unpackBits ys = cs.flatten ++ rest) →
    ∃ t, exec .unpack s = .next t ∧
      t = { s with symbuf := t.symbuf, symlen := 0, status := statusError .malformedCode 0x06 } ∧ Unwritten t.symbuf)

/-- UNPACK of zero symbols completes with SYMLEN = 0 once the lengths and the table pass, whatever BYTELEN and the bytes
are. That this holds even where bytes of BYTEBUF[0..BYTELEN) were never written is the model's choice (log entry 6). -/
def Obligations.UnpackOfZeroSymbols : Prop :=
  ∀ (s : State) (table : List Entry), s.symcount = 0 → s.bytelen.toNat ≤ s.config.byteCap → TableIs s table →
    table.length ≤ s.config.tabCap → tableWF table = true →
    ∃ t, exec .unpack s = .next t ∧ t = { s with symbuf := t.symbuf, symlen := 0, status := 0 } ∧
      SameFrom 0 s.symbuf t.symbuf

/-! ENCODE and CLR (45_orchestration_and_control.md). -/

/-- ENCODE is COUNT, BUILD, DERIVE, PACK one after the other, stopping at the first that ends with an error. -/
def Obligations.EncodeIsTheFourCommands : Prop :=
  ∀ s : State, exec .encode s =
    thenUnlessError (exec .count s) fun s1 => thenUnlessError (exec .build s1) fun s2 =>
      thenUnlessError (exec .derive s2) fun s3 => exec .pack s3

/-- ENCODE of 1 to SYM_CAP written symbols completes without error, whatever they are, as long as there are at most 65536 of
them and BYTEBUF has 4 bytes for each, which in the reference configuration always holds (no code can then be longer than
LEN_MAX): FREQ holds the counts, CODETAB a well-formed table with one entry for each distinct
symbol, BYTEBUF the packed codes of the input in order, the length registers their lengths, NODECNT is 0; CMD, SYMBUF,
SYMLEN and the host's side are as they were. -/
def Obligations.EncodeCompletes : Prop :=
  ∀ (s : State) (xs : List Nat), SymbolsAre s xs → AreSymbols s xs → 1 ≤ xs.length → xs.length ≤ s.config.symCap →
    xs.length ≤ 65536 → 4 * xs.length ≤ s.config.byteCap →
    ∃ (t : State) (table : List Entry) (cs : List Bits), exec .encode s = .next t ∧
      t = { s with freq := t.freq, node := t.node, nodecnt := 0, nleaf := t.nleaf, codetab := t.codetab,
                   tabsize := t.tabsize, bytebuf := t.bytebuf, bytelen := t.bytelen, bitlen := t.bitlen,
                   symcount := s.symlen, status := 0 } ∧
      (∀ x : Nat, freqGet t.freq x = xs.count x) ∧ t.nleaf.toNat = xs.toFinset.card ∧
      TableIs t table ∧ table.length = t.nleaf.toNat ∧ tableWF table = true ∧ Coded table xs cs ∧
      BytesAre t (packBits cs.flatten) ∧ t.bitlen.toNat = cs.flatten.length

/-- ENCODE of nothing and of too much: COUNT's errors, with COUNT's opcode in ERROP, FREQ all 0 and everything else as it
was. -/
def Obligations.EncodeInputErrors : Prop :=
  (∀ s : State, s.symlen = 0 →
    ∃ t, exec .encode s = .next t ∧ t = { s with freq := t.freq, status := statusError .emptyInput 0x02 } ∧
      ∀ k, freqGet t.freq k = 0) ∧
  (∀ s : State, s.config.symCap < s.symlen.toNat →
    ∃ t, exec .encode s = .next t ∧ t = { s with freq := t.freq, status := statusError .capacity 0x02 } ∧
      ∀ k, freqGet t.freq k = 0)

/-- UNPACK directly after a successful ENCODE gives the input back. -/
def Obligations.EncodeThenUnpackIsIdentity : Prop :=
  ∀ (s t : State) (xs : List Nat), SymbolsAre s xs → exec .encode s = .next t → t.status = 0 →
    ∃ u, exec .unpack t = .next u ∧ u.status = 0 ∧ SymbolsAre u xs

/-- UNPACK directly after a successful PACK with any table gives the input back. -/
def Obligations.PackThenUnpackIsIdentity : Prop :=
  ∀ (s t : State) (xs : List Nat), SymbolsAre s xs → exec .pack s = .next t → t.status = 0 →
    ∃ u, exec .unpack t = .next u ∧ u.status = 0 ∧ SymbolsAre u xs

/-- ENCODE of a reordered input gives the same counts, the same table entry for entry, and the same lengths. -/
def Obligations.EncodeTableIgnoresOrder : Prop :=
  ∀ (s s' t t' : State) (xs ys : List Nat), SymbolsAre s xs → SymbolsAre s' ys → xs.Perm ys →
    exec .encode s = .next t → exec .encode s' = .next t' → t.status = 0 → t'.status = 0 →
    (∀ k, freqGet t.freq k = freqGet t'.freq k) ∧ t.nleaf = t'.nleaf ∧ t.tabsize = t'.tabsize ∧
      (∀ k, k < t.tabsize.toNat → Memory.get t.codetab k = Memory.get t'.codetab k) ∧ t.bitlen = t'.bitlen ∧
      t.bytelen = t'.bytelen ∧ t.symcount = t'.symcount

/-- ENCODE of n copies of one symbol, BYTEBUF having room for n bits, gives one entry of length 1 and ceil(n/8) bytes of
0. -/
def Obligations.EncodeOfOneSymbol : Prop :=
  ∀ (s : State) (x : Nat) (n : Nat), SymbolsAre s (List.replicate n x) → 1 ≤ n → n ≤ s.config.symCap →
    n ≤ 8 * s.config.byteCap →
    ∃ t, exec .encode s = .next t ∧ t.status = 0 ∧ t.tabsize = 1 ∧
      Memory.get t.codetab 0 = some { sym := x, len := 1, code := 0 } ∧ t.bitlen.toNat = n ∧
      t.bytelen.toNat = (n + 7) / 8 ∧ ∀ k, k < t.bytelen.toNat → Memory.get t.bytebuf k = some 0

/-- After a successful ENCODE the total bit length is the sum over the table of count times code length. -/
def Obligations.EncodeBitLengthIsWeighted : Prop :=
  ∀ (s t : State) (table : List Entry), exec .encode s = .next t → t.status = 0 → TableIs t table →
    t.bitlen.toNat = (table.map fun e => freqGet t.freq e.sym * e.len).sum

/-- After a successful ENCODE of two or more distinct symbols the total bit length is at most that of a fixed-length
encoding. -/
def Obligations.EncodeBeatsFixedLength : Prop :=
  ∀ s t : State, exec .encode s = .next t → t.status = 0 → 2 ≤ t.nleaf.toNat →
    t.bitlen.toNat ≤ Nat.clog 2 t.nleaf.toNat * s.symlen.toNat

/-- CLR completes from every state: every register but CMD is 0, FREQ is all 0, the other memories are unwritten. -/
def Obligations.ClrScrubsTheBlock : Prop :=
  ∀ s : State, exec .clr s = .next { State.reset with cmd := s.cmd, config := s.config, pending := s.pending,
                                                      readLog := s.readLog, draws := s.draws }

/-! The whole machine. -/

/-- The word an error leaves in STATUS, field by field: BUSY 0, ERR 1, the code and the opcode in their fields, all
reserved bits 0; and 0 stands for no error. -/
def Obligations.StatusWordLayout : Prop :=
  (∀ (e : ErrorKind) (op : Opcode),
    (statusError e op).extractLsb' 0 1 = 0 ∧ (statusError e op).extractLsb' 1 1 = 1 ∧
    (statusError e op).extractLsb' 2 2 = 0 ∧ (statusError e op).extractLsb' 4 4 = errorCode e ∧
    (statusError e op).extractLsb' 8 8 = op ∧ (statusError e op).extractLsb' 16 16 = 0) ∧
  errorCode .emptyInput = 1 ∧ errorCode .unknownSymbol = 2 ∧ errorCode .malformedCode = 3 ∧
  errorCode .capacity = 4 ∧ errorCode .sequence = 5 ∧ errorCode .illegalCommand = 6 ∧ statusOk = 0

/-- No command reads STATUS: whatever it holds, the outcome is the same. -/
def Obligations.CommandsIgnoreStatus : Prop :=
  ∀ (i : Instr) (s : State) (w : Word), exec i { s with status := w } = exec i s

/-- No command reads CMD, BITLEN or NLEAF: with those blanked the outcome is the same but for them. -/
def Obligations.CommandsIgnoreResultRegisters : Prop :=
  ∀ (i : Instr) (s : State), mapNext hideResults (exec i (hideResults s)) = mapNext hideResults (exec i s)

/-- No command writes CMD, and none touches the configuration or the host's side. -/
def Obligations.CommandsKeepCmdAndHostSide : Prop :=
  ∀ (i : Instr) (s t : State), exec i s = .next t →
    t.cmd = s.cmd ∧ t.config = s.config ∧ t.pending = s.pending ∧ t.readLog = s.readLog ∧ t.draws = s.draws

/-- No command is ever refused, and from a state that meets the invariant a command stops only because it read an
unwritten cell of SYMBUF, CODETAB or BYTEBUF; CLR, BUILD and DERIVE then never stop. -/
def Obligations.CommandsStopOnlyOnUnwrittenCells : Prop :=
  (∀ (i : Instr) (s : State) (x : Refusal), exec i s ≠ .refused x) ∧
  (∀ (i : Instr) (s : State) (f : Fault), Inv s → exec i s = .fault f →
    (f = .unwrittenCell .symbuf ∨ f = .unwrittenCell .codetab ∨ f = .unwrittenCell .bytebuf) ∧
      i ≠ .clr ∧ i ≠ .build ∧ i ≠ .derive)

/-- From a state that meets the invariant and whose valid regions are written, every command ends in a next state. -/
def Obligations.CommandsAlwaysAnswer : Prop :=
  ∀ (i : Instr) (s : State), Inv s → RegionsWritten s → ∃ t, exec i s = .next t

/-- After every command STATUS is 0 or the word of one of the errors that command can end with, with the opcode of the
primitive step that raised it. -/
def Obligations.CommandsEndWithTheirErrors : Prop :=
  ∀ (i : Instr) (s t : State), exec i s = .next t →
    t.status = 0 ∨ ∃ e op, (e, op) ∈ errorsOf i ∧ t.status = statusError e op

/-- What each command may write, whether it succeeds or fails, and the cells a success leaves alone. -/
def Obligations.CommandFrames : Prop :=
  ∀ s t : State,
    (exec .clr s = .next t → t = { State.reset with cmd := s.cmd, config := s.config, pending := s.pending,
                                                    readLog := s.readLog, draws := s.draws }) ∧
    (exec .count s = .next t → t = { s with freq := t.freq, status := t.status }) ∧
    (exec .build s = .next t →
      t = { s with node := t.node, nodecnt := t.nodecnt, nleaf := t.nleaf, status := t.status } ∧
      (freqWf s.config s.freq = true → t.status = 0 → SameFrom t.nodecnt.toNat s.node t.node)) ∧
    (exec .derive s = .next t →
      t = { s with codetab := t.codetab, tabsize := t.tabsize, nodecnt := 0, status := t.status } ∧
      (Inv s → t.status = 0 → SameFrom t.tabsize.toNat s.codetab t.codetab)) ∧
    (exec .pack s = .next t →
      t = { s with bytebuf := t.bytebuf, bytelen := t.bytelen, bitlen := t.bitlen, symcount := t.symcount,
                   status := t.status } ∧
      (t.status = 0 → SameFrom t.bytelen.toNat s.bytebuf t.bytebuf)) ∧
    (exec .unpack s = .next t →
      t = { s with symbuf := t.symbuf, symlen := t.symlen, status := t.status } ∧
      (t.status = 0 → SameFrom t.symlen.toNat s.symbuf t.symbuf)) ∧
    (exec .encode s = .next t →
      t = { s with freq := t.freq, node := t.node, nodecnt := t.nodecnt, nleaf := t.nleaf, codetab := t.codetab,
                   tabsize := t.tabsize, bytebuf := t.bytebuf, bytelen := t.bytelen, bitlen := t.bitlen,
                   symcount := t.symcount, status := t.status } ∧
      (t.status = 0 → SameFrom (2 * t.nleaf.toNat - 1) s.node t.node ∧ SameFrom t.tabsize.toNat s.codetab t.codetab ∧
        SameFrom t.bytelen.toNat s.bytebuf t.bytebuf))

/-- Deserialising the reference serialisation of a payload whose entries CODETAB can hold gives the payload back; and a
payload of at most TAB_CAP well-formed entries that CODETAB can hold has a serialisation, of 8 + |table| (SB + 5) bytes
and the packed bytes. -/
def Obligations.SerialisationRoundTrip : Prop :=
  (∀ (c : Params) (p : Payload) (ys : List Byte), (∀ e ∈ p.table, e.fits c = true) → serialise c p = some ys →
    deserialise c ys = some p) ∧
  ∀ (c : Params) (p : Payload), (∀ e ∈ p.table, e.fits c = true) → tableWF p.table = true → p.table.length ≤ c.tabCap →
    ∃ ys, serialise c p = some ys ∧
      ys.length = 8 + p.table.length * ((c.symW + 7) / 8 + 5) + p.packedBytes.length
end

