-- ==== Sys2Proof/Laws/Bits.lean ====
section
/-! SUPPORT. Bit-strings and their values (00_scope.md R9): lengths, bounds, and that `bits` and `val` are inverse. -/

namespace Sys2Proof.Machine

@[simp] theorem length_bitsOf (n v : Nat) : (bitsOf n v).length = n := by
  induction n with
  | zero => rfl
  | succ n ih => simp [bitsOf, ih]

/-- Bit `j` of `bits(n, v)` is bit `n - 1 - j` of `v`: the first bit is the most significant. -/
theorem getElem?_bitsOf (n v j : Nat) : (bitsOf n v)[j]? = if j < n then some (v.testBit (n - 1 - j)) else none := by
  induction n generalizing j with
  | zero => simp [bitsOf]
  | succ n ih =>
    cases j with
    | zero => simp [bitsOf]
    | succ j =>
      simp only [bitsOf, List.getElem?_cons_succ, ih]
      have h : n + 1 - 1 - (j + 1) = n - 1 - j := by omega
      rw [h]; split_ifs <;> first | rfl | omega

theorem foldl_bitsVal (b : Bits) (a : Nat) :
    b.foldl (fun acc x => 2 * acc + x.toNat) a = a * 2 ^ b.length + bitsVal b := by
  unfold bitsVal
  induction b generalizing a with
  | nil => simp
  | cons x b ih =>
    simp only [List.foldl_cons, List.length_cons]
    rw [ih (2 * a + x.toNat), ih (2 * 0 + x.toNat), pow_succ]; ring

@[simp] theorem bitsVal_nil : bitsVal [] = 0 := rfl

/-- The first bit weighs 2^(n-1) (00_scope.md R9). -/
theorem bitsVal_cons (x : Bool) (b : Bits) : bitsVal (x :: b) = x.toNat * 2 ^ b.length + bitsVal b := by
  have := foldl_bitsVal b (2 * 0 + x.toNat)
  simpa [bitsVal] using this

/-- The value of a concatenation. -/
theorem bitsVal_append (b c : Bits) : bitsVal (b ++ c) = bitsVal b * 2 ^ c.length + bitsVal c := by
  have := foldl_bitsVal c (bitsVal b)
  simpa [bitsVal, List.foldl_append] using this

theorem bitsVal_lt (b : Bits) : bitsVal b < 2 ^ b.length := by
  induction b with
  | nil => simp
  | cons x b ih =>
    rw [bitsVal_cons, List.length_cons, pow_succ]
    cases x <;> simp <;> omega

/-- `bits(|b|, val(b)) = b`. -/
theorem bitsOf_bitsVal (b : Bits) : bitsOf b.length (bitsVal b) = b := by
  have key : ∀ (c : Bits) (a : Nat), bitsOf c.length (a * 2 ^ c.length + bitsVal c) = c := by
    intro c
    induction c with
    | nil => intro a; rfl
    | cons x c ih =>
      intro a
      have hl := bitsVal_lt c
      simp only [List.length_cons, bitsOf, bitsVal_cons]
      have e1 : a * 2 ^ (c.length + 1) + (x.toNat * 2 ^ c.length + bitsVal c)
          = (2 * a + x.toNat) * 2 ^ c.length + bitsVal c := by rw [pow_succ]; ring
      rw [e1, ih (2 * a + x.toNat)]
      congr 1
      rw [Nat.testBit_eq_decide_div_mod_eq]
      have e2 : ((2 * a + x.toNat) * 2 ^ c.length + bitsVal c) / 2 ^ c.length = 2 * a + x.toNat := by
        rw [Nat.add_comm, Nat.add_mul_div_right _ _ (Nat.two_pow_pos _), Nat.div_eq_of_lt hl, Nat.zero_add]
      rw [e2]; cases x <;> simp
  simpa using key b 0

/-- The entry of a code of at most `LEN_MAX` bits has that code (10_state.md R43). -/
theorem entryBits_entryOf (x : Nat) (b : Bits) (h : b.length ≤ 32) : entryBits (entryOf (x, b)) = b := by
  have h2 : bitsVal b % 2 ^ 32 = bitsVal b :=
    Nat.mod_eq_of_lt (Nat.lt_of_lt_of_le (bitsVal_lt b) (Nat.pow_le_pow_right (by omega) h))
  simp only [entryBits, entryOf, BitVec.toNat_ofNat, h2, bitsOf_bitsVal]

end Sys2Proof.Machine
end

