-- ==== Sys2Proof/Laws/Memory.lean ====
section
/-! SUPPORT. The laws of the cells of a space: what a read after a write gives, and that every operation keeps the
canonical form. -/

namespace Sys2Proof.Machine

variable {α : Type}

@[simp] theorem Memory.get_nil (i : Nat) : Memory.get ([] : Cells α) i = none := rfl

/-- A read after a write: the written cell holds the value, every other cell what it held. -/
theorem Memory.get_set (m : Cells α) (i j : Nat) (v : α) :
    Memory.get (Memory.set m i v) j = if i = j then some v else Memory.get m j := by
  induction m with
  | nil => simp [Memory.set, Memory.get]
  | cons c r ih =>
    obtain ⟨a, x⟩ := c
    simp only [Memory.set]
    split
    · simp [Memory.get]
    · split
      · next h => subst h; simp only [Memory.get]; split <;> rfl
      · next h1 h2 =>
        simp only [Memory.get, ih]
        split_ifs <;> first | rfl | omega

@[simp] theorem Memory.get_set_same (m : Cells α) (i : Nat) (v : α) : Memory.get (Memory.set m i v) i = some v := by
  simp [Memory.get_set]

theorem Memory.get_set_other (m : Cells α) {i j : Nat} (v : α) (h : i ≠ j) :
    Memory.get (Memory.set m i v) j = Memory.get m j := by
  simp [Memory.get_set, h]

/-- A cleared cell is not listed; every other cell is as it was. -/
theorem Memory.get_clear (m : Cells α) (i j : Nat) :
    Memory.get (Memory.clear m i) j = if i = j then none else Memory.get m j := by
  induction m with
  | nil => simp [Memory.clear]
  | cons c r ih =>
    obtain ⟨a, x⟩ := c
    simp only [Memory.clear] at ih
    simp only [Memory.clear, List.filter_cons]
    by_cases h : a = i
    · subst h
      simp only [bne_self_eq_false, Bool.false_eq_true, if_false, ih, Memory.get]
      split_ifs <;> rfl
    · simp only [bne_iff_ne, ne_eq, h, not_false_eq_true, if_true, Memory.get, ih]
      split_ifs <;> first | rfl | omega

/-- A read after a range is written: the range holds the values in order, every other cell what it held. -/
theorem Memory.get_setRange (vs : List α) : ∀ (m : Cells α) (i j : Nat),
    Memory.get (Memory.setRange m i vs) j =
      if i ≤ j ∧ j < i + vs.length then vs[j - i]? else Memory.get m j := by
  induction vs with
  | nil =>
    intro m i j
    have h : ¬ (i ≤ j ∧ j < i + ([] : List α).length) := by simp
    rw [if_neg h]; rfl
  | cons v vs ih =>
    intro m i j
    simp only [Memory.setRange, ih, Memory.get_set, List.length_cons]
    by_cases h : i = j
    · subst h; simp
    · by_cases h2 : i + 1 ≤ j ∧ j < i + 1 + vs.length
      · have h3 : i ≤ j ∧ j < i + (vs.length + 1) := by omega
        obtain ⟨k, hk⟩ : ∃ k, j - i = k + 1 := ⟨j - i - 1, by omega⟩
        rw [if_pos h2, if_pos h3, hk, List.getElem?_cons_succ]
        congr 1; omega
      · have h3 : ¬ (i ≤ j ∧ j < i + (vs.length + 1)) := by omega
        rw [if_neg h2, if_neg h3, if_neg h]

/-- Writing a range from index 0 on makes the first cells hold it. -/
theorem Memory.get_setRange_zero (m : Cells α) (vs : List α) {k : Nat} (h : k < vs.length) :
    Memory.get (Memory.setRange m 0 vs) k = vs[k]? := by
  rw [Memory.get_setRange, if_pos ⟨Nat.zero_le _, by omega⟩, Nat.sub_zero]

/-- Writing a range from index 0 on leaves the cells behind it alone. -/
theorem Memory.get_setRange_beyond (m : Cells α) (vs : List α) {k : Nat} (h : vs.length ≤ k) :
    Memory.get (Memory.setRange m 0 vs) k = Memory.get m k := by
  rw [Memory.get_setRange, if_neg (by omega)]

/-! The canonical form. -/

theorem Memory.mem_set {m : Cells α} {i : Nat} {v : α} {c : Nat × α} (h : c ∈ Memory.set m i v) :
    c = (i, v) ∨ c ∈ m := by
  induction m with
  | nil => simpa [Memory.set] using h
  | cons d r ih =>
    obtain ⟨a, x⟩ := d
    simp only [Memory.set] at h
    split at h
    · simpa using h
    · split at h
      · rcases List.mem_cons.1 h with h | h
        · exact .inl h
        · exact .inr (List.mem_cons_of_mem _ h)
      · rcases List.mem_cons.1 h with h | h
        · exact .inr (h ▸ List.mem_cons_self)
        · exact (ih h).imp id (List.mem_cons_of_mem _)

theorem Memory.mem_setRange (vs : List α) : ∀ {m : Cells α} {i : Nat} {c : Nat × α},
    c ∈ Memory.setRange m i vs → c.2 ∈ vs ∨ c ∈ m := by
  induction vs with
  | nil => intro m i c h; exact .inr h
  | cons v vs ih =>
    intro m i c h
    rcases ih h with h | h
    · exact .inl (List.mem_cons_of_mem _ h)
    · rcases Memory.mem_set h with rfl | h
      · exact .inl List.mem_cons_self
      · exact .inr h

/-- A cell that holds a value is listed. -/
theorem Memory.mem_of_get {m : Cells α} {i : Nat} {v : α} (h : Memory.get m i = some v) : (i, v) ∈ m := by
  induction m with
  | nil => cases h
  | cons d r ih =>
    obtain ⟨a, x⟩ := d
    simp only [Memory.get] at h
    split_ifs at h with ha
    · cases ha; cases h; exact List.mem_cons_self
    · exact List.mem_cons_of_mem _ (ih h)

theorem Memory.rising_cons {a : Nat} {x : α} {r : Cells α} :
    Memory.rising ((a, x) :: r) = true ↔ (∀ c ∈ r, a < c.1) ∧ Memory.rising r = true := by
  simp [Memory.rising]

/-- Writing a cell keeps the indexes rising. -/
theorem Memory.rising_set {m : Cells α} (i : Nat) (v : α) (h : Memory.rising m = true) :
    Memory.rising (Memory.set m i v) = true := by
  induction m with
  | nil => simp [Memory.set, Memory.rising]
  | cons d r ih =>
    obtain ⟨a, x⟩ := d
    obtain ⟨h1, h2⟩ := Memory.rising_cons.1 h
    simp only [Memory.set]
    split
    · next hi =>
      refine Memory.rising_cons.2 ⟨fun c hc => ?_, h⟩
      rcases List.mem_cons.1 hc with rfl | hc
      · exact hi
      · exact Nat.lt_trans hi (h1 c hc)
    · split
      · next hi => subst hi; exact Memory.rising_cons.2 ⟨h1, h2⟩
      · refine Memory.rising_cons.2 ⟨fun c hc => ?_, ih h2⟩
        rcases Memory.mem_set hc with rfl | hc
        · show a < i; omega
        · exact h1 c hc

/-- Clearing a cell keeps the indexes rising. -/
theorem Memory.rising_clear {m : Cells α} (i : Nat) (h : Memory.rising m = true) :
    Memory.rising (Memory.clear m i) = true := by
  induction m with
  | nil => rfl
  | cons d r ih =>
    obtain ⟨a, x⟩ := d
    obtain ⟨h1, h2⟩ := Memory.rising_cons.1 h
    simp only [Memory.clear, List.filter_cons] at ih ⊢
    split
    · exact Memory.rising_cons.2 ⟨fun c hc => h1 c (List.mem_of_mem_filter hc), ih h2⟩
    · exact ih h2

theorem Memory.wf_iff {n : Nat} {m : Cells α} :
    Memory.wf n m = true ↔ Memory.rising m = true ∧ ∀ c ∈ m, c.1 < n := by
  simp [Memory.wf]

@[simp] theorem Memory.wf_nil (n : Nat) : Memory.wf n ([] : Cells α) = true := rfl

/-- Writing a cell of the space keeps the canonical form. -/
theorem Memory.wf_set {n : Nat} {m : Cells α} {i : Nat} (v : α) (hi : i < n) (h : Memory.wf n m = true) :
    Memory.wf n (Memory.set m i v) = true := by
  obtain ⟨h1, h2⟩ := Memory.wf_iff.1 h
  refine Memory.wf_iff.2 ⟨Memory.rising_set i v h1, fun c hc => ?_⟩
  rcases Memory.mem_set hc with rfl | hc
  · exact hi
  · exact h2 c hc

/-- Clearing a cell keeps the canonical form. -/
theorem Memory.wf_clear {n : Nat} {m : Cells α} (i : Nat) (h : Memory.wf n m = true) :
    Memory.wf n (Memory.clear m i) = true := by
  obtain ⟨h1, h2⟩ := Memory.wf_iff.1 h
  exact Memory.wf_iff.2 ⟨Memory.rising_clear i h1, fun c hc => h2 c (List.mem_of_mem_filter hc)⟩

/-- Writing a range of the space keeps the canonical form. -/
theorem Memory.wf_setRange {n : Nat} (vs : List α) : ∀ {m : Cells α} {i : Nat}, i + vs.length ≤ n →
    Memory.wf n m = true → Memory.wf n (Memory.setRange m i vs) = true := by
  induction vs with
  | nil => intro m i _ h; exact h
  | cons v vs ih =>
    intro m i hi h
    simp only [List.length_cons] at hi
    exact ih (by omega) (Memory.wf_set v (by omega) h)

/-- In a canonical space a cell is listed exactly where it holds a value. -/
theorem Memory.get_of_mem {m : Cells α} (h : Memory.rising m = true) {i : Nat} {v : α} :
    (i, v) ∈ m ↔ Memory.get m i = some v := by
  induction m with
  | nil => simp
  | cons d r ih =>
    obtain ⟨a, x⟩ := d
    obtain ⟨h1, h2⟩ := Memory.rising_cons.1 h
    simp only [Memory.get, List.mem_cons, Prod.mk.injEq]
    by_cases ha : a = i
    · subst ha
      simp only [true_and, if_true, Option.some.injEq]
      constructor
      · rintro (h | h)
        · exact h.symm
        · exact absurd (h1 _ h) (Nat.lt_irrefl _)
      · intro h; exact .inl h.symm
    · rw [if_neg ha, ← ih h2]
      constructor
      · rintro (⟨h, _⟩ | h)
        · exact absurd h.symm ha
        · exact h
      · exact .inr

/-! FREQ. -/

/-- A read of FREQ after a write. -/
theorem freqGet_freqSet (m : Cells Nat) (i j : Nat) (c : Nat) :
    freqGet (freqSet m i c) j = if i = j then c else freqGet m j := by
  simp only [freqSet, freqGet]
  by_cases hc : c = 0
  · simp only [hc, if_true, Memory.get_clear]; split_ifs <;> rfl
  · simp only [hc, if_false, Memory.get_set]; split_ifs <;> rfl

@[simp] theorem freqGet_nil (i : Nat) : freqGet [] i = 0 := rfl

theorem freqWf_iff {p : Params} {m : Cells Nat} :
    freqWf p m = true ↔ Memory.wf p.nMax m = true ∧ ∀ c ∈ m, c.2 ≠ 0 := by
  simp only [freqWf, Bool.and_eq_true, List.all_eq_true, bne_iff_ne]

/-- Writing a cell of FREQ keeps its canonical form. -/
theorem freqWf_freqSet {p : Params} {m : Cells Nat} {i : Nat} (c : Nat) (hi : i < p.nMax) (h : freqWf p m = true) :
    freqWf p (freqSet m i c) = true := by
  obtain ⟨h1, h2⟩ := freqWf_iff.1 h
  simp only [freqSet]
  by_cases hc : c = 0
  · rw [if_pos hc]
    exact freqWf_iff.2 ⟨Memory.wf_clear i h1, fun d hd => h2 d (List.mem_of_mem_filter hd)⟩
  · rw [if_neg hc]
    refine freqWf_iff.2 ⟨Memory.wf_set c hi h1, fun d hd => ?_⟩
    rcases Memory.mem_set hd with rfl | hd
    · exact hc
    · exact h2 d hd

@[simp] theorem freqWf_nil (p : Params) : freqWf p [] = true := rfl

/-- The memories of the reset state are in canonical form. -/
theorem memoriesWf_reset : memoriesWf State.reset = true := rfl

end Sys2Proof.Machine
end

