-- ==== Sys2Proof/Laws/State.lean ====
section
/-! SUPPORT. Each field of the state after each named update: true by unfolding, so that no later proof unfolds one. -/

namespace Sys2Proof.Machine

@[simp] theorem setCmd_cmd (w : Word) (s : State) : (setCmd w s).cmd = w := rfl
@[simp] theorem setCmd_status (w : Word) (s : State) : (setCmd w s).status = s.status := rfl
@[simp] theorem setCmd_symlen (w : Word) (s : State) : (setCmd w s).symlen = s.symlen := rfl
@[simp] theorem setCmd_symcount (w : Word) (s : State) : (setCmd w s).symcount = s.symcount := rfl
@[simp] theorem setCmd_tabsize (w : Word) (s : State) : (setCmd w s).tabsize = s.tabsize := rfl
@[simp] theorem setCmd_bitlen (w : Word) (s : State) : (setCmd w s).bitlen = s.bitlen := rfl
@[simp] theorem setCmd_bytelen (w : Word) (s : State) : (setCmd w s).bytelen = s.bytelen := rfl
@[simp] theorem setCmd_nodecnt (w : Word) (s : State) : (setCmd w s).nodecnt = s.nodecnt := rfl
@[simp] theorem setCmd_nleaf (w : Word) (s : State) : (setCmd w s).nleaf = s.nleaf := rfl
@[simp] theorem setCmd_symbuf (w : Word) (s : State) : (setCmd w s).symbuf = s.symbuf := rfl
@[simp] theorem setCmd_freq (w : Word) (s : State) : (setCmd w s).freq = s.freq := rfl
@[simp] theorem setCmd_node (w : Word) (s : State) : (setCmd w s).node = s.node := rfl
@[simp] theorem setCmd_codetab (w : Word) (s : State) : (setCmd w s).codetab = s.codetab := rfl
@[simp] theorem setCmd_bytebuf (w : Word) (s : State) : (setCmd w s).bytebuf = s.bytebuf := rfl
@[simp] theorem setCmd_pending (w : Word) (s : State) : (setCmd w s).pending = s.pending := rfl
@[simp] theorem setCmd_readLog (w : Word) (s : State) : (setCmd w s).readLog = s.readLog := rfl
@[simp] theorem setCmd_draws (w : Word) (s : State) : (setCmd w s).draws = s.draws := rfl
@[simp] theorem setCmd_config (w : Word) (s : State) : (setCmd w s).config = s.config := rfl

@[simp] theorem setStatus_cmd (w : Word) (s : State) : (setStatus w s).cmd = s.cmd := rfl
@[simp] theorem setStatus_status (w : Word) (s : State) : (setStatus w s).status = w := rfl
@[simp] theorem setStatus_symlen (w : Word) (s : State) : (setStatus w s).symlen = s.symlen := rfl
@[simp] theorem setStatus_symcount (w : Word) (s : State) : (setStatus w s).symcount = s.symcount := rfl
@[simp] theorem setStatus_tabsize (w : Word) (s : State) : (setStatus w s).tabsize = s.tabsize := rfl
@[simp] theorem setStatus_bitlen (w : Word) (s : State) : (setStatus w s).bitlen = s.bitlen := rfl
@[simp] theorem setStatus_bytelen (w : Word) (s : State) : (setStatus w s).bytelen = s.bytelen := rfl
@[simp] theorem setStatus_nodecnt (w : Word) (s : State) : (setStatus w s).nodecnt = s.nodecnt := rfl
@[simp] theorem setStatus_nleaf (w : Word) (s : State) : (setStatus w s).nleaf = s.nleaf := rfl
@[simp] theorem setStatus_symbuf (w : Word) (s : State) : (setStatus w s).symbuf = s.symbuf := rfl
@[simp] theorem setStatus_freq (w : Word) (s : State) : (setStatus w s).freq = s.freq := rfl
@[simp] theorem setStatus_node (w : Word) (s : State) : (setStatus w s).node = s.node := rfl
@[simp] theorem setStatus_codetab (w : Word) (s : State) : (setStatus w s).codetab = s.codetab := rfl
@[simp] theorem setStatus_bytebuf (w : Word) (s : State) : (setStatus w s).bytebuf = s.bytebuf := rfl
@[simp] theorem setStatus_pending (w : Word) (s : State) : (setStatus w s).pending = s.pending := rfl
@[simp] theorem setStatus_readLog (w : Word) (s : State) : (setStatus w s).readLog = s.readLog := rfl
@[simp] theorem setStatus_draws (w : Word) (s : State) : (setStatus w s).draws = s.draws := rfl
@[simp] theorem setStatus_config (w : Word) (s : State) : (setStatus w s).config = s.config := rfl

@[simp] theorem setFreq_cmd (f : Cells Nat) (s : State) : (setFreq f s).cmd = s.cmd := rfl
@[simp] theorem setFreq_status (f : Cells Nat) (s : State) : (setFreq f s).status = s.status := rfl
@[simp] theorem setFreq_symlen (f : Cells Nat) (s : State) : (setFreq f s).symlen = s.symlen := rfl
@[simp] theorem setFreq_symcount (f : Cells Nat) (s : State) : (setFreq f s).symcount = s.symcount := rfl
@[simp] theorem setFreq_tabsize (f : Cells Nat) (s : State) : (setFreq f s).tabsize = s.tabsize := rfl
@[simp] theorem setFreq_bitlen (f : Cells Nat) (s : State) : (setFreq f s).bitlen = s.bitlen := rfl
@[simp] theorem setFreq_bytelen (f : Cells Nat) (s : State) : (setFreq f s).bytelen = s.bytelen := rfl
@[simp] theorem setFreq_nodecnt (f : Cells Nat) (s : State) : (setFreq f s).nodecnt = s.nodecnt := rfl
@[simp] theorem setFreq_nleaf (f : Cells Nat) (s : State) : (setFreq f s).nleaf = s.nleaf := rfl
@[simp] theorem setFreq_symbuf (f : Cells Nat) (s : State) : (setFreq f s).symbuf = s.symbuf := rfl
@[simp] theorem setFreq_freq (f : Cells Nat) (s : State) : (setFreq f s).freq = f := rfl
@[simp] theorem setFreq_node (f : Cells Nat) (s : State) : (setFreq f s).node = s.node := rfl
@[simp] theorem setFreq_codetab (f : Cells Nat) (s : State) : (setFreq f s).codetab = s.codetab := rfl
@[simp] theorem setFreq_bytebuf (f : Cells Nat) (s : State) : (setFreq f s).bytebuf = s.bytebuf := rfl
@[simp] theorem setFreq_pending (f : Cells Nat) (s : State) : (setFreq f s).pending = s.pending := rfl
@[simp] theorem setFreq_readLog (f : Cells Nat) (s : State) : (setFreq f s).readLog = s.readLog := rfl
@[simp] theorem setFreq_draws (f : Cells Nat) (s : State) : (setFreq f s).draws = s.draws := rfl
@[simp] theorem setFreq_config (f : Cells Nat) (s : State) : (setFreq f s).config = s.config := rfl

@[simp] theorem setTree_cmd (m : Cells NodeRec) (c l : Word) (s : State) : (setTree m c l s).cmd = s.cmd := rfl
@[simp] theorem setTree_status (m : Cells NodeRec) (c l : Word) (s : State) : (setTree m c l s).status = s.status := rfl
@[simp] theorem setTree_symlen (m : Cells NodeRec) (c l : Word) (s : State) : (setTree m c l s).symlen = s.symlen := rfl
@[simp] theorem setTree_symcount (m : Cells NodeRec) (c l : Word) (s : State) : (setTree m c l s).symcount = s.symcount := rfl
@[simp] theorem setTree_tabsize (m : Cells NodeRec) (c l : Word) (s : State) : (setTree m c l s).tabsize = s.tabsize := rfl
@[simp] theorem setTree_bitlen (m : Cells NodeRec) (c l : Word) (s : State) : (setTree m c l s).bitlen = s.bitlen := rfl
@[simp] theorem setTree_bytelen (m : Cells NodeRec) (c l : Word) (s : State) : (setTree m c l s).bytelen = s.bytelen := rfl
@[simp] theorem setTree_nodecnt (m : Cells NodeRec) (c l : Word) (s : State) : (setTree m c l s).nodecnt = c := rfl
@[simp] theorem setTree_nleaf (m : Cells NodeRec) (c l : Word) (s : State) : (setTree m c l s).nleaf = l := rfl
@[simp] theorem setTree_symbuf (m : Cells NodeRec) (c l : Word) (s : State) : (setTree m c l s).symbuf = s.symbuf := rfl
@[simp] theorem setTree_freq (m : Cells NodeRec) (c l : Word) (s : State) : (setTree m c l s).freq = s.freq := rfl
@[simp] theorem setTree_node (m : Cells NodeRec) (c l : Word) (s : State) : (setTree m c l s).node = m := rfl
@[simp] theorem setTree_codetab (m : Cells NodeRec) (c l : Word) (s : State) : (setTree m c l s).codetab = s.codetab := rfl
@[simp] theorem setTree_bytebuf (m : Cells NodeRec) (c l : Word) (s : State) : (setTree m c l s).bytebuf = s.bytebuf := rfl
@[simp] theorem setTree_pending (m : Cells NodeRec) (c l : Word) (s : State) : (setTree m c l s).pending = s.pending := rfl
@[simp] theorem setTree_readLog (m : Cells NodeRec) (c l : Word) (s : State) : (setTree m c l s).readLog = s.readLog := rfl
@[simp] theorem setTree_draws (m : Cells NodeRec) (c l : Word) (s : State) : (setTree m c l s).draws = s.draws := rfl
@[simp] theorem setTree_config (m : Cells NodeRec) (c l : Word) (s : State) : (setTree m c l s).config = s.config := rfl

@[simp] theorem setTable_cmd (m : Cells Entry) (z : Word) (s : State) : (setTable m z s).cmd = s.cmd := rfl
@[simp] theorem setTable_status (m : Cells Entry) (z : Word) (s : State) : (setTable m z s).status = s.status := rfl
@[simp] theorem setTable_symlen (m : Cells Entry) (z : Word) (s : State) : (setTable m z s).symlen = s.symlen := rfl
@[simp] theorem setTable_symcount (m : Cells Entry) (z : Word) (s : State) : (setTable m z s).symcount = s.symcount := rfl
@[simp] theorem setTable_tabsize (m : Cells Entry) (z : Word) (s : State) : (setTable m z s).tabsize = z := rfl
@[simp] theorem setTable_bitlen (m : Cells Entry) (z : Word) (s : State) : (setTable m z s).bitlen = s.bitlen := rfl
@[simp] theorem setTable_bytelen (m : Cells Entry) (z : Word) (s : State) : (setTable m z s).bytelen = s.bytelen := rfl
@[simp] theorem setTable_nodecnt (m : Cells Entry) (z : Word) (s : State) : (setTable m z s).nodecnt = 0 := rfl
@[simp] theorem setTable_nleaf (m : Cells Entry) (z : Word) (s : State) : (setTable m z s).nleaf = s.nleaf := rfl
@[simp] theorem setTable_symbuf (m : Cells Entry) (z : Word) (s : State) : (setTable m z s).symbuf = s.symbuf := rfl
@[simp] theorem setTable_freq (m : Cells Entry) (z : Word) (s : State) : (setTable m z s).freq = s.freq := rfl
@[simp] theorem setTable_node (m : Cells Entry) (z : Word) (s : State) : (setTable m z s).node = s.node := rfl
@[simp] theorem setTable_codetab (m : Cells Entry) (z : Word) (s : State) : (setTable m z s).codetab = m := rfl
@[simp] theorem setTable_bytebuf (m : Cells Entry) (z : Word) (s : State) : (setTable m z s).bytebuf = s.bytebuf := rfl
@[simp] theorem setTable_pending (m : Cells Entry) (z : Word) (s : State) : (setTable m z s).pending = s.pending := rfl
@[simp] theorem setTable_readLog (m : Cells Entry) (z : Word) (s : State) : (setTable m z s).readLog = s.readLog := rfl
@[simp] theorem setTable_draws (m : Cells Entry) (z : Word) (s : State) : (setTable m z s).draws = s.draws := rfl
@[simp] theorem setTable_config (m : Cells Entry) (z : Word) (s : State) : (setTable m z s).config = s.config := rfl

@[simp] theorem setPacking_cmd (m : Cells Byte) (y b n : Word) (s : State) : (setPacking m y b n s).cmd = s.cmd := rfl
@[simp] theorem setPacking_status (m : Cells Byte) (y b n : Word) (s : State) : (setPacking m y b n s).status = s.status := rfl
@[simp] theorem setPacking_symlen (m : Cells Byte) (y b n : Word) (s : State) : (setPacking m y b n s).symlen = s.symlen := rfl
@[simp] theorem setPacking_symcount (m : Cells Byte) (y b n : Word) (s : State) : (setPacking m y b n s).symcount = n := rfl
@[simp] theorem setPacking_tabsize (m : Cells Byte) (y b n : Word) (s : State) : (setPacking m y b n s).tabsize = s.tabsize := rfl
@[simp] theorem setPacking_bitlen (m : Cells Byte) (y b n : Word) (s : State) : (setPacking m y b n s).bitlen = b := rfl
@[simp] theorem setPacking_bytelen (m : Cells Byte) (y b n : Word) (s : State) : (setPacking m y b n s).bytelen = y := rfl
@[simp] theorem setPacking_nodecnt (m : Cells Byte) (y b n : Word) (s : State) : (setPacking m y b n s).nodecnt = s.nodecnt := rfl
@[simp] theorem setPacking_nleaf (m : Cells Byte) (y b n : Word) (s : State) : (setPacking m y b n s).nleaf = s.nleaf := rfl
@[simp] theorem setPacking_symbuf (m : Cells Byte) (y b n : Word) (s : State) : (setPacking m y b n s).symbuf = s.symbuf := rfl
@[simp] theorem setPacking_freq (m : Cells Byte) (y b n : Word) (s : State) : (setPacking m y b n s).freq = s.freq := rfl
@[simp] theorem setPacking_node (m : Cells Byte) (y b n : Word) (s : State) : (setPacking m y b n s).node = s.node := rfl
@[simp] theorem setPacking_codetab (m : Cells Byte) (y b n : Word) (s : State) : (setPacking m y b n s).codetab = s.codetab := rfl
@[simp] theorem setPacking_bytebuf (m : Cells Byte) (y b n : Word) (s : State) : (setPacking m y b n s).bytebuf = m := rfl
@[simp] theorem setPacking_pending (m : Cells Byte) (y b n : Word) (s : State) : (setPacking m y b n s).pending = s.pending := rfl
@[simp] theorem setPacking_readLog (m : Cells Byte) (y b n : Word) (s : State) : (setPacking m y b n s).readLog = s.readLog := rfl
@[simp] theorem setPacking_draws (m : Cells Byte) (y b n : Word) (s : State) : (setPacking m y b n s).draws = s.draws := rfl
@[simp] theorem setPacking_config (m : Cells Byte) (y b n : Word) (s : State) : (setPacking m y b n s).config = s.config := rfl

@[simp] theorem setDecoded_cmd (m : Cells Nat) (l : Word) (s : State) : (setDecoded m l s).cmd = s.cmd := rfl
@[simp] theorem setDecoded_status (m : Cells Nat) (l : Word) (s : State) : (setDecoded m l s).status = s.status := rfl
@[simp] theorem setDecoded_symlen (m : Cells Nat) (l : Word) (s : State) : (setDecoded m l s).symlen = l := rfl
@[simp] theorem setDecoded_symcount (m : Cells Nat) (l : Word) (s : State) : (setDecoded m l s).symcount = s.symcount := rfl
@[simp] theorem setDecoded_tabsize (m : Cells Nat) (l : Word) (s : State) : (setDecoded m l s).tabsize = s.tabsize := rfl
@[simp] theorem setDecoded_bitlen (m : Cells Nat) (l : Word) (s : State) : (setDecoded m l s).bitlen = s.bitlen := rfl
@[simp] theorem setDecoded_bytelen (m : Cells Nat) (l : Word) (s : State) : (setDecoded m l s).bytelen = s.bytelen := rfl
@[simp] theorem setDecoded_nodecnt (m : Cells Nat) (l : Word) (s : State) : (setDecoded m l s).nodecnt = s.nodecnt := rfl
@[simp] theorem setDecoded_nleaf (m : Cells Nat) (l : Word) (s : State) : (setDecoded m l s).nleaf = s.nleaf := rfl
@[simp] theorem setDecoded_symbuf (m : Cells Nat) (l : Word) (s : State) : (setDecoded m l s).symbuf = m := rfl
@[simp] theorem setDecoded_freq (m : Cells Nat) (l : Word) (s : State) : (setDecoded m l s).freq = s.freq := rfl
@[simp] theorem setDecoded_node (m : Cells Nat) (l : Word) (s : State) : (setDecoded m l s).node = s.node := rfl
@[simp] theorem setDecoded_codetab (m : Cells Nat) (l : Word) (s : State) : (setDecoded m l s).codetab = s.codetab := rfl
@[simp] theorem setDecoded_bytebuf (m : Cells Nat) (l : Word) (s : State) : (setDecoded m l s).bytebuf = s.bytebuf := rfl
@[simp] theorem setDecoded_pending (m : Cells Nat) (l : Word) (s : State) : (setDecoded m l s).pending = s.pending := rfl
@[simp] theorem setDecoded_readLog (m : Cells Nat) (l : Word) (s : State) : (setDecoded m l s).readLog = s.readLog := rfl
@[simp] theorem setDecoded_draws (m : Cells Nat) (l : Word) (s : State) : (setDecoded m l s).draws = s.draws := rfl
@[simp] theorem setDecoded_config (m : Cells Nat) (l : Word) (s : State) : (setDecoded m l s).config = s.config := rfl

@[simp] theorem scrub_cmd (s : State) : (scrub s).cmd = s.cmd := rfl
@[simp] theorem scrub_status (s : State) : (scrub s).status = s.status := rfl
@[simp] theorem scrub_symlen (s : State) : (scrub s).symlen = 0 := rfl
@[simp] theorem scrub_symcount (s : State) : (scrub s).symcount = 0 := rfl
@[simp] theorem scrub_tabsize (s : State) : (scrub s).tabsize = 0 := rfl
@[simp] theorem scrub_bitlen (s : State) : (scrub s).bitlen = 0 := rfl
@[simp] theorem scrub_bytelen (s : State) : (scrub s).bytelen = 0 := rfl
@[simp] theorem scrub_nodecnt (s : State) : (scrub s).nodecnt = 0 := rfl
@[simp] theorem scrub_nleaf (s : State) : (scrub s).nleaf = 0 := rfl
@[simp] theorem scrub_symbuf (s : State) : (scrub s).symbuf = [] := rfl
@[simp] theorem scrub_freq (s : State) : (scrub s).freq = [] := rfl
@[simp] theorem scrub_node (s : State) : (scrub s).node = [] := rfl
@[simp] theorem scrub_codetab (s : State) : (scrub s).codetab = [] := rfl
@[simp] theorem scrub_bytebuf (s : State) : (scrub s).bytebuf = [] := rfl
@[simp] theorem scrub_pending (s : State) : (scrub s).pending = s.pending := rfl
@[simp] theorem scrub_readLog (s : State) : (scrub s).readLog = s.readLog := rfl
@[simp] theorem scrub_draws (s : State) : (scrub s).draws = s.draws := rfl
@[simp] theorem scrub_config (s : State) : (scrub s).config = s.config := rfl

@[simp] theorem setPending_cmd (ops : List HostOp) (s : State) : (setPending ops s).cmd = s.cmd := rfl
@[simp] theorem setPending_status (ops : List HostOp) (s : State) : (setPending ops s).status = s.status := rfl
@[simp] theorem setPending_symlen (ops : List HostOp) (s : State) : (setPending ops s).symlen = s.symlen := rfl
@[simp] theorem setPending_symcount (ops : List HostOp) (s : State) : (setPending ops s).symcount = s.symcount := rfl
@[simp] theorem setPending_tabsize (ops : List HostOp) (s : State) : (setPending ops s).tabsize = s.tabsize := rfl
@[simp] theorem setPending_bitlen (ops : List HostOp) (s : State) : (setPending ops s).bitlen = s.bitlen := rfl
@[simp] theorem setPending_bytelen (ops : List HostOp) (s : State) : (setPending ops s).bytelen = s.bytelen := rfl
@[simp] theorem setPending_nodecnt (ops : List HostOp) (s : State) : (setPending ops s).nodecnt = s.nodecnt := rfl
@[simp] theorem setPending_nleaf (ops : List HostOp) (s : State) : (setPending ops s).nleaf = s.nleaf := rfl
@[simp] theorem setPending_symbuf (ops : List HostOp) (s : State) : (setPending ops s).symbuf = s.symbuf := rfl
@[simp] theorem setPending_freq (ops : List HostOp) (s : State) : (setPending ops s).freq = s.freq := rfl
@[simp] theorem setPending_node (ops : List HostOp) (s : State) : (setPending ops s).node = s.node := rfl
@[simp] theorem setPending_codetab (ops : List HostOp) (s : State) : (setPending ops s).codetab = s.codetab := rfl
@[simp] theorem setPending_bytebuf (ops : List HostOp) (s : State) : (setPending ops s).bytebuf = s.bytebuf := rfl
@[simp] theorem setPending_pending (ops : List HostOp) (s : State) : (setPending ops s).pending = ops := rfl
@[simp] theorem setPending_readLog (ops : List HostOp) (s : State) : (setPending ops s).readLog = s.readLog := rfl
@[simp] theorem setPending_draws (ops : List HostOp) (s : State) : (setPending ops s).draws = s.draws := rfl
@[simp] theorem setPending_config (ops : List HostOp) (s : State) : (setPending ops s).config = s.config := rfl

@[simp] theorem raiseError_eq (e : ErrorKind) (op : Opcode) (s : State) :
    raiseError e op s = setStatus (statusError e op) s := rfl

/-- The last write of STATUS is the one that counts. -/
@[simp] theorem setStatus_setStatus (w v : Word) (s : State) : setStatus w (setStatus v s) = setStatus w s := rfl

end Sys2Proof.Machine
end

