-- ==== Sys2Proof/Laws/Ops.lean ====
section
/-! SUPPORT. What each shared operation can do: reading a region, one computation after another, and how a primitive step
ends. Later proofs cite these instead of unfolding the operations. -/

namespace Sys2Proof.Machine

variable {α β : Type}

@[simp] theorem Attempt.andThen_ok (a : α) (k : α → Attempt β) : (Attempt.ok a).andThen k = k a := rfl
@[simp] theorem Attempt.andThen_raised (e : ErrorKind) (k : α → Attempt β) :
    (Attempt.raised e).andThen k = .raised e := rfl
@[simp] theorem Attempt.andThen_fault (f : Fault) (k : α → Attempt β) : (Attempt.fault f).andThen k = .fault f := rfl

/-- A chain of two computations has a result when both have one. -/
theorem Attempt.andThen_eq_ok {r : Attempt α} {k : α → Attempt β} {b : β} :
    r.andThen k = .ok b ↔ ∃ a, r = .ok a ∧ k a = .ok b := by
  cases r <;> simp [Attempt.andThen]

/-- A chain raises an error when its first part does, or the second after it. -/
theorem Attempt.andThen_eq_raised {r : Attempt α} {k : α → Attempt β} {e : ErrorKind} :
    r.andThen k = .raised e ↔ r = .raised e ∨ ∃ a, r = .ok a ∧ k a = .raised e := by
  cases r <;> simp [Attempt.andThen]

/-- A chain faults when its first part does, or the second after it. -/
theorem Attempt.andThen_eq_fault {r : Attempt α} {k : α → Attempt β} {f : Fault} :
    r.andThen k = .fault f ↔ r = .fault f ∨ ∃ a, r = .ok a ∧ k a = .fault f := by
  cases r <;> simp [Attempt.andThen]

/-- Reading a region answers a sequence exactly when every cell of it is written, and that sequence is what they hold. -/
theorem readRegion_eq_ok (sp : Space) (m : Cells α) : ∀ (n i : Nat) (xs : List α),
    readRegion sp m i n = .ok xs ↔ xs.length = n ∧ ∀ k, k < n → Memory.get m (i + k) = xs[k]? := by
  intro n
  induction n with
  | zero =>
    intro i xs
    simp only [readRegion, Attempt.ok.injEq]
    constructor
    · rintro rfl; exact ⟨rfl, fun k hk => absurd hk (Nat.not_lt_zero k)⟩
    · rintro ⟨h, _⟩; exact (List.eq_nil_of_length_eq_zero h).symm
  | succ n ih =>
    intro i xs
    simp only [readRegion]
    cases hv : Memory.get m i with
    | none =>
      constructor
      · intro h; exact absurd h (by simp)
      · rintro ⟨hl, hk⟩
        have h0 := hk 0 (Nat.succ_pos n)
        rw [Nat.add_zero, hv] at h0
        have hx : 0 < xs.length := by omega
        rw [List.getElem?_eq_getElem hx] at h0
        exact absurd h0 (by simp)
    | some v =>
      simp only [Attempt.andThen_eq_ok, ih, Attempt.ok.injEq]
      constructor
      · rintro ⟨vs, ⟨hl, hk⟩, rfl⟩
        refine ⟨by simp [hl], fun k hk' => ?_⟩
        cases k with
        | zero => simpa using hv
        | succ k => rw [List.getElem?_cons_succ, ← hk k (by omega)]; congr 1; omega
      · rintro ⟨hl, hk⟩
        cases xs with
        | nil => simp at hl
        | cons x vs =>
          have h0 := hk 0 (Nat.succ_pos n)
          rw [Nat.add_zero, hv] at h0
          simp only [List.getElem?_cons_zero, Option.some.injEq] at h0
          refine ⟨vs, ⟨by simpa using hl, fun k hk' => ?_⟩, by rw [h0]⟩
          have := hk (k + 1) (by omega)
          rw [List.getElem?_cons_succ] at this
          rw [← this]; congr 1; omega

/-- Reading a region raises no error. -/
theorem readRegion_ne_raised (sp : Space) (m : Cells α) (e : ErrorKind) : ∀ (n i : Nat),
    readRegion sp m i n ≠ .raised e := by
  intro n
  induction n with
  | zero => intro i h; simp [readRegion] at h
  | succ n ih =>
    intro i h
    simp only [readRegion] at h
    cases hv : Memory.get m i with
    | none => simp [hv] at h
    | some v =>
      rw [hv] at h
      simp only [Attempt.andThen_eq_raised] at h
      rcases h with h | ⟨a, _, h⟩
      · exact ih _ h
      · simp at h

/-- Reading a region faults exactly when some cell of it is unwritten, and with that space's fault. -/
theorem readRegion_eq_fault (sp : Space) (m : Cells α) (f : Fault) : ∀ (n i : Nat),
    readRegion sp m i n = .fault f ↔ f = .unwrittenCell sp ∧ ∃ k, k < n ∧ Memory.get m (i + k) = none := by
  intro n
  induction n with
  | zero => intro i; simp [readRegion]
  | succ n ih =>
    intro i
    simp only [readRegion]
    cases hv : Memory.get m i with
    | none =>
      simp only [Attempt.fault.injEq]
      constructor
      · rintro rfl; exact ⟨rfl, 0, Nat.succ_pos n, by simpa using hv⟩
      · rintro ⟨rfl, _⟩; rfl
    | some v =>
      simp only [Attempt.andThen_eq_fault, ih, reduceCtorEq, and_false, exists_false, or_false]
      constructor
      · rintro ⟨hf, k, hk, hn⟩
        exact ⟨hf, k + 1, by omega, by rw [← hn]; congr 1; omega⟩
      · rintro ⟨hf, k, hk, hn⟩
        cases k with
        | zero => simp [hv] at hn
        | succ k => exact ⟨hf, k, by omega, by rw [← hn]; congr 1; omega⟩

/-- An element cut to its width has it. -/
theorem fits_cutToWidth (c : Params) (e : Element) : (cutToWidth c e).fits c = true := by
  cases e <;> simp [cutToWidth, Element.fits, NodeRec.fits, Entry.fits, Nat.mod_lt]

/-- A free value is an element of the right width (93_implementation_defined.md U3). -/
theorem fits_freeElement (c : Params) (sp : Space) (n : Nat) : (freeElement c sp n).fits c = true := by
  cases sp <;> simp only [freeElement, fits_cutToWidth] <;> simp [Element.fits]

/-- How a primitive step ends, said once: if it answers a next state, then its computation had a result and the rest
answered that state, or it raised an error and that state is the failing one with STATUS recording the error. -/
theorem settle_eq_next {op : Opcode} {r : Attempt α} {commit : α → State} {failed : State}
    {k : State → Host.Outcome State Fault Refusal} {t : State} :
    settle op r commit failed k = .next t ↔
      (∃ a, r = .ok a ∧ k (commit a) = .next t) ∨
        (∃ e, r = .raised e ∧ t = setStatus (statusError e op) failed) := by
  cases r <;> simp [settle, eq_comm]

/-- A primitive step faults when its computation does, or the rest after it. -/
theorem settle_eq_fault {op : Opcode} {r : Attempt α} {commit : α → State} {failed : State}
    {k : State → Host.Outcome State Fault Refusal} {f : Fault} :
    settle op r commit failed k = .fault f ↔
      r = .fault f ∨ ∃ a, r = .ok a ∧ k (commit a) = .fault f := by
  cases r <;> simp [settle]

/-- A primitive step is refused only when the rest after it is. -/
theorem settle_eq_refused {op : Opcode} {r : Attempt α} {commit : α → State} {failed : State}
    {k : State → Host.Outcome State Fault Refusal} {x : Refusal} :
    settle op r commit failed k = .refused x ↔ ∃ a, r = .ok a ∧ k (commit a) = .refused x := by
  cases r <;> simp [settle]

/-- A command that completes answers the state with STATUS = 0. -/
@[simp] theorem complete_eq (s : State) : complete s = .next (setStatus statusOk s) := rfl

end Sys2Proof.Machine
end

