-- ==== Sys2Proof/Laws/Commands.lean ====
section
/-! SUPPORT. What each command's computation can come to, said once per command: when it has a result and which, and which
errors and faults it can have. -/

namespace Sys2Proof.Machine

/-- Writing a sequence from index 0 on makes the space hold it. -/
theorem holds_setRange {α : Type} (m : Cells α) (xs : List α) : Holds (Memory.setRange m 0 xs) xs :=
  fun _ hk => Memory.get_setRange_zero m xs hk

/-- What it means that every cell has its width (20_memory.md R60, 00_scope.md R12). -/
theorem cellsFit_iff {s : State} :
    cellsFit s = true ↔
      (∀ x ∈ s.symbuf, x.2 < 2 ^ s.config.symW) ∧ (∀ x ∈ s.freq, x.2 < 2 ^ s.config.cntW) ∧
        (∀ x ∈ s.node, x.2.fits s.config = true) ∧ ∀ x ∈ s.codetab, x.2.fits s.config = true := by
  simp only [cellsFit, Element.fits, Bool.and_eq_true, List.all_eq_true, decide_eq_true_eq]
  tauto

theorem readSymbols_eq_ok {s : State} {xs : List Nat} : readSymbols s = .ok xs ↔ SymbolsAre s xs := by
  simp only [readSymbols, readRegion_eq_ok, SymbolsAre, Holds, Nat.zero_add]
  constructor
  · rintro ⟨h, hk⟩; exact ⟨h.symm, fun k hk' => hk k (by omega)⟩
  · rintro ⟨h, hk⟩; exact ⟨h.symm, fun k hk' => hk k (by omega)⟩

theorem readTable_eq_ok {s : State} {t : List Entry} : readTable s = .ok t ↔ TableIs s t := by
  simp only [readTable, readRegion_eq_ok, TableIs, Holds, Nat.zero_add]
  constructor
  · rintro ⟨h, hk⟩; exact ⟨h.symm, fun k hk' => hk k (by omega)⟩
  · rintro ⟨h, hk⟩; exact ⟨h.symm, fun k hk' => hk k (by omega)⟩

theorem readBytes_eq_ok {s : State} {ys : List Byte} : readBytes s = .ok ys ↔ BytesAre s ys := by
  simp only [readBytes, readRegion_eq_ok, BytesAre, Holds, Nat.zero_add]
  constructor
  · rintro ⟨h, hk⟩; exact ⟨h.symm, fun k hk' => hk k (by omega)⟩
  · rintro ⟨h, hk⟩; exact ⟨h.symm, fun k hk' => hk k (by omega)⟩

/-- COUNT has a result exactly when the length is 1 to SYM_CAP and the symbols are written: their tally. -/
theorem countResult_eq_ok {s : State} {f : Cells Nat} :
    countResult s = .ok f ↔
      s.symlen.toNat ≤ s.config.symCap ∧ s.symlen.toNat ≠ 0 ∧ ∃ xs, SymbolsAre s xs ∧ f = tally xs := by
  simp only [countResult]
  split_ifs with h1 h2
  · simp; omega
  · simp [h2]
  · simp only [Attempt.andThen_eq_ok, readSymbols_eq_ok, Attempt.ok.injEq]
    constructor
    · rintro ⟨xs, h, rfl⟩; exact ⟨by omega, h2, xs, h, rfl⟩
    · rintro ⟨_, _, xs, h, rfl⟩; exact ⟨xs, h, rfl⟩

/-- BUILD has a result exactly when some count is nonzero: the entries. -/
theorem buildResult_eq_ok {s : State} {es : List (Nat × Nat)} :
    buildResult s = .ok es ↔ es = entries s.freq ∧ es ≠ [] := by
  simp only [buildResult]
  split_ifs with h
  · simp only [false_iff, not_and, not_not]
    rintro rfl; exact List.eq_nil_of_length_eq_zero h
  · simp only [Attempt.ok.injEq]
    constructor
    · rintro rfl; exact ⟨rfl, fun e => h (by simp [e])⟩
    · rintro ⟨rfl, _⟩; rfl

/-- BUILD never faults. -/
theorem buildResult_ne_fault (s : State) (f : Fault) : buildResult s ≠ .fault f := by
  simp only [buildResult]; split_ifs <;> simp

/-- DERIVE has a result exactly when NODECNT is not 0, the tree gives codes, and all of them fit. -/
theorem deriveResult_eq_ok {s : State} {t : List (Nat × Bits)} :
    deriveResult s = .ok t ↔
      s.nodecnt.toNat ≠ 0 ∧ treeCodes s.node s.nodecnt.toNat = .ok t ∧ ∀ c ∈ t, c.2.length ≤ Config.lenMax := by
  simp only [deriveResult]
  split_ifs with h
  · simp [h]
  · simp only [Attempt.andThen_eq_ok]
    constructor
    · rintro ⟨u, hu, ht⟩
      split_ifs at ht with hc
      obtain rfl := Attempt.ok.inj ht
      refine ⟨h, hu, fun c hcm => ?_⟩
      by_contra hlt
      exact hc (List.any_eq_true.2 ⟨c, hcm, by simpa using hlt⟩)
    · rintro ⟨_, hu, hc⟩
      refine ⟨t, hu, ?_⟩
      rw [if_neg]
      intro ha
      obtain ⟨c, hcm, hlt⟩ := List.any_eq_true.1 ha
      have := hc c hcm
      simp at hlt; omega

/-- PACK has a result exactly when the lengths fit, the table is written and well-formed, and the gathering of bits has
one. -/
theorem packResult_eq_ok {s : State} {b : Bits} :
    packResult s = .ok b ↔
      s.symlen.toNat ≤ s.config.symCap ∧ s.tabsize.toNat ≤ s.config.tabCap ∧
        ∃ t, TableIs s t ∧ tableWF t = true ∧ gatherBits s.config.byteCap t s.symbuf s.symlen.toNat 0 [] = .ok b := by
  simp only [packResult]
  split_ifs with h
  · simp only [false_iff]; rintro ⟨h1, h2, _⟩; omega
  · simp only [Attempt.andThen_eq_ok, readTable_eq_ok]
    constructor
    · rintro ⟨t, ht, hg⟩
      split_ifs at hg with hw
      exact ⟨by omega, by omega, t, ht, hw, hg⟩
    · rintro ⟨_, _, t, ht, hw, hg⟩
      exact ⟨t, ht, by rw [if_pos hw]; exact hg⟩

/-- UNPACK has a result exactly when the lengths fit, the table is written and well-formed, and either nothing is asked
for or the bytes are written and the walk gives the symbols. -/
theorem unpackResult_eq_ok {s : State} {out : List Nat} :
    unpackResult s = .ok out ↔
      s.symcount.toNat ≤ s.config.symCap ∧ s.tabsize.toNat ≤ s.config.tabCap ∧ s.bytelen.toNat ≤ s.config.byteCap ∧
        ∃ t, TableIs s t ∧ tableWF t = true ∧
          ((s.symcount.toNat = 0 ∧ out = []) ∨
            (s.symcount.toNat ≠ 0 ∧ ∃ ys, BytesAre s ys ∧
              decodeWalk t (unpackBits ys) s.symcount.toNat [] = some out)) := by
  simp only [unpackResult]
  split_ifs with h h0
  · simp only [false_iff]; rintro ⟨h1, h2, h3, _⟩; omega
  · simp only [Attempt.andThen_eq_ok, readTable_eq_ok]
    constructor
    · rintro ⟨t, ht, hg⟩
      split_ifs at hg with hw
      exact ⟨by omega, by omega, by omega, t, ht, hw, .inl ⟨h0, (Attempt.ok.inj hg).symm⟩⟩
    · rintro ⟨_, _, _, t, ht, hw, (⟨_, rfl⟩ | ⟨hn, _⟩)⟩
      · exact ⟨t, ht, by rw [if_pos hw]⟩
      · exact absurd h0 hn
  · simp only [Attempt.andThen_eq_ok, readTable_eq_ok]
    constructor
    · rintro ⟨t, ht, hg⟩
      split_ifs at hg with hw
      obtain ⟨ys, hy, hd⟩ := Attempt.andThen_eq_ok.1 hg
      rw [readBytes_eq_ok] at hy
      cases hdw : decodeWalk t (unpackBits ys) s.symcount.toNat [] with
      | none => rw [hdw] at hd; simp at hd
      | some o =>
        rw [hdw] at hd
        obtain rfl := Attempt.ok.inj hd
        exact ⟨by omega, by omega, by omega, t, ht, hw, .inr ⟨h0, ys, hy, hdw⟩⟩
    · rintro ⟨_, _, _, t, ht, hw, (⟨hz, _⟩ | ⟨_, ys, hy, hd⟩)⟩
      · exact absurd hz h0
      · refine ⟨t, ht, ?_⟩
        rw [if_pos hw, Attempt.andThen_eq_ok]
        exact ⟨ys, readBytes_eq_ok.2 hy, by rw [hd]⟩

/-- The walk that succeeds gives exactly as many symbols as were asked for (44_bit_unpacker.md R177). -/
theorem length_decodeWalk (t : List Entry) : ∀ (x : Bits) (c : Nat) (acc : Bits) (out : List Nat),
    decodeWalk t x c acc = some out → out.length = c := by
  intro x
  induction x with
  | nil =>
    intro c acc out h
    cases c with
    | zero => simp [decodeWalk] at h; subst h; rfl
    | succ c => simp [decodeWalk] at h
  | cons b x ih =>
    intro c acc out h
    cases c with
    | zero => simp [decodeWalk] at h; subst h; rfl
    | succ c =>
      simp only [decodeWalk] at h
      split at h
      · obtain ⟨o, ho, rfl⟩ := Option.map_eq_some_iff.1 h
        simp [ih _ _ _ ho]
      · split at h
        · simp at h
        · exact ih _ _ _ h

/-- The tally of a sequence of symbols is in canonical form. -/
theorem freqWf_tally {p : Params} {xs : List Nat} (hx : ∀ x ∈ xs, x < p.nMax) : freqWf p (tally xs) = true := by
  have key : ∀ (ys : List Nat) (f : Cells Nat), (∀ y ∈ ys, y < p.nMax) → freqWf p f = true →
      freqWf p (ys.foldl tallyOne f) = true := by
    intro ys
    induction ys with
    | nil => intro f _ h; exact h
    | cons y ys ih =>
      intro f hy h
      exact ih _ (fun z hz => hy z (List.mem_cons_of_mem _ hz)) (freqWf_freqSet _ (hy y List.mem_cons_self) h)
  exact key xs [] hx rfl

/-- Tallying one symbol adds one to its count and to no other (40_symbol_freq_counter.md R110). -/
theorem freqGet_tallyOne (f : Cells Nat) (x y : Nat) :
    freqGet (tallyOne f x) y = freqGet f y + if x = y then 1 else 0 := by
  rw [tallyOne, freqGet_freqSet]
  split_ifs with h
  · rw [h]
  · rfl

/-- Every cell of the tally is the number of occurrences of its index (40_symbol_freq_counter.md R110). -/
theorem freqGet_tally (xs : List Nat) (x : Nat) : freqGet (tally xs) x = xs.count x := by
  have key : ∀ (ys : List Nat) (f : Cells Nat), freqGet (ys.foldl tallyOne f) x = freqGet f x + ys.count x := by
    intro ys
    induction ys with
    | nil => intro f; rfl
    | cons y ys ih =>
      intro f
      rw [List.foldl_cons, ih, freqGet_tallyOne, List.count_cons]
      simp only [beq_iff_eq]; omega
  simpa [tally] using key xs []

/-- The lightest node and the rest are the working collection, reordered. -/
theorem takeLightest_perm : ∀ (w : List Live) (q : Live) (r : List Live), takeLightest w = some (q, r) → (q :: r).Perm w := by
  intro w
  induction w with
  | nil => intro q r h; simp [takeLightest] at h
  | cons x xs ih =>
    intro q r h
    simp only [takeLightest] at h
    cases hx : takeLightest xs with
    | none =>
      rw [hx] at h
      simp only [Option.some.injEq, Prod.mk.injEq] at h
      obtain ⟨rfl, rfl⟩ := h
      cases xs with
      | nil => exact List.Perm.refl _
      | cons y ys =>
        simp only [takeLightest] at hx
        split at hx
        · simp at hx
        · split at hx <;> simp at hx
    | some p =>
      obtain ⟨y, ys⟩ := p
      rw [hx] at h
      have hp := ih y ys hx
      simp only at h
      split at h
      · simp only [Option.some.injEq, Prod.mk.injEq] at h
        obtain ⟨rfl, rfl⟩ := h
        exact hp.cons x
      · simp only [Option.some.injEq, Prod.mk.injEq] at h
        obtain ⟨rfl, rfl⟩ := h
        exact (List.Perm.swap x y ys).trans (hp.cons x)

/-- No node of the rest is lighter than the lightest. -/
theorem takeLightest_lightest : ∀ (w : List Live) (q : Live) (r : List Live), takeLightest w = some (q, r) →
    ∀ z ∈ r, lighter z.2 q.2 = false := by
  have trans : ∀ a b c : NodeRec, lighter b a = false → lighter c b = false → lighter c a = false := by
    intro a b c h1 h2
    simp only [lighter, Bool.or_eq_false_iff, decide_eq_false_iff_not, Bool.and_eq_false_iff, beq_eq_false_iff_ne,
      ne_eq] at h1 h2 ⊢
    omega
  have asymm : ∀ a b : NodeRec, lighter a b = true → lighter b a = false := by
    intro a b h
    simp only [lighter, Bool.or_eq_true, decide_eq_true_eq, Bool.and_eq_true, beq_iff_eq, Bool.or_eq_false_iff,
      decide_eq_false_iff_not, Bool.and_eq_false_iff, beq_eq_false_iff_ne, ne_eq] at h ⊢
    omega
  intro w
  induction w with
  | nil => intro q r h; simp [takeLightest] at h
  | cons x xs ih =>
    intro q r h z hz
    simp only [takeLightest] at h
    cases hx : takeLightest xs with
    | none =>
      rw [hx] at h
      simp only [Option.some.injEq, Prod.mk.injEq] at h
      obtain ⟨rfl, rfl⟩ := h
      simp at hz
    | some p =>
      obtain ⟨y, ys⟩ := p
      rw [hx] at h
      have hl := ih y ys hx
      simp only at h
      split at h
      · next hxy =>
        simp only [Option.some.injEq, Prod.mk.injEq] at h
        obtain ⟨rfl, rfl⟩ := h
        rcases List.mem_cons.1 hz with rfl | hz
        · exact asymm _ _ hxy
        · exact trans _ _ _ (asymm _ _ hxy) (hl z hz)
      · next hxy =>
        simp only [Option.some.injEq, Prod.mk.injEq] at h
        obtain ⟨rfl, rfl⟩ := h
        rcases List.mem_cons.1 hz with rfl | hz
        · simpa using hxy
        · exact hl z hz

/-- A non-empty working collection has a lightest node. -/
theorem takeLightest_isSome {w : List Live} (h : w ≠ []) : ∃ q r, takeLightest w = some (q, r) := by
  cases w with
  | nil => exact absurd rfl h
  | cons x xs =>
    simp only [takeLightest]
    cases takeLightest xs with
    | none => exact ⟨_, _, rfl⟩
    | some p => simp only; split <;> exact ⟨_, _, rfl⟩

/-- The merges of a working collection of `n + 1` nodes give `n` branches (41_huffman_tree_builder.md R125). -/
theorem length_mergeAll : ∀ (n next : Nat) (w : List Live), w.length = n + 1 → (mergeAll n next w).length = n := by
  intro n
  induction n with
  | zero => intro next w _; rfl
  | succ n ih =>
    intro next w hw
    obtain ⟨q, w1, h1⟩ := takeLightest_isSome (w := w) (by intro e; simp [e] at hw)
    have l1 := (takeLightest_perm w q w1 h1).length_eq
    obtain ⟨p, w2, h2⟩ := takeLightest_isSome (w := w1) (by intro e; simp [e] at l1; omega)
    have l2 := (takeLightest_perm w1 p w2 h2).length_eq
    simp only [List.length_cons] at l1 l2
    simp only [mergeAll, h1, h2, List.length_cons]
    rw [ih _ _ (by simp; omega)]

/-- BUILD makes `2N - 1` records for `N` entries (41_huffman_tree_builder.md R125). -/
theorem length_treeNodes {es : List (Nat × Nat)} (h : es ≠ []) : (treeNodes es).length = 2 * es.length - 1 := by
  have hn : ∀ (rs : List NodeRec) (i : Nat), (numbered i rs).length = rs.length := by
    intro rs
    induction rs with
    | nil => intro i; rfl
    | cons r rs ih => intro i; simp [numbered, ih]
  have hl : 0 < es.length := List.length_pos_of_ne_nil h
  simp only [treeNodes, List.length_append, List.length_map]
  rw [length_mergeAll _ _ _ (by rw [hn, List.length_map]; omega)]
  omega

/-- DERIVE's walk of the records gives the codes of the tree that stands there (42_code_table_gen.md R141). -/
theorem walk_of_treeAt (nodes : Cells NodeRec) : ∀ (d k : Nat) (b : Bits) (t : CodeTree),
    treeAt nodes d k = some t → walk nodes d k b = .ok (pathCodes b t) := by
  intro d
  induction d with
  | zero => intro k b t h; simp [treeAt] at h
  | succ d ih =>
    intro k b t h
    simp only [treeAt] at h
    simp only [walk]
    cases hr : Memory.get nodes k with
    | none => rw [hr] at h; simp at h
    | some r =>
      rw [hr] at h
      simp only at h ⊢
      cases hk : r.kind with
      | leaf =>
        rw [hk] at h
        simp only [Option.some.injEq] at h
        subst h; rfl
      | branch =>
        rw [hk] at h
        simp only at h
        cases hl : treeAt nodes d r.left with
        | none => rw [hl] at h; simp at h
        | some l =>
          cases ht : treeAt nodes d r.right with
          | none => rw [hl, ht] at h; simp at h
          | some u =>
            rw [hl, ht] at h
            simp only [Option.some.injEq] at h
            subst h
            simp only [ih _ _ _ hl, ih _ _ _ ht, Attempt.andThen_ok, pathCodes]

end Sys2Proof.Machine
end

