-- ==== Sys2Proof/Laws/PerInstr.lean ====
section
/-! SUPPORT. Facts about every command as syntax, one lemma per constructor. -/

namespace Sys2Proof.Laws

/-- The command word of `i` has zeros above the opcode, its own opcode below, and is legal (30_encoding.md R90, R91). -/
def Encoding.Statement (i : Instr) : Prop :=
  zeroField (encode i) = 0 ∧ opField (encode i) = opcode i ∧ wordLegal (encode i) = true

theorem Encoding.clr : Encoding.Statement .clr := by unfold Encoding.Statement; decide
theorem Encoding.count : Encoding.Statement .count := by unfold Encoding.Statement; decide
theorem Encoding.build : Encoding.Statement .build := by unfold Encoding.Statement; decide
theorem Encoding.derive : Encoding.Statement .derive := by unfold Encoding.Statement; decide
theorem Encoding.pack : Encoding.Statement .pack := by unfold Encoding.Statement; decide
theorem Encoding.unpack : Encoding.Statement .unpack := by unfold Encoding.Statement; decide
theorem Encoding.encode : Encoding.Statement .encode := by unfold Encoding.Statement; decide

end Sys2Proof.Laws
end

