-- ==== Sys2Proof/Laws/Step.lean ====
section
/-! SUPPORT. What a command and a step can do, said once each: the inversion lemmas from which frames and invariants
follow without unfolding the machine again. -/

namespace Sys2Proof.Machine

/-- COUNT answers either the state with the tally in FREQ and STATUS = 0, or the state with FREQ all 0 and the error. -/
theorem exec_count_eq_next {s t : State} :
    exec .count s = .next t ↔
      (∃ f, countResult s = .ok f ∧ t = setStatus statusOk (setFreq f s)) ∨
        (∃ e, countResult s = .raised e ∧ t = setStatus (statusError e opCount) (setFreq [] s)) := by
  rw [show exec .count s = performCount s complete from rfl, performCount, settle_eq_next]
  simp [complete, eq_comm]

/-- BUILD answers either the tree written and STATUS = 0, or no tree and the error. -/
theorem exec_build_eq_next {s t : State} :
    exec .build s = .next t ↔
      (∃ es, buildResult s = .ok es ∧ t = setStatus statusOk (buildCommit s es)) ∨
        (∃ e, buildResult s = .raised e ∧ t = setStatus (statusError e opBuild) (setTree [] 0 0 s)) := by
  rw [show exec .build s = performBuild s complete from rfl, performBuild, settle_eq_next]
  simp [complete, eq_comm]

/-- DERIVE answers either the table written and STATUS = 0, or no table and the error; the tree is released both times. -/
theorem exec_derive_eq_next {s t : State} :
    exec .derive s = .next t ↔
      (∃ cs, deriveResult s = .ok cs ∧ t = setStatus statusOk (deriveCommit s cs)) ∨
        (∃ e, deriveResult s = .raised e ∧ t = setStatus (statusError e opDerive) (setTable [] 0 s)) := by
  rw [show exec .derive s = performDerive s complete from rfl, performDerive, settle_eq_next]
  simp [complete, eq_comm]

/-- PACK answers either the packing written and STATUS = 0, or no packing and the error. -/
theorem exec_pack_eq_next {s t : State} :
    exec .pack s = .next t ↔
      (∃ b, packResult s = .ok b ∧ t = setStatus statusOk (packCommit s b)) ∨
        (∃ e, packResult s = .raised e ∧ t = setStatus (statusError e opPack) (setPacking [] 0 0 0 s)) := by
  rw [show exec .pack s = performPack s complete from rfl, performPack, settle_eq_next]
  simp [complete, eq_comm]

/-- UNPACK answers either the symbols written and STATUS = 0, or no symbols and the error. -/
theorem exec_unpack_eq_next {s t : State} :
    exec .unpack s = .next t ↔
      (∃ xs, unpackResult s = .ok xs ∧ t = setStatus statusOk (unpackCommit s xs)) ∨
        (∃ e, unpackResult s = .raised e ∧ t = setStatus (statusError e opUnpack) (setDecoded [] 0 s)) := by
  rw [show exec .unpack s = performUnpack s complete from rfl, performUnpack, settle_eq_next]
  simp [complete, eq_comm]

/-- ENCODE answers the failing case of the first of its four sub-steps that raises an error, or all four results and
STATUS = 0. -/
theorem exec_encode_eq_next {s t : State} :
    exec .encode s = .next t ↔
      (∃ e, countResult s = .raised e ∧ t = setStatus (statusError e opCount) (setFreq [] s)) ∨
      ∃ f, countResult s = .ok f ∧
        ((∃ e, buildResult (setFreq f s) = .raised e ∧
            t = setStatus (statusError e opBuild) (setTree [] 0 0 (setFreq f s))) ∨
        ∃ es, buildResult (setFreq f s) = .ok es ∧
          ((∃ e, deriveResult (buildCommit (setFreq f s) es) = .raised e ∧
              t = setStatus (statusError e opDerive) (setTable [] 0 (buildCommit (setFreq f s) es))) ∨
          ∃ cs, deriveResult (buildCommit (setFreq f s) es) = .ok cs ∧
            ((∃ e, packResult (deriveCommit (buildCommit (setFreq f s) es) cs) = .raised e ∧
                t = setStatus (statusError e opPack)
                  (setPacking [] 0 0 0 (deriveCommit (buildCommit (setFreq f s) es) cs))) ∨
            ∃ b, packResult (deriveCommit (buildCommit (setFreq f s) es) cs) = .ok b ∧
              t = setStatus statusOk (packCommit (deriveCommit (buildCommit (setFreq f s) es) cs) b)))) := by
  rw [show exec .encode s = performCount s fun s1 => performBuild s1 fun s2 => performDerive s2 fun s3 =>
    performPack s3 complete from rfl]
  simp only [performCount, performBuild, performDerive, performPack, settle_eq_next, complete_eq,
    Host.Outcome.next.injEq]
  constructor
  · rintro (⟨f, hf, h | h⟩ | h)
    · obtain ⟨es, he, ⟨cs, hc, ⟨b, hb, rfl⟩ | h⟩ | h⟩ := h
      · exact .inr ⟨f, hf, .inr ⟨es, he, .inr ⟨cs, hc, .inr ⟨b, hb, rfl⟩⟩⟩⟩
      · exact .inr ⟨f, hf, .inr ⟨es, he, .inr ⟨cs, hc, .inl h⟩⟩⟩
      · exact .inr ⟨f, hf, .inr ⟨es, he, .inl h⟩⟩
    · exact .inr ⟨f, hf, .inl h⟩
    · exact .inl h
  · rintro (h | ⟨f, hf, h | ⟨es, he, h | ⟨cs, hc, h | ⟨b, hb, rfl⟩⟩⟩⟩)
    · exact .inr h
    · exact .inl ⟨f, hf, .inr h⟩
    · exact .inl ⟨f, hf, .inl ⟨es, he, .inr h⟩⟩
    · exact .inl ⟨f, hf, .inl ⟨es, he, .inl ⟨cs, hc, .inr h⟩⟩⟩
    · exact .inl ⟨f, hf, .inl ⟨es, he, .inl ⟨cs, hc, .inl ⟨b, hb, rfl⟩⟩⟩⟩

/-- Everything a step that answers a next state can have done. -/
theorem step_eq_next_cases {s t : State} (h : step s = .next t) :
    (s.pending = [] ∧ t = s) ∨
    ∃ op rest, s.pending = op :: rest ∧
      ((op = .reset ∧ t = hostReset (setPending rest s)) ∨
      (∃ sp i, op = .read sp i ∧ i < spaceSize s.config sp ∧ t = hostRead sp i (setPending rest s)) ∨
      (∃ i v, op = .write i v ∧ statusBusy s.status = false ∧ i < spaceSize s.config v.space ∧ v.fits s.config = true ∧
        (v.space = .reg → i ≠ 0) ∧ t = hostWrite i v (setPending rest s)) ∨
      (∃ w c, op = .write 0 (.reg w) ∧ statusBusy s.status = false ∧ decode w = .ok c ∧
        exec c (setCmd w (setPending rest s)) = .next t) ∨
      (∃ w e, op = .write 0 (.reg w) ∧ statusBusy s.status = false ∧ decode w = .error e ∧
        t = setStatus (statusError .illegalCommand (opField w)) (setCmd w (setPending rest s)))) := by
  simp only [step, nextHostOp] at h
  cases hp : s.pending with
  | nil => rw [hp] at h; exact .inl ⟨rfl, (Host.Outcome.next.inj h).symm⟩
  | cons op rest =>
    rw [hp] at h
    refine .inr ⟨op, rest, rfl, ?_⟩
    cases op with
    | reset => exact .inl ⟨rfl, (Host.Outcome.next.inj h).symm⟩
    | read sp i =>
      simp only [hostStep] at h
      by_cases hb : (statusBusy (setPending rest s).status && !readsStatus (.read sp i)) = true
      · rw [if_pos hb] at h; cases h
      rw [if_neg hb] at h
      by_cases hi : spaceSize (setPending rest s).config sp ≤ i
      · rw [if_pos hi] at h; cases h
      rw [if_neg hi] at h
      rw [setPending_config] at hi
      exact .inr (.inl ⟨sp, i, rfl, by omega, (Host.Outcome.next.inj h).symm⟩)
    | write i v =>
      simp only [hostStep] at h
      by_cases hb : statusBusy (setPending rest s).status = true
      · rw [if_pos hb] at h; cases h
      rw [if_neg hb] at h
      have hb : statusBusy s.status = false := by simpa using hb
      by_cases hi : spaceSize (setPending rest s).config v.space ≤ i
      · rw [if_pos hi] at h; cases h
      rw [if_neg hi] at h
      by_cases hw : (!v.fits (setPending rest s).config) = true
      · rw [if_pos hw] at h; cases h
      rw [if_neg hw] at h
      have hw : v.fits s.config = true := by simpa using hw
      by_cases hcmd : ∃ w, v = .reg w ∧ i = 0
      · obtain ⟨w, rfl, rfl⟩ := hcmd
        simp only [issueCommand] at h
        cases hd : decode w with
        | ok c => rw [hd] at h; exact .inr (.inr (.inr (.inl ⟨w, c, rfl, hb, hd, h⟩)))
        | error e =>
          rw [hd] at h
          exact .inr (.inr (.inr (.inr ⟨w, e, rfl, hb, hd, (Host.Outcome.next.inj h).symm⟩)))
      · have ht : t = hostWrite i v (setPending rest s) := by
          cases v with
          | reg w =>
            cases i with
            | zero => exact absurd ⟨w, rfl, rfl⟩ hcmd
            | succ n => exact (Host.Outcome.next.inj h).symm
          | _ => exact (Host.Outcome.next.inj h).symm
        refine .inr (.inr (.inl ⟨i, v, rfl, hb, by rw [setPending_config] at hi; omega, hw, ?_, ht⟩))
        rintro hv rfl
        cases v with
        | reg w => exact hcmd ⟨w, rfl, rfl⟩
        | _ => cases hv

end Sys2Proof.Machine
end

