-- ==== Sys2Proof/Tests/Slice0.lean ====
section
/-! SUPPORT. The model's own tests: the well-formedness smoke test, decoding of words written out from 30_encoding.md,
single steps against the vectors of 95_test_vectors.md, and for each statement with hypotheses a witness that meets them. -/

namespace Sys2Proof.Tests

open Sys2Proof.Machine

/-! Helpers. -/

/-- The next state of an outcome. -/
def nextOf (o : Host.Outcome State Fault Refusal) : Option State :=
  match o with
  | .next t => some t
  | .fault _ => none
  | .refused _ => none

/-- The reset state with these symbols loaded. -/
def withSyms (xs : List Nat) : State :=
  { State.reset with symbuf := Memory.setRange [] 0 xs, symlen := BitVec.ofNat 32 xs.length }

/-- The state with this table loaded. -/
def withTab (t : List Entry) (s : State) : State :=
  { s with codetab := Memory.setRange [] 0 t, tabsize := BitVec.ofNat 32 t.length }

/-- The state with these bytes loaded and this many symbols asked for. -/
def withBytes (ys : List Byte) (c : Nat) (s : State) : State :=
  { s with bytebuf := Memory.setRange [] 0 ys, bytelen := BitVec.ofNat 32 ys.length, symcount := BitVec.ofNat 32 c }

/-- The reset state with these counts. -/
def withCounts (f : Cells Nat) : State := { State.reset with freq := f }

/-- The reset state with the tree of these entries held. -/
def withTree (es : List (Nat × Nat)) : State := buildCommit State.reset es

/-- The reset state with one host operation pending. -/
def withOp (op : HostOp) : State := { State.reset with pending := [op] }

/-- The table `T3` of 95_test_vectors.md. -/
def t3 : List Entry :=
  [{ sym := 0x61, len := 1, code := 0 }, { sym := 0x62, len := 2, code := 2 }, { sym := 0x63, len := 2, code := 3 }]

/-- The table `T2` of 95_test_vectors.md. -/
def t2 : List Entry := [{ sym := 0x61, len := 1, code := 0 }, { sym := 0x62, len := 2, code := 2 }]

/-- The configuration of V-P12 to V-P15: BYTE_CAP = 1, all else as reference. -/
def oneByte : Params := { Params.reference with byteCap := 1, byteCap_pos := by decide, byteCap_bits := by decide }

/-- A configuration with 2-bit symbols and counts, and room for 3 symbols (00_scope.md R6). -/
def small : Params where
  symW := 2
  cntW := 2
  lenW := 6
  symCap := 3
  byteCap := 2
  symW_pos := by decide
  cntW_pos := by decide
  lenW_fits := by decide
  symCap_pos := by decide
  symCap_count := by decide
  symCap_bits := by decide
  byteCap_pos := by decide
  byteCap_bits := by decide
  nodeCap_reg := by decide

/-- The reset state of an instance with these parameters, the table `T3` and these symbols loaded, PACK to be issued. -/
def packIn (c : Params) (xs : List Nat) : State :=
  { withTab t3 (withSyms xs) with config := c, pending := [.write 0 (.reg 5)] }

/-! Configurations (00_scope.md R6). -/

/-- The reference column of 00_scope.md R6, the derived parameters among it. -/
theorem test_reference_configuration :
    State.reset.config.symW = 16 ∧ State.reset.config.nMax = 65536 ∧ State.reset.config.cntW = 32 ∧
    State.reset.config.wtW = 48 ∧ State.reset.config.depthW = 17 ∧ State.reset.config.idxW = 17 ∧
    State.reset.config.nodeCap = 131071 ∧ State.reset.config.tabCap = 65536 ∧ Config.lenMax = 32 ∧
    State.reset.config.lenW = 6 ∧ State.reset.config.symCap = 65536 ∧ State.reset.config.byteCap = 262144 ∧
    Config.regW = 32 := by decide

/-- 00_scope.md R6 with SYM_W = 2 and SYM_CAP = 3: 7 NODE records, 4 table entries, and a fourth symbol is too much for
COUNT. -/
theorem test_small_configuration :
    Space.node.elements small = 7 ∧ Space.codetab.elements small = 4 ∧
    (nextOf (exec .count { withSyms [1, 2, 3] with config := small })).map (·.status) = some 0 ∧
    (nextOf (exec .count { withSyms [1, 2, 3, 0] with config := small })).map (·.status) = some 0x0242 := by decide

/-! Well-formedness: an ill-formed term for each check, refused. -/

theorem test_wellFormed_instr : Instr.wellFormed .encode = true := by decide
/-- 30_encoding.md R93: `zero` is not 0. -/
theorem test_wordLegal_zero_field : wordLegal 0x00000102 = false := by decide
/-- 30_encoding.md R93: opcode 0x00. -/
theorem test_wordLegal_opcode_low : wordLegal 0x00000000 = false := by decide
/-- 30_encoding.md R93: opcode 0x08. -/
theorem test_wordLegal_opcode_high : wordLegal 0x00000008 = false := by decide
/-- 20_memory.md R60, R63: one past the end of each space, to read and to write. -/
theorem test_hostOp_read_ranges :
    HostOp.wellFormed Params.reference (.read .reg 9) = false ∧ HostOp.wellFormed Params.reference (.read .symbuf 65536) = false ∧
    HostOp.wellFormed Params.reference (.read .freq 65536) = false ∧ HostOp.wellFormed Params.reference (.read .node 131071) = false ∧
    HostOp.wellFormed Params.reference (.read .codetab 65536) = false ∧ HostOp.wellFormed Params.reference (.read .bytebuf 262144) = false := by decide
theorem test_hostOp_write_ranges :
    HostOp.wellFormed Params.reference (.write 9 (.reg 0)) = false ∧ HostOp.wellFormed Params.reference (.write 65536 (.sym 0)) = false ∧
    HostOp.wellFormed Params.reference (.write 131071 (.node (leafRec (0, 1)))) = false ∧
    HostOp.wellFormed Params.reference (.write 262144 (.byte 0)) = false ∧ HostOp.wellFormed Params.reference (.write 8 (.reg 0)) = true := by decide

/-- 20_memory.md R60, R67: a value one wider than each kind of field. -/
theorem test_hostOp_widths :
    HostOp.wellFormed Params.reference (.write 0 (.sym 65536)) = false ∧
    HostOp.wellFormed Params.reference (.write 0 (.count (2 ^ 32))) = false ∧
    HostOp.wellFormed Params.reference (.write 0 (.entry { sym := 1, len := 64, code := 0 })) = false ∧
    HostOp.wellFormed Params.reference (.write 0 (.entry { sym := 65536, len := 1, code := 0 })) = false ∧
    HostOp.wellFormed Params.reference (.write 0 (.node (leafRec (1, 2 ^ 48)))) = false ∧
    HostOp.wellFormed Params.reference (.write 0 (.entry { sym := 65535, len := 63, code := 0 })) = true := by decide

/-! Decoding: the words written out bit by bit from 30_encoding.md R90 and R91 (`zero`, then `op`). -/

theorem test_decode_clr : decode 0b00000000000000000000000000000001#32 = .ok .clr := by decide
theorem test_decode_count : decode 0b00000000000000000000000000000010#32 = .ok .count := by decide
theorem test_decode_build : decode 0b00000000000000000000000000000011#32 = .ok .build := by decide
theorem test_decode_derive : decode 0b00000000000000000000000000000100#32 = .ok .derive := by decide
theorem test_decode_pack : decode 0b00000000000000000000000000000101#32 = .ok .pack := by decide
theorem test_decode_unpack : decode 0b00000000000000000000000000000110#32 = .ok .unpack := by decide
theorem test_decode_encode : decode 0b00000000000000000000000000000111#32 = .ok .encode := by decide
theorem test_decode_upper_bit : decode 0b10000000000000000000000000000001#32 = .error .zeroFieldNotZero := by decide
theorem test_decodeTableWord : decodeTableWord 32 7 = some .encode ∧ decodeTableWord 32 8 = none ∧
    decodeTableWord 32 (2 ^ 32 + 7) = none := by decide

/-! Single steps, against 95_test_vectors.md. -/

/-- V-C1. -/
theorem test_count_example :
    (nextOf (exec .count (withSyms [0x61, 0x62, 0x61, 0x61, 0x63]))).map (fun t => (t.freq, t.status)) =
      some ([(0x61, 3), (0x62, 1), (0x63, 1)], 0) := by decide

/-- V-C3: STATUS 0x0242. -/
theorem test_count_capacity :
    (nextOf (exec .count { State.reset with symlen := 65537 })).map (·.status) = some 0x0242 := by decide

/-- V-B7: a leaf and a branch of equal weight; the larger key is lighter. -/
theorem test_build_tie_leaf_lighter :
    (nextOf (exec .build (withCounts [(1, 1), (2, 1), (3, 2)]))).map (fun t => (t.node.drop 3, t.nodecnt, t.nleaf)) =
      some ([(3, { kind := .branch, weight := 2, depth := 2, key := 1, left := 0, right := 1 }),
             (4, { kind := .branch, weight := 4, depth := 3, key := 1, left := 3, right := 2 })], 5, 3) := by decide

/-- V-B2: all weights equal. -/
theorem test_build_all_equal :
    (nextOf (exec .build (withCounts [(1, 1), (2, 1), (3, 1), (4, 1)]))).map (fun t => t.node.drop 4) =
      some [(4, { kind := .branch, weight := 2, depth := 2, key := 3, left := 2, right := 3 }),
            (5, { kind := .branch, weight := 2, depth := 2, key := 1, left := 0, right := 1 }),
            (6, { kind := .branch, weight := 4, depth := 3, key := 1, left := 5, right := 4 })] := by decide

/-- V-D8. -/
theorem test_derive_table :
    (nextOf (exec .derive (withTree [(1, 1), (2, 1), (3, 2), (4, 3), (5, 5)]))).map
        (fun t => (t.codetab.map fun c => (c.2.sym, c.2.len, c.2.code), t.tabsize, t.nodecnt)) =
      some ([(1, 4, 0), (2, 4, 1), (3, 3, 1), (4, 2, 1), (5, 1, 1)], 5, 0) := by decide

/-- V-D3: STATUS 0x0452. -/
theorem test_derive_sequence : (nextOf (exec .derive State.reset)).map (·.status) = some 0x0452 := by decide

/-- V-P3: a code crosses a byte boundary. -/
theorem test_pack_crosses_byte :
    (nextOf (exec .pack (withTab t3 (withSyms [0x61, 0x61, 0x61, 0x62, 0x63, 0x63, 0x61, 0x62])))).map
        (fun t => (t.bytebuf, t.bitlen, t.bytelen, t.symcount)) = some ([(0, 0x17), (1, 0xA0)], 12, 2, 8) := by decide

/-- V-P12 and V-P13: in the configuration with BYTE_CAP = 1, 8 bits fit and 9 do not; STATUS 0x0542. -/
theorem test_pack_small_bytebuf :
    (nextOf (step (packIn oneByte [0x62, 0x62, 0x62, 0x62]))).map
        (fun t => decide (t.bitlen = 8 ∧ t.bytelen = 1 ∧ t.bytebuf = [(0, 0xAA)] ∧ t.symcount = 4 ∧ t.status = 0)) =
      some true ∧
    (nextOf (step (packIn oneByte [0x62, 0x62, 0x62, 0x62, 0x61]))).map
        (fun t => decide (t.bitlen = 0 ∧ t.bytelen = 0 ∧ t.bytebuf = [] ∧ t.symcount = 0 ∧ t.status = 0x0542)) =
      some true := by decide

/-- V-P14 and V-P15: with BYTE_CAP = 1 the error that comes first in the input is the one reported. -/
theorem test_pack_order_of_errors :
    (nextOf (step (packIn oneByte [0x62, 0x62, 0x62, 0x62, 0x61, 0x64]))).map (·.status) = some 0x0542 ∧
    (nextOf (step (packIn oneByte [0x62, 0x62, 0x62, 0x64, 0x62, 0x61]))).map (·.status) = some 0x0522 := by decide

/-- V-U6: trailing bytes are ignored. -/
theorem test_unpack_example :
    (nextOf (exec .unpack (withBytes [0x46, 0xFF, 0xFF] 5 (withTab t3 State.reset)))).map
        (fun t => (t.symbuf.map (·.2), t.symlen, t.status)) = some ([0x61, 0x62, 0x61, 0x61, 0x63], 5, 0) := by decide

/-- V-U10: an entry is missing; STATUS 0x0632 and no partial result. -/
theorem test_unpack_missing_entry :
    (nextOf (exec .unpack (withBytes [0x46] 5 (withTab t2 (withSyms [1, 2]))))).map
        (fun t => (t.symbuf, t.symlen, t.status)) = some ([], 0, 0x0632) := by decide

/-- V-E6: "abracadabra". -/
theorem test_encode_abracadabra :
    (nextOf (exec .encode (withSyms [0x61, 0x62, 0x72, 0x61, 0x63, 0x61, 0x64, 0x61, 0x62, 0x72, 0x61]))).map
        (fun t => (t.codetab.map fun c => (c.2.sym, c.2.len, c.2.code), t.bytebuf.map (·.2), t.bitlen, t.nleaf)) =
      some ([(0x63, 4, 0), (0x64, 4, 1), (0x72, 3, 1), (0x62, 2, 1), (0x61, 1, 1)], [0xA6, 0x11, 0xA6], 23, 5) := by decide

/-- V-E3: STATUS 0x0212, ERROP names the COUNT sub-step. -/
theorem test_encode_empty : (nextOf (exec .encode State.reset)).map (·.status) = some 0x0212 := by decide

/-- V-X6: CMD stays, the rest is scrubbed. -/
theorem test_clr :
    (nextOf (step { withTab t3 (withSyms [1]) with pending := [.write 0 (.reg 1)], bitlen := 7, cmd := 7 })).map
      (fun t => decide (t = { State.reset with cmd := 1 })) = some true := by decide

/-- V-X3: COUNT's opcode with an upper bit is not COUNT; STATUS 0x0262. -/
theorem test_illegal_word :
    (nextOf (step { withSyms [1, 2] with pending := [.write 0 (.reg 0x102)] })).map
      (fun t => (t.cmd, t.status, t.freq)) = some (0x102, 0x0262, []) := by decide

/-- V-X7: writes to read-only places are ignored. -/
theorem test_write_readonly :
    nextOf (step (withOp (.write 1 (.reg 0xFFFFFFFF)))) = some State.reset ∧
    nextOf (step (withOp (.write 7 (.reg 5)))) = some State.reset ∧
    nextOf (step (withOp (.write 0 (.node (leafRec (0, 1)))))) = some State.reset := by decide

/-- V-X9: FREQ reads 0 after reset. -/
theorem test_read_freq :
    (nextOf (step (withOp (.read .freq 0x1234)))).map (fun t => (t.readLog, t.draws)) = some ([.count 0], 0) := by decide

/-- 93_implementation_defined.md U3: reading an unwritten cell draws a free value; nothing is said of the value. -/
theorem test_read_unwritten :
    (nextOf (step (withOp (.read .symbuf 0)))).map (fun t => (t.readLog.length, t.draws)) = some (1, 1) := by decide

/-- Every command word, fetched first after reset, runs. -/
theorem test_fetch_first :
    (nextOf (step (State.reset.withFetchWord 32 3))).map (fun t => (t.cmd, t.status)) = some (3, 0x0312) ∧
    (nextOf (step (State.reset.withFetchWord 32 5))).map (fun t => (t.cmd, t.status)) = some (5, 0) := by decide

/-- The 30 bytes of 20_memory.md R73's example. -/
theorem test_serialise :
    serialise Params.reference { table := t3, symbolCount := 5, packedBytes := [0x46] } =
      some [0, 0, 0, 5, 0, 0, 0, 3, 0, 0x61, 1, 0, 0, 0, 0, 0, 0x62, 2, 0, 0, 0, 2, 0, 0x63, 2, 0, 0, 0, 3, 0x46] := by decide

/-- Reading 20_memory.md R73's example back; and the streams the model reads no payload from (log entry 12): a length byte
of 65, an entry cut short, fewer than 8 bytes. -/
theorem test_deserialise :
    deserialise Params.reference
        [0, 0, 0, 5, 0, 0, 0, 3, 0, 0x61, 1, 0, 0, 0, 0, 0, 0x62, 2, 0, 0, 0, 2, 0, 0x63, 2, 0, 0, 0, 3, 0x46] =
      some { table := t3, symbolCount := 5, packedBytes := [0x46] } ∧
    deserialise Params.reference [0, 0, 0, 1, 0, 0, 0, 1, 0, 0x61, 65, 0, 0, 0, 0] = none ∧
    deserialise Params.reference [0, 0, 0, 1, 0, 0, 0, 1, 0, 0x61, 1, 0, 0, 0] = none ∧
    deserialise Params.reference [0, 0, 0, 0, 0, 0, 0] = none := by decide

/-- 42_code_table_gen.md R150: tables that fail W1, W2, W3, W4, and one that passes. -/
theorem test_tableWF :
    tableWF [{ sym := 0x61, len := 33, code := 0 }] = false ∧ tableWF [{ sym := 0x61, len := 1, code := 2 }] = false ∧
    tableWF [{ sym := 0x61, len := 1, code := 0 }, { sym := 0x61, len := 2, code := 2 }] = false ∧
    tableWF [{ sym := 0x61, len := 2, code := 2 }, { sym := 0x62, len := 1, code := 1 }] = false ∧
    tableWF t2 = true := by decide

/-! Witnesses: for each statement with hypotheses a state and operands that meet them together, at the edges of their
ranges. -/

/-- The entries of V-D5 (33 of them) and V-D4 (34): Fibonacci counts. -/
def fibEntries (n : Nat) : List (Nat × Nat) :=
  ([1, 1, 2, 3, 5, 8, 13, 21, 34, 55, 89, 144, 233, 377, 610, 987, 1597, 2584, 4181, 6765, 10946, 17711, 28657, 46368,
    75025, 121393, 196418, 317811, 514229, 832040, 1346269, 2178309, 3524578, 5702887] : List Nat).take n
  |>.zipIdx.map fun c => (c.2, c.1)

/-- The three-symbol tree of 41_huffman_tree_builder.md R131. -/
def tree3 : State := withTree [(0x61, 3), (0x62, 1), (0x63, 1)]

/-- A full SYMBUF: SYM_CAP copies of one symbol. -/
def fullSyms : State := withSyms (List.replicate 65536 7)

theorem symbolsAre_withSyms (xs : List Nat) (h : xs.length < 2 ^ 32) : SymbolsAre (withSyms xs) xs :=
  ⟨by simp only [withSyms, BitVec.toNat_ofNat]; exact Nat.mod_eq_of_lt h, holds_setRange _ _⟩

theorem symbolsAre_fullSyms : SymbolsAre fullSyms (List.replicate 65536 7) :=
  symbolsAre_withSyms _ (by rw [List.length_replicate]; decide)

theorem symbolsAre_withTab {s : State} {xs : List Nat} {t : List Entry} (h : SymbolsAre s xs) :
    SymbolsAre (withTab t s) xs := h

theorem tableIs_withTab (t : List Entry) (s : State) (h : t.length < 2 ^ 32) : TableIs (withTab t s) t :=
  ⟨by simp only [withTab, BitVec.toNat_ofNat]; exact Nat.mod_eq_of_lt h, holds_setRange _ _⟩

theorem bytesAre_withBytes (ys : List Byte) (c : Nat) (s : State) (h : ys.length < 2 ^ 32) :
    BytesAre (withBytes ys c s) ys :=
  ⟨by simp only [withBytes, BitVec.toNat_ofNat]; exact Nat.mod_eq_of_lt h, holds_setRange _ _⟩

/-- A held tree with a property, from the property's evaluation. -/
theorem heldTree_of_any {s : State} {p : CodeTree → Bool} (h : (heldTree s).any p = true) :
    ∃ T, heldTree s = some T ∧ p T = true := by
  cases hs : heldTree s with
  | none => rw [hs] at h; simp at h
  | some T => rw [hs] at h; exact ⟨T, rfl, by simpa using h⟩

theorem inv_tree3 : Inv tree3 where
  memories := by decide
  widths := by decide
  status := by decide
  leaves := by decide
  bits := by decide
  tree := .inr
    { counts := by decide, records := by decide, rising := by decide
      whole := by
        obtain ⟨T, h, hp⟩ := heldTree_of_any (s := tree3)
          (p := fun T => (treeSymbols T).length == 3 && decide ((treeSymbols T).Nodup) && heavierLeft T) (by decide)
        simp only [Bool.and_eq_true, beq_iff_eq, decide_eq_true_eq] at hp
        exact ⟨T, h, hp.1.1, hp.1.2, hp.2⟩ }

theorem inv_fib33 : Inv (withTree (fibEntries 33)) where
  memories := by decide +kernel
  widths := by decide +kernel
  status := by decide
  leaves := by decide +kernel
  bits := by decide
  tree := .inr
    { counts := by decide +kernel, records := by decide +kernel, rising := by decide +kernel
      whole := by
        obtain ⟨T, h, hp⟩ := heldTree_of_any (s := withTree (fibEntries 33))
          (p := fun T => (treeSymbols T).length == 33 && decide ((treeSymbols T).Nodup) && heavierLeft T)
          (by decide +kernel)
        simp only [Bool.and_eq_true, beq_iff_eq, decide_eq_true_eq] at hp
        exact ⟨T, h, hp.1.1, hp.1.2, hp.2⟩ }

theorem inv_fib34 : Inv (withTree (fibEntries 34)) where
  memories := by decide +kernel
  widths := by decide +kernel
  status := by decide
  leaves := by decide +kernel
  bits := by decide
  tree := .inr
    { counts := by decide +kernel, records := by decide +kernel, rising := by decide +kernel
      whole := by
        obtain ⟨T, h, hp⟩ := heldTree_of_any (s := withTree (fibEntries 34))
          (p := fun T => (treeSymbols T).length == 34 && decide ((treeSymbols T).Nodup) && heavierLeft T)
          (by decide +kernel)
        simp only [Bool.and_eq_true, beq_iff_eq, decide_eq_true_eq] at hp
        exact ⟨T, h, hp.1.1, hp.1.2, hp.2⟩ }

theorem witness_DecodeOfEncodeIsTheCommand : Instr.wellFormed .clr = true ∧ Instr.wellFormed .encode = true := by decide

theorem witness_StepRunsTheDecodedCommand :
    (withOp (.write 0 (.reg 7))).pending = .write 0 (.reg 7) :: [] ∧
    statusBusy (withOp (.write 0 (.reg 7))).status = false ∧ decode 7 = .ok .encode := by decide

theorem witness_FetchWordIsRunNext : decodeTableWord 32 1 = some .clr ∧ decodeTableWord 32 7 = some .encode := by decide

theorem witness_IllegalWordChangesOnlyCmdAndStatus :
    statusBusy (withOp (.write 0 (.reg 0x100))).status = false ∧ (0x100#32).extractLsb' 8 24 ≠ 0 ∧
    ((0#32).extractLsb' 0 8).toNat = 0 ∧ 8 ≤ ((8#32).extractLsb' 0 8).toNat ∧
    8 ≤ ((0xFF#32).extractLsb' 0 8).toNat := by decide

theorem witness_HostReadReturnsTheElement :
    statusBusy (withOp (.read .reg 8)).status = false ∧ 8 < Space.reg.elements State.reset.config ∧ 65535 < Space.symbuf.elements State.reset.config ∧
    65535 < Space.freq.elements State.reset.config ∧ 131070 < Space.node.elements State.reset.config ∧ 65535 < Space.codetab.elements State.reset.config ∧
    262143 < Space.bytebuf.elements State.reset.config ∧ Memory.get (withSyms [5]).symbuf 0 = some 5 ∧
    4 < tree3.nodecnt.toNat ∧ (Memory.get tree3.node 4).isSome = true ∧
    Memory.get (withTab t3 State.reset).codetab 2 = some { sym := 0x63, len := 2, code := 3 } ∧
    Memory.get (withBytes [0x46] 5 State.reset).bytebuf 0 = some 0x46 := by decide

theorem witness_HostReadReturnsTheElement_busy :
    statusBusy { State.reset with status := 1, pending := [.read .reg 1] }.status = true ∧ 1 < Space.reg.elements State.reset.config := by
  decide

theorem witness_HostWriteStoresOrIsIgnored :
    statusBusy State.reset.status = false ∧
    ([(8, .reg 0), (2, .reg 5), (65535, .sym 1), (65535, .count 0), (131070, .node (leafRec (0, 1))),
      (65535, .entry { sym := 0, len := 1, code := 0 }), (262143, .byte 255)] : List (Nat × Element)).all
      (fun c => decide (c.1 < c.2.space.elements State.reset.config ∧ c.2.fits State.reset.config = true ∧
        (c.2.space = .reg → c.1 ≠ 0))) = true := by decide

theorem witness_HostAccessRefusals :
    statusBusy State.reset.status = false ∧ Space.reg.elements State.reset.config ≤ 9 ∧ Space.node.elements State.reset.config ≤ 131071 ∧
    (Element.byte 0).space.elements State.reset.config ≤ 262144 ∧ statusBusy { State.reset with status := 1 }.status = true ∧
    0 < (Element.sym 65536).space.elements State.reset.config ∧ (Element.sym 65536).fits State.reset.config = false ∧
    ¬ (Space.reg = Space.reg ∧ 2 = 1) ∧ ¬ (Space.freq = Space.reg ∧ 1 = 1) := by decide

theorem witness_ResetFromAnyState :
    { tree3 with status := 1, pending := [HostOp.reset] }.pending = .reset :: [] := rfl

theorem witness_IdleBlockDoesNothing : State.reset.pending = [] := rfl

theorem witness_ResetAndClearedValues :
    { tree3 with pending := [.write 0 (.reg 1)] }.pending = .write 0 (.reg 0x00000001) :: [] ∧
    statusBusy { tree3 with pending := [.write 0 (.reg 1)] }.status = false := by decide

theorem witness_StepKeepsInv : Inv State.reset ∧ step State.reset = .next State.reset :=
  ⟨⟨rfl, rfl, rfl, by decide, by decide, .inl rfl⟩, rfl⟩

/-- The invariant in the small configuration, at the edges of its widths. -/
theorem witness_StepKeepsInv_small :
    Inv { withSyms [3, 3, 3] with config := small, freq := [(3, 3)], pending := [.write 0 (.reg 2)] } :=
  ⟨by decide, by decide, by decide, by decide, by decide, .inl rfl⟩

theorem witness_StepKeepsInv_with_tree : Inv tree3 ∧ ∃ t, step tree3 = .next t := ⟨inv_tree3, _, rfl⟩

theorem witness_CountTalliesTheSymbols :
    SymbolsAre (withSyms [0xFFFF]) [0xFFFF] ∧ 1 ≤ ([0xFFFF] : List Nat).length ∧
    ([0xFFFF] : List Nat).length ≤ State.reset.config.symCap := ⟨symbolsAre_withSyms _ (by decide), by decide, by decide⟩

theorem witness_CountTalliesTheSymbols_full :
    SymbolsAre fullSyms (List.replicate 65536 7) ∧ 1 ≤ (List.replicate 65536 (7 : Nat)).length ∧
    (List.replicate 65536 (7 : Nat)).length ≤ State.reset.config.symCap := by
  rw [List.length_replicate]
  exact ⟨symbolsAre_fullSyms, by decide, by decide⟩

theorem witness_CountErrorsAndUnwritten :
    State.reset.config.symCap < { State.reset with symlen := 65537 }.symlen.toNat ∧ State.reset.symlen = 0 ∧
    { State.reset with symlen := 65536 }.symlen.toNat ≤ State.reset.config.symCap ∧
    65535 < { State.reset with symlen := 65536 }.symlen.toNat ∧
    Memory.get { State.reset with symlen := 65536 }.symbuf 65535 = none := by decide

theorem witness_CountSumsAndIgnoresOrder :
    SymbolsAre (withSyms [2, 1]) [2, 1] ∧ (∃ t, exec .count (withSyms [2, 1]) = .next t ∧ t.status = 0) ∧
    AreSymbols (withSyms [2, 1]) [2, 1] ∧ SymbolsAre (withSyms [1, 2]) [1, 2] ∧
    (withSyms [1, 2]).config = (withSyms [2, 1]).config ∧ ([2, 1] : List Nat).Perm [1, 2] :=
  ⟨symbolsAre_withSyms _ (by decide), ⟨_, rfl, rfl⟩, by unfold AreSymbols; decide, symbolsAre_withSyms _ (by decide), rfl,
    by decide⟩

/-- The largest symbols of the small configuration, and COUNT's largest input there. -/
theorem witness_CountSumsAndIgnoresOrder_small :
    SymbolsAre { withSyms [3, 3, 3] with config := small } [3, 3, 3] ∧
    AreSymbols { withSyms [3, 3, 3] with config := small } [3, 3, 3] ∧
    ∃ t, exec .count { withSyms [3, 3, 3] with config := small } = .next t ∧ t.status = 0 :=
  ⟨symbolsAre_withSyms [3, 3, 3] (by decide), by unfold AreSymbols; decide, _, rfl, rfl⟩

theorem witness_BuildWithoutEntries :
    freqWf State.reset.config State.reset.freq = true ∧ (∀ k, freqGet State.reset.freq k = 0) ∧
    ∃ t, exec .encode State.reset = .next t := ⟨rfl, fun _ => rfl, _, rfl⟩

theorem present_of_get {s : State} {x : Nat} (hx : x < s.config.nMax) (h : freqGet s.freq x ≠ 0) :
    x ∈ PresentSymbols s := by
  simpa [PresentSymbols] using And.intro hx h

theorem witness_BuildMakesTheLeaves :
    freqWf (withCounts [(0, 1), (65535, 0xFFFFFFFF)]).config (withCounts [(0, 1), (65535, 0xFFFFFFFF)]).freq = true ∧
    (PresentSymbols (withCounts [(0, 1), (65535, 0xFFFFFFFF)])).Nonempty :=
  ⟨by decide, 0xFFFF, present_of_get (by decide) (by decide)⟩

/-- The same state meets the hypotheses of `BuildMergesTheTwoLightest`, `BuildRootWeighsAllCounts` and
`BuiltTreeIsSound`; node 2 is the branch. -/
theorem witness_BuildSucceeds :
    freqWf (withCounts [(0, 1), (65535, 1)]).config (withCounts [(0, 1), (65535, 1)]).freq = true ∧
    ∃ t, exec .build (withCounts [(0, 1), (65535, 1)]) = .next t ∧ t.status = 0 ∧ t.nleaf.toNat ≤ 2 ∧
      2 < t.nodecnt.toNat := ⟨by decide, _, rfl, by decide, by decide, by decide⟩

theorem witness_SingleSymbolTreeAndCode :
    freqWf (withCounts [(7, 4)]).config (withCounts [(7, 4)]).freq = true ∧ PresentSymbols (withCounts [(7, 4)]) = {7} := by
  refine ⟨by decide, ?_⟩
  ext x
  simp only [PresentSymbols, Finset.mem_filter, Finset.mem_range, Finset.mem_singleton, withCounts, freqGet, Memory.get]
  constructor
  · rintro ⟨_, h⟩
    by_contra hx
    exact h (by rw [if_neg (Ne.symm hx)]; rfl)
  · rintro rfl; decide

theorem witness_BuiltTreeIsOptimal :
    ∃ t T U, exec .build (withCounts [(1, 1), (2, 1)]) = .next t ∧ t.status = 0 ∧ heldTree t = some T ∧
      (treeSymbols U).Perm (treeSymbols T) := by
  refine ⟨_, .branch 2 2 (.leaf 1 1 1) (.leaf 2 1 1), .branch 2 2 (.leaf 2 1 1) (.leaf 1 1 1), rfl, by decide, by decide,
    by decide⟩

theorem witness_BuildDependsOnCountsAlone :
    freqWf (withCounts [(1, 1)]).config (withCounts [(1, 1)]).freq = true ∧
    (∀ k, freqGet (withCounts [(1, 1)]).freq k = freqGet { tree3 with freq := [(1, 1)] }.freq k) ∧
    (∃ t, exec .build (withCounts [(1, 1)]) = .next t) ∧ ∃ t, exec .build { tree3 with freq := [(1, 1)] } = .next t :=
  ⟨by decide, fun _ => rfl, ⟨_, rfl⟩, ⟨_, rfl⟩⟩

theorem witness_DeriveWithoutTree : (withTab t3 State.reset).nodecnt = 0 := rfl

/-- Two codes of exactly LEN_MAX bits (V-D5). -/
theorem witness_DeriveWritesTheCodes :
    Inv (withTree (fibEntries 33)) ∧ ∃ T, heldTree (withTree (fibEntries 33)) = some T ∧
      (∀ c ∈ codesOfTree T, c.2.length ≤ Config.lenMax) ∧ ∃ c ∈ codesOfTree T, c.2.length = 32 := by
  refine ⟨inv_fib33, ?_⟩
  obtain ⟨T, h, hp⟩ := heldTree_of_any (s := withTree (fibEntries 33))
    (p := fun T => decide (∀ c ∈ codesOfTree T, c.2.length ≤ Config.lenMax) &&
      decide (∃ c ∈ codesOfTree T, c.2.length = 32)) (by decide +kernel)
  simp only [Bool.and_eq_true, decide_eq_true_eq] at hp
  exact ⟨T, h, hp.1, hp.2⟩

/-- Two codes of 33 bits (V-D4). -/
theorem witness_DeriveCodeTooLong :
    Inv (withTree (fibEntries 34)) ∧ ∃ T, heldTree (withTree (fibEntries 34)) = some T ∧
      ∃ c ∈ codesOfTree T, Config.lenMax < c.2.length := by
  refine ⟨inv_fib34, ?_⟩
  obtain ⟨T, h, hp⟩ := heldTree_of_any (s := withTree (fibEntries 34))
    (p := fun T => decide (∃ c ∈ codesOfTree T, Config.lenMax < c.2.length)) (by decide +kernel)
  exact ⟨T, h, by simpa using hp⟩

/-- V-D1; the same state and table meet the hypotheses of `DerivedTableIsWellFormed`, `DerivedTableIsComplete` (two or
more symbols) and `DerivedTableIsInCodeOrder`. -/
theorem witness_DerivedTable :
    Inv tree3 ∧ ∃ t, exec .derive tree3 = .next t ∧ t.status = 0 ∧ TableIs t t3 := by
  refine ⟨inv_tree3, _, rfl, by decide, ?_⟩
  unfold TableIs Holds
  decide

theorem inv_tree1 : Inv (withTree [(7, 4)]) where
  memories := by decide
  widths := by decide
  status := by decide
  leaves := by decide
  bits := by decide
  tree := .inr
    { counts := by decide, records := by decide, rising := by decide
      whole := ⟨.leaf 7 4 1, by decide, by decide, by decide, by decide⟩ }

/-- One symbol: the other clause of `DerivedTableIsComplete` (V-D2). -/
theorem witness_DerivedTable_single :
    Inv (withTree [(7, 4)]) ∧ ∃ t, exec .derive (withTree [(7, 4)]) = .next t ∧ t.status = 0 ∧
      TableIs t [{ sym := 7, len := 1, code := 0 }] := by
  refine ⟨inv_tree1, _, rfl, by decide, ?_⟩
  unfold TableIs Holds
  decide

theorem witness_MalformedTableIsRejected :
    TableIs (withTab [{ sym := 0x61, len := 0, code := 0 }] (withSyms [0x61])) [{ sym := 0x61, len := 0, code := 0 }] ∧
    tableWF [{ sym := 0x61, len := 0, code := 0 }] = false ∧
    (withTab [{ sym := 0x61, len := 0, code := 0 }] { State.reset with symlen := 65536 }).symlen.toNat ≤ State.reset.config.symCap ∧
    (withTab [{ sym := 0x61, len := 0, code := 0 }] { State.reset with bytelen := 262144 }).bytelen.toNat ≤
      State.reset.config.byteCap := ⟨tableIs_withTab _ _ (by decide), by decide, by decide, by decide⟩

theorem coded_t3 : Coded t3 [0x61, 0x63] [[false], [true, true]] := by
  refine .cons ⟨{ sym := 0x61, len := 1, code := 0 }, by decide, rfl, by decide⟩
    (.cons ⟨{ sym := 0x63, len := 2, code := 3 }, by decide, rfl, by decide⟩ .nil)

theorem witness_PackWritesTheCodes :
    SymbolsAre (withTab t3 (withSyms [0x61, 0x63])) [0x61, 0x63] ∧
    TableIs (withTab t3 (withSyms [0x61, 0x63])) t3 ∧ tableWF t3 = true ∧
    Coded t3 [0x61, 0x63] [[false], [true, true]] ∧
    ([[false], [true, true]] : List Bits).flatten.length ≤ 8 * State.reset.config.byteCap :=
  ⟨symbolsAre_withSyms [0x61, 0x63] (by decide), tableIs_withTab _ _ (by decide), by decide, coded_t3, by decide⟩

/-- A full SYMBUF of 32-bit codes: exactly 8 BYTE_CAP bits. -/
theorem witness_PackWritesTheCodes_full :
    SymbolsAre (withTab [{ sym := 7, len := 32, code := 0xFFFFFFFF }] fullSyms) (List.replicate 65536 7) ∧
    (List.replicate 65536 (7 : Nat)).length ≤ State.reset.config.symCap ∧
    tableWF [{ sym := 7, len := 32, code := 0xFFFFFFFF }] = true ∧
    Coded [{ sym := 7, len := 32, code := 0xFFFFFFFF }] (List.replicate 65536 7)
      (List.replicate 65536 (List.replicate 32 true)) ∧
    (List.replicate 65536 (List.replicate 32 true)).flatten.length = 8 * State.reset.config.byteCap := by
  have h : ∀ n, Coded [{ sym := 7, len := 32, code := 0xFFFFFFFF }] (List.replicate n 7)
      (List.replicate n (List.replicate 32 true)) := by
    intro n
    induction n with
    | zero => exact .nil
    | succ n ih =>
      exact .cons ⟨{ sym := 7, len := 32, code := 0xFFFFFFFF }, List.mem_singleton.2 rfl, rfl, by decide⟩ ih
  refine ⟨symbolsAre_withTab symbolsAre_fullSyms, by rw [List.length_replicate]; decide, by decide, h 65536, ?_⟩
  rw [List.length_flatten, List.map_replicate, List.sum_replicate, List.length_replicate]
  decide

theorem witness_PackErrors :
    State.reset.config.symCap < { State.reset with symlen := 65537 }.symlen.toNat ∧
    State.reset.config.tabCap < { State.reset with tabsize := 65537 }.tabsize.toNat ∧
    TableIs (withTab t3 (withSyms [0x61, 0x63, 0x64])) t3 ∧ tableWF t3 = true ∧
    ([0x61, 0x63] : List Nat).length < (withTab t3 (withSyms [0x61, 0x63, 0x64])).symlen.toNat ∧
    Holds (withTab t3 (withSyms [0x61, 0x63, 0x64])).symbuf ([0x61, 0x63] ++ [0x64]) ∧
    Coded t3 [0x61, 0x63] [[false], [true, true]] ∧
    ([[false], [true, true]] : List Bits).flatten.length ≤ 8 * State.reset.config.byteCap ∧ ∀ e ∈ t3, e.sym ≠ 0x64 :=
  ⟨by decide, by decide, tableIs_withTab _ _ (by decide), by decide, by decide, holds_setRange _ _, coded_t3, by decide,
    by decide⟩

/-- V-P13: BYTE_CAP = 1, eight bits gathered, one more to come. -/
theorem witness_PackErrors_overflow :
    TableIs (packIn oneByte [0x62, 0x62, 0x62, 0x62, 0x61]) t3 ∧ tableWF t3 = true ∧ t3.length ≤ oneByte.tabCap ∧
    (packIn oneByte [0x62, 0x62, 0x62, 0x62, 0x61]).symlen.toNat ≤ oneByte.symCap ∧
    (List.replicate 4 0x62).length < (packIn oneByte [0x62, 0x62, 0x62, 0x62, 0x61]).symlen.toNat ∧
    Holds (packIn oneByte [0x62, 0x62, 0x62, 0x62, 0x61]).symbuf ([0x62, 0x62, 0x62, 0x62] ++ [0x61]) ∧
    Coded t3 (List.replicate 4 0x62) (List.replicate 4 [true, false]) ∧
    (List.replicate 4 [true, false]).flatten.length ≤ 8 * oneByte.byteCap ∧
    ({ sym := 0x61, len := 1, code := 0 } : Entry) ∈ t3 ∧
    8 * oneByte.byteCap < (List.replicate 4 [true, false]).flatten.length + 1 := by
  have h : ∃ e ∈ t3, e.sym = 0x62 ∧ [true, false] = entryBits e :=
    ⟨{ sym := 0x62, len := 2, code := 2 }, by decide, rfl, by decide⟩
  exact ⟨tableIs_withTab t3 (withSyms [0x62, 0x62, 0x62, 0x62, 0x61]) (by decide), by decide, by decide, by decide, by decide,
    holds_setRange _ _, .cons h (.cons h (.cons h (.cons h .nil))), by decide, by decide, by decide⟩

theorem witness_GatheringStaysWithinCapacity :
    ([] : Bits).length ≤ 8 * 1 ∧
    gatherBits 1 t3 (withSyms [0x62, 0x62, 0x62, 0x62]).symbuf 4 0 [] =
      .ok [true, false, true, false, true, false, true, false] ∧
    gatherBits 1 t3 (withSyms [0x62, 0x62, 0x62, 0x62, 0x61]).symbuf 5 0 [] = .raised .capacity := by decide

theorem witness_PackingIsPositional :
    1 < (packBits (List.replicate 9 true)).length ∧ ¬ 8 * 1 + 7 < (List.replicate 9 true).length ∧
    15 < (unpackBits [0x46, 0xFF]).length ∧ 15 / 8 < ([0x46, 0xFF] : List Byte).length := by decide

theorem witness_UnpackReturnsTheCodedSymbols :
    (withBytes [0x6F] 2 (withTab t3 State.reset)).symcount.toNat = ([0x61, 0x63] : List Nat).length ∧
    TableIs (withBytes [0x6F] 2 (withTab t3 State.reset)) t3 ∧ tableWF t3 = true ∧
    BytesAre (withBytes [0x6F] 2 (withTab t3 State.reset)) [0x6F] ∧ Coded t3 [0x61, 0x63] [[false], [true, true]] ∧
    unpackBits [0x6F] = [[false], [true, true]].flatten ++ [false, true, true, true, true] :=
  ⟨by decide, tableIs_withTab t3 State.reset (by decide), by decide, bytesAre_withBytes _ _ _ (by decide), coded_t3,
    by decide⟩

theorem witness_UnpackSuccessIsExact :
    ∃ t, exec .unpack (withBytes [0x6F] 2 (withTab t3 State.reset)) = .next t ∧ t.status = 0 := ⟨_, rfl, by decide⟩

/-- V-U8: no byte, one symbol asked for. -/
theorem witness_UnpackErrors :
    State.reset.config.symCap < { State.reset with symcount := 65537 }.symcount.toNat ∧
    State.reset.config.tabCap < { State.reset with tabsize := 65537 }.tabsize.toNat ∧
    State.reset.config.byteCap < { State.reset with bytelen := 262145 }.bytelen.toNat ∧
    TableIs (withBytes [] 1 (withTab t3 State.reset)) t3 ∧ tableWF t3 = true ∧
    BytesAre (withBytes [] 1 (withTab t3 State.reset)) [] ∧
    ¬ ∃ xs cs rest, Coded t3 xs cs ∧ xs.length = (withBytes [] 1 (withTab t3 State.reset)).symcount.toNat ∧
      unpackBits [] = cs.flatten ++ rest := by
  refine ⟨by decide, by decide, by decide, tableIs_withTab t3 State.reset (by decide), by decide,
    bytesAre_withBytes _ _ _ (by decide), ?_⟩
  rintro ⟨xs, cs, rest, hc, hl, hb⟩
  have h1 : (withBytes [] 1 (withTab t3 State.reset)).symcount.toNat = 1 := by decide
  rw [h1] at hl
  cases hc with
  | nil => simp at hl
  | cons h _ =>
    obtain ⟨e, he, _, rfl⟩ := h
    have hlen : 0 < (entryBits e).length := by
      rw [entryBits, length_bitsOf]
      have : ∀ e ∈ t3, 0 < e.len := by decide
      exact this e he
    have := congrArg List.length hb
    simp [unpackBits] at this
    omega

theorem witness_UnpackOfZeroSymbols :
    { withTab t3 State.reset with bytelen := 262144 }.symcount = 0 ∧
    { withTab t3 State.reset with bytelen := 262144 }.bytelen.toNat ≤ State.reset.config.byteCap ∧
    TableIs { withTab t3 State.reset with bytelen := 262144 } t3 ∧ tableWF t3 = true :=
  ⟨rfl, by decide, tableIs_withTab t3 State.reset (by decide), by decide⟩

theorem witness_EncodeCompletes :
    SymbolsAre (withSyms [65535]) [65535] ∧ AreSymbols (withSyms [65535]) [65535] ∧
    1 ≤ ([65535] : List Nat).length ∧ ([65535] : List Nat).length ≤ State.reset.config.symCap := by
  refine ⟨symbolsAre_withSyms _ (by decide), ?_, by decide, by decide⟩
  unfold AreSymbols; decide

theorem witness_EncodeCompletes_full :
    SymbolsAre fullSyms (List.replicate 65536 7) ∧ AreSymbols fullSyms (List.replicate 65536 7) ∧
    (List.replicate 65536 (7 : Nat)).length ≤ State.reset.config.symCap ∧
    (List.replicate 65536 (7 : Nat)).length ≤ 65536 ∧
    4 * (List.replicate 65536 (7 : Nat)).length ≤ State.reset.config.byteCap := by
  rw [List.length_replicate]
  refine ⟨symbolsAre_fullSyms, fun x hx => ?_, by decide, by decide, by decide⟩
  rw [List.eq_of_mem_replicate hx]; decide

theorem witness_EncodeInputErrors :
    State.reset.symlen = 0 ∧ State.reset.config.symCap < { State.reset with symlen := 65537 }.symlen.toNat := by decide

/-- The same state meets the hypotheses of `EncodeThenUnpackIsIdentity`, `EncodeBitLengthIsWeighted` and
`EncodeBeatsFixedLength`. -/
theorem witness_EncodeSucceeds :
    SymbolsAre (withSyms [1, 2, 1]) [1, 2, 1] ∧
    ∃ t, exec .encode (withSyms [1, 2, 1]) = .next t ∧ t.status = 0 ∧ 2 ≤ t.nleaf.toNat ∧
      TableIs t [{ sym := 1, len := 1, code := 0 }, { sym := 2, len := 1, code := 1 }] := by
  refine ⟨symbolsAre_withSyms _ (by decide), _, rfl, by decide, by decide, ?_⟩
  unfold TableIs Holds
  decide

theorem witness_PackThenUnpackIsIdentity :
    SymbolsAre (withTab t3 (withSyms [0x63, 0x61])) [0x63, 0x61] ∧
    ∃ t, exec .pack (withTab t3 (withSyms [0x63, 0x61])) = .next t ∧ t.status = 0 :=
  ⟨symbolsAre_withSyms [0x63, 0x61] (by decide), _, rfl, by decide⟩

theorem witness_EncodeTableIgnoresOrder :
    SymbolsAre (withSyms [1, 2, 1]) [1, 2, 1] ∧ SymbolsAre (withSyms [2, 1, 1]) [2, 1, 1] ∧
    ([1, 2, 1] : List Nat).Perm [2, 1, 1] ∧
    (∃ t, exec .encode (withSyms [1, 2, 1]) = .next t ∧ t.status = 0) ∧
    ∃ t, exec .encode (withSyms [2, 1, 1]) = .next t ∧ t.status = 0 :=
  ⟨symbolsAre_withSyms _ (by decide), symbolsAre_withSyms _ (by decide), by decide, ⟨_, rfl, by decide⟩,
    ⟨_, rfl, by decide⟩⟩

theorem witness_EncodeOfOneSymbol :
    SymbolsAre (withSyms (List.replicate 1 0x78)) (List.replicate 1 0x78) ∧
    SymbolsAre fullSyms (List.replicate 65536 7) ∧ 65536 ≤ State.reset.config.symCap ∧
    65536 ≤ 8 * State.reset.config.byteCap :=
  ⟨symbolsAre_withSyms _ (by decide), symbolsAre_fullSyms, by decide, by decide⟩

theorem witness_CommandsKeepCmdAndHostSide :
    (∃ t, exec .clr State.reset = .next t) ∧ (∃ t, exec .derive tree3 = .next t) ∧
    ∃ t, exec .encode (withSyms [1]) = .next t := ⟨⟨_, rfl⟩, ⟨_, rfl⟩, ⟨_, rfl⟩⟩

theorem witness_CommandsStopOnlyOnUnwrittenCells :
    Inv { State.reset with symlen := 1 } ∧ exec .count { State.reset with symlen := 1 } = .fault (.unwrittenCell .symbuf) ∧
    exec .pack { State.reset with tabsize := 1 } = .fault (.unwrittenCell .codetab) ∧
    exec .unpack { State.reset with bytelen := 1, symcount := 1 } = .fault (.unwrittenCell .bytebuf) :=
  ⟨⟨rfl, rfl, rfl, by decide, by decide, .inl rfl⟩, rfl, rfl, rfl⟩

theorem witness_CommandsAlwaysAnswer :
    Inv tree3 ∧ RegionsWritten tree3 ∧ Inv { State.reset with symlen := 65537 } ∧
    RegionsWritten { State.reset with symlen := 65537 } := by
  refine ⟨inv_tree3, by unfold RegionsWritten; decide, ⟨rfl, rfl, rfl, by decide, by decide, .inl rfl⟩, ?_⟩
  refine ⟨fun h => absurd h (by decide), fun _ k hk => absurd hk (by simp [State.reset]),
    fun _ k hk => absurd hk (by simp [State.reset])⟩

theorem witness_CommandsEndWithTheirErrors :
    (∃ t, exec .unpack { State.reset with symcount := 1 } = .next t) ∧ ∃ t, exec .count State.reset = .next t :=
  ⟨⟨_, rfl⟩, ⟨_, rfl⟩⟩

theorem witness_CommandFrames :
    (∃ t, exec .clr tree3 = .next t) ∧ (∃ t, exec .count (withSyms [1]) = .next t) ∧
    (∃ t, exec .build (withCounts [(1, 1)]) = .next t ∧ t.status = 0) ∧
    (∃ t, exec .derive tree3 = .next t ∧ t.status = 0) ∧ (∃ t, exec .pack State.reset = .next t ∧ t.status = 0) ∧
    (∃ t, exec .unpack State.reset = .next t ∧ t.status = 0) ∧
    ∃ t, exec .encode (withSyms [1]) = .next t ∧ t.status = 0 :=
  ⟨⟨_, rfl⟩, ⟨_, rfl⟩, ⟨_, rfl, by decide⟩, ⟨_, rfl, by decide⟩, ⟨_, rfl, by decide⟩, ⟨_, rfl, by decide⟩,
    ⟨_, rfl, by decide⟩⟩

theorem witness_SerialisationRoundTrip :
    (∀ e ∈ t3, e.fits Params.reference = true) ∧
    (serialise Params.reference { table := t3, symbolCount := 5, packedBytes := [0x46] }).isSome = true ∧
    tableWF t3 = true ∧ t3.length ≤ Params.reference.tabCap := by decide

end Sys2Proof.Tests
end

section
/-! PROOFS. Laws of the tree view (10_state.md R42): what stands at an index, and that DERIVE's walk gives its codes. -/

namespace Sys2Proof.Machine

/-- What tree stands at an index, said once: a leaf record is a leaf, a branch record a branch over its children's
trees. -/
theorem treeAt_succ_eq_some {nodes : Cells NodeRec} {d k : Nat} {T : CodeTree} :
    treeAt nodes (d + 1) k = some T ↔
      ∃ r, Memory.get nodes k = some r ∧
        ((r.kind = .leaf ∧ T = .leaf r.key r.weight r.depth) ∨
          (r.kind = .branch ∧ ∃ l u, treeAt nodes d r.left = some l ∧ treeAt nodes d r.right = some u ∧
            T = .branch r.weight r.depth l u)) := by
  rw [treeAt]
  cases Memory.get nodes k with
  | none => simp
  | some r =>
    obtain ⟨kind, w, dep, key, left, right⟩ := r
    cases kind with
    | leaf => simp [eq_comm]
    | branch => cases hl : treeAt nodes d left <;> cases hu : treeAt nodes d right <;> simp [hl, hu, eq_comm]

/-- More room for the depth does not change the tree that stands at an index. -/
theorem treeAt_mono {nodes : Cells NodeRec} {d : Nat} : ∀ {d' k : Nat} {T : CodeTree}, d ≤ d' →
    treeAt nodes d k = some T → treeAt nodes d' k = some T := by
  induction d with
  | zero => intro d' k T _ h; simp [treeAt] at h
  | succ d ih =>
    intro d' k T hd h
    obtain ⟨e, rfl⟩ : ∃ e, d' = e + 1 := ⟨d' - 1, by omega⟩
    have hde : d ≤ e := by omega
    obtain ⟨r, hr, hleaf | ⟨hk, l, u, hl, hu, hT⟩⟩ := treeAt_succ_eq_some.1 h
    · exact treeAt_succ_eq_some.2 ⟨r, hr, .inl hleaf⟩
    · exact treeAt_succ_eq_some.2 ⟨r, hr, .inr ⟨hk, l, u, ih hde hl, ih hde hu, hT⟩⟩

/-- The smallest symbol is one of the symbols. -/
theorem treeKey_mem_treeSymbols (T : CodeTree) : treeKey T ∈ treeSymbols T := by
  induction T with
  | leaf => simp [treeKey, treeSymbols]
  | branch _ _ l u hl hu =>
    rw [treeKey, treeSymbols, List.mem_append]
    rcases min_choice (treeKey l) (treeKey u) with h | h <;> rw [h]
    · exact .inl hl
    · exact .inr hu

/-- Every symbol of a tree standing in NODE is the key of one of its records. -/
theorem exists_key_of_mem_treeSymbols {nodes : Cells NodeRec} {d : Nat} : ∀ {k : Nat} {T : CodeTree},
    treeAt nodes d k = some T → ∀ x ∈ treeSymbols T, ∃ c ∈ nodes, c.2.key = x := by
  induction d with
  | zero => intro k T h; simp [treeAt] at h
  | succ d ih =>
    intro k T h x hx
    obtain ⟨r, hr, ⟨-, rfl⟩ | ⟨-, l, u, hl, hu, rfl⟩⟩ := treeAt_succ_eq_some.1 h
    · exact ⟨_, Memory.mem_of_get hr, (List.mem_singleton.1 hx).symm⟩
    · rcases List.mem_append.1 hx with hx | hx
      · exact ih hl x hx
      · exact ih hu x hx

/-- The walk meets the symbols from left to right. -/
theorem map_fst_pathCodes (T : CodeTree) : ∀ b : Bits, (pathCodes b T).map Prod.fst = treeSymbols T := by
  induction T with
  | leaf => intro b; rfl
  | branch _ _ l u hl hu => intro b; rw [pathCodes, List.map_append, hl, hu, treeSymbols]

/-- The codes of a tree stand in the order of its symbols (42_code_table_gen.md R143). -/
theorem map_fst_codesOfTree (T : CodeTree) : (codesOfTree T).map Prod.fst = treeSymbols T := by
  cases T with
  | leaf => rfl
  | branch => exact map_fst_pathCodes _ _

/-- DERIVE's computation over a tree gives the codes of that tree (42_code_table_gen.md R140, R142). -/
theorem treeCodes_of_treeAt {nodes : Cells NodeRec} {n : Nat} {T : CodeTree}
    (h : treeAt nodes n (n - 1) = some T) : treeCodes nodes n = .ok (codesOfTree T) := by
  cases n with
  | zero => simp [treeAt] at h
  | succ d =>
    have hw := walk_of_treeAt nodes _ _ [] T h
    obtain ⟨r, hr, ⟨hk, rfl⟩ | ⟨hk, l, u, -, -, rfl⟩⟩ := treeAt_succ_eq_some.1 h
    · simp only [treeCodes, hr, hk, codesOfTree]
    · simp only [treeCodes, hr, hk]; exact hw

/-- A state's held tree is the tree at its last record. -/
theorem heldTree_eq_some {s : State} {T : CodeTree} :
    heldTree s = some T ↔ treeAt s.node s.nodecnt.toNat (s.nodecnt.toNat - 1) = some T := by
  rw [heldTree]
  split_ifs with h
  · simp [h, treeAt]
  · rfl

end Sys2Proof.Machine
end

section
/-! PROOFS. BUILD's merges: one principle for what every merge keeps, and from it that the records BUILD writes are a
tree with every leaf once, the heavier child on the left, and that no field outgrows its width. -/

namespace Sys2Proof.Machine

/-! The canonical form of FREQ, as a list of entries. -/

theorem Memory.rising_iff_pairwise {α : Type} {m : Cells α} :
    Memory.rising m = true ↔ m.Pairwise fun c d => c.1 < d.1 := by
  induction m with
  | nil => simp [Memory.rising]
  | cons c r ih => rw [Memory.rising_cons, List.pairwise_cons, ih]

/-- The listed indexes are different. -/
theorem Memory.nodup_indexes {α : Type} {m : Cells α} (h : Memory.rising m = true) : (m.map Prod.fst).Nodup :=
  List.pairwise_map.2 ((Memory.rising_iff_pairwise.1 h).imp fun h => Nat.ne_of_lt h)

/-- A space lists no more cells than it has. -/
theorem Memory.length_le_of_wf {α : Type} {n : Nat} {m : Cells α} (h : Memory.wf n m = true) : m.length ≤ n := by
  obtain ⟨hr, hn⟩ := Memory.wf_iff.1 h
  have hsub : m.map Prod.fst ⊆ List.range n := by
    intro i hi
    obtain ⟨c, hc, rfl⟩ := List.mem_map.1 hi
    exact List.mem_range.2 (hn c hc)
  simpa using (List.subperm_of_subset (Memory.nodup_indexes hr) hsub).length_le

/-- In canonical form the entries are FREQ's list itself (log entry 10). -/
theorem entries_of_freqWf {c : Params} {f : Cells Nat} (h : freqWf c f = true) : entries f = f :=
  List.filter_eq_self.2 fun x hx => bne_iff_ne.2 ((freqWf_iff.1 h).2 x hx)

/-! The working collection at the start. -/

theorem numbered_eq_zipIdx (rs : List NodeRec) : ∀ i, numbered i rs = (rs.zipIdx i).map Prod.swap := by
  induction rs with
  | nil => intro i; rfl
  | cons r rs ih => intro i; simp [numbered, ih]

/-- Each leaf stands in the working collection with its index. -/
theorem mem_numbered_zero {rs : List NodeRec} {x : Live} : x ∈ numbered 0 rs ↔ rs[x.1]? = some x.2 := by
  rw [numbered_eq_zipIdx, List.mem_map]
  constructor
  · rintro ⟨p, hp, rfl⟩; exact List.mk_mem_zipIdx_iff_getElem?.1 hp
  · intro h; exact ⟨x.swap, List.mk_mem_zipIdx_iff_getElem?.2 h, rfl⟩

@[simp] theorem map_snd_numbered (rs : List NodeRec) (i : Nat) : (numbered i rs).map Prod.snd = rs := by
  simp [numbered_eq_zipIdx, Function.comp_def]

@[simp] theorem length_numbered (rs : List NodeRec) (i : Nat) : (numbered i rs).length = rs.length := by
  simp [numbered_eq_zipIdx]

/-- A property of the nodes at the start, entry by entry. -/
theorem map_numbered_leaves {β : Type} (g : NodeRec → β) (es : List (Nat × Nat)) :
    (numbered 0 (es.map leafRec)).map (fun x => g x.2) = es.map fun e => g (leafRec e) := by
  rw [show (fun x : Live => g x.2) = g ∘ Prod.snd from rfl, ← List.map_map, map_snd_numbered, List.map_map]
  rfl

/-! One merge, and the principle for all of them. -/

/-- One merge (41_huffman_tree_builder.md R120): of two or more nodes the lightest, `q`, and the lightest of the rest, `p`,
which is not lighter than `q`, are replaced by their branch. -/
theorem exists_mergeAll_succ {w : List Live} (hw : 2 ≤ w.length) (n next : Nat) :
    ∃ q p rest, (q :: p :: rest).Perm w ∧ lighter p.2 q.2 = false ∧
      mergeAll (n + 1) next w = branchRec p q :: mergeAll n (next + 1) ((next, branchRec p q) :: rest) := by
  obtain ⟨q, w1, h1⟩ := takeLightest_isSome (w := w) (by rintro rfl; simp at hw)
  have perm1 := takeLightest_perm w q w1 h1
  obtain ⟨p, rest, h2⟩ := takeLightest_isSome (w := w1) (by rintro rfl; rw [← perm1.length_eq] at hw; simp at hw)
  have perm2 := takeLightest_perm w1 p rest h2
  refine ⟨q, p, rest, (perm2.cons q).trans perm1, ?_, by simp [mergeAll, h1, h2]⟩
  exact takeLightest_lightest w q w1 h1 p (perm2.subset List.mem_cons_self)

/-- Every merge keeps `I`: the branch over the lightest two, `q` and `p`, made at index `next` of `nodes`, takes their
place in the working collection. -/
def KeptByMerge (nodes : Cells NodeRec) (I : Nat → List Live → Prop) : Prop :=
  ∀ (next : Nat) (w : List Live) (q p : Live) (rest : List Live), I next w → (q :: p :: rest).Perm w →
    lighter p.2 q.2 = false → Memory.get nodes next = some (branchRec p q) →
    I (next + 1) ((next, branchRec p q) :: rest)

/-- What every merge keeps holds when one node, the root, is left (41_huffman_tree_builder.md R120). -/
theorem mergeAll_invariant {nodes : Cells NodeRec} {I : Nat → List Live → Prop} (keep : KeptByMerge nodes I) (n : Nat) :
    ∀ (next : Nat) (w : List Live), w.length = n + 1 →
      (∀ j b, (mergeAll n next w)[j]? = some b → Memory.get nodes (next + j) = some b) → I next w →
      ∃ root, I (next + n) [root] := by
  induction n with
  | zero =>
    intro next w hw _ hI
    obtain ⟨root, rfl⟩ := List.length_eq_one_iff.1 hw
    exact ⟨root, hI⟩
  | succ n ih =>
    intro next w hw hmem hI
    obtain ⟨q, p, rest, perm, hpq, hm⟩ := exists_mergeAll_succ (w := w) (by omega) n next
    rw [hm] at hmem
    have hnew : Memory.get nodes next = some (branchRec p q) := hmem 0 _ rfl
    have hlen := perm.length_eq
    simp only [List.length_cons] at hlen
    rw [show next + (n + 1) = next + 1 + n by omega]
    refine ih (next + 1) _ (by simp only [List.length_cons]; omega) (fun j b hj => ?_)
      (keep next w q p rest hI perm hpq hnew)
    rw [show next + 1 + j = next + (j + 1) by omega]
    exact hmem (j + 1) b hj

/-- The first records of BUILD's result are the leaves, in the order of the entries (41_huffman_tree_builder.md R121). -/
theorem get_leaf {nodes : Cells NodeRec} {es : List (Nat × Nat)} (hh : Holds nodes (treeNodes es)) {k : Nat}
    (hk : k < es.length) : Memory.get nodes k = some (leafRec es[k]) := by
  rw [hh k (by simp only [treeNodes, List.length_append, List.length_map]; omega), treeNodes,
    List.getElem?_append_left (by simpa using hk), List.getElem?_map, List.getElem?_eq_getElem hk]
  rfl

/-- What holds of the leaves and is kept by every merge holds of the root of BUILD's records
(41_huffman_tree_builder.md R120, R125). -/
theorem treeNodes_invariant {nodes : Cells NodeRec} {es : List (Nat × Nat)} {I : Nat → List Live → Prop}
    (hne : es ≠ []) (hh : Holds nodes (treeNodes es)) (init : I es.length (numbered 0 (es.map leafRec)))
    (keep : KeptByMerge nodes I) : ∃ root, I (2 * es.length - 1) [root] := by
  have hpos : 0 < es.length := List.length_pos_iff.2 hne
  rw [show 2 * es.length - 1 = es.length + (es.length - 1) by omega]
  refine mergeAll_invariant keep (es.length - 1) es.length _ (by rw [length_numbered, List.length_map]; omega) (fun j b hj => ?_) init
  have hget : (treeNodes es)[es.length + j]? = some b := by
    rw [treeNodes, List.getElem?_append_right (by simp)]
    simpa using hj
  rw [hh _ (List.getElem?_eq_some_iff.1 hget).1, hget]

/-! The shape of the tree. -/

/-- The node `x` of the working collection stands in NODE, and `T` is the tree below it. -/
structure Stands (nodes : Cells NodeRec) (x : Live) (T : CodeTree) : Prop where
  record : Memory.get nodes x.1 = some x.2
  tree : treeAt nodes (x.1 + 1) x.1 = some T
  weight : treeWeight T = x.2.weight
  key : treeKey T = x.2.key
  heavier : heavierLeft T = true

/-- The symbols below a node of the working collection. -/
def symbolsBelow (nodes : Cells NodeRec) (x : Live) : List Nat :=
  ((treeAt nodes (x.1 + 1) x.1).map treeSymbols).getD []

theorem Stands.symbolsBelow_eq {nodes : Cells NodeRec} {x : Live} {T : CodeTree} (h : Stands nodes x T) :
    symbolsBelow nodes x = treeSymbols T := by
  simp [symbolsBelow, h.tree]

/-- The forest during BUILD, `next` records being made, with leaves of the symbols `keys`: every record made is right,
every node of the working collection is the root of a tree, these trees have every leaf once between them, and the newest
record is in the collection. -/
structure Forest (nodes : Cells NodeRec) (keys : List Nat) (next : Nat) (w : List Live) : Prop where
  leaves : keys.length ≤ next
  made : ∀ k < next, nodeOk nodes keys.length k = true
  below : ∀ x ∈ w, x.1 < next
  stands : ∀ x ∈ w, ∃ T, Stands nodes x T
  symbols : (w.flatMap (symbolsBelow nodes)).Perm keys
  newest : next - 1 ∈ w.map Prod.fst

/-- The record of a branch is right when its children stand below it. -/
theorem nodeOk_branchRec {nodes : Cells NodeRec} {n next : Nat} {p q : Live} (hn : n ≤ next) (hp : p.1 < next)
    (hq : q.1 < next) (gp : Memory.get nodes p.1 = some p.2) (gq : Memory.get nodes q.1 = some q.2)
    (g : Memory.get nodes next = some (branchRec p q)) : nodeOk nodes n next = true := by
  simp [nodeOk, g, branchRec, gp, gq, hp, hq, Nat.not_lt.2 hn]

/-- The record of a leaf is right. -/
theorem nodeOk_leafRec {nodes : Cells NodeRec} {n k : Nat} {e : Nat × Nat} (hk : k < n) (he : e.2 ≠ 0)
    (g : Memory.get nodes k = some (leafRec e)) : nodeOk nodes n k = true := by
  simp [nodeOk, g, leafRec, hk, he]

/-- The branch over two standing nodes stands, with the heavier child, or of equals the one with the smaller key, on the
left (41_huffman_tree_builder.md R122, R124). -/
theorem Stands.branch {nodes : Cells NodeRec} {next : Nat} {p q : Live} {P Q : CodeTree} (hP : Stands nodes p P)
    (hQ : Stands nodes q Q) (hp : p.1 < next) (hq : q.1 < next) (hpq : lighter p.2 q.2 = false) (hkey : p.2.key ≠ q.2.key)
    (g : Memory.get nodes next = some (branchRec p q)) :
    Stands nodes (next, branchRec p q)
      (.branch (branchRec p q).weight (branchRec p q).depth P Q) where
  record := g
  tree := treeAt_succ_eq_some.2 ⟨_, g, .inr ⟨rfl, P, Q, treeAt_mono hp hP.tree, treeAt_mono hq hQ.tree, rfl⟩⟩
  weight := rfl
  key := by simp [treeKey, branchRec, hP.key, hQ.key]
  heavier := by
    simp only [lighter, Bool.or_eq_false_iff, decide_eq_false_iff_not, Bool.and_eq_false_iff, beq_eq_false_iff_ne] at hpq
    simp only [heavierLeft, hP.heavier, hQ.heavier, hP.weight, hQ.weight, hP.key, hQ.key, Bool.and_true, Bool.or_eq_true,
      decide_eq_true_eq, Bool.and_eq_true, beq_iff_eq]
    omega

/-- A node of the working collection at the start is the leaf of the entry with its index. -/
theorem leaf_of_mem_numbered {es : List (Nat × Nat)} {x : Live} (hx : x ∈ numbered 0 (es.map leafRec)) :
    ∃ hk : x.1 < es.length, x.2 = leafRec es[x.1] := by
  obtain ⟨hk, hr⟩ := List.getElem?_eq_some_iff.1 (mem_numbered_zero.1 hx)
  exact ⟨by simpa using hk, by simpa using hr.symm⟩

/-- The leaves are a forest. -/
theorem forest_leaves {nodes : Cells NodeRec} {es : List (Nat × Nat)} (hne : es ≠ []) (hh : Holds nodes (treeNodes es))
    (hpos : ∀ e ∈ es, e.2 ≠ 0) :
    Forest nodes (es.map Prod.fst) es.length (numbered 0 (es.map leafRec)) := by
  have hlen : 0 < es.length := List.length_pos_iff.2 hne
  have stand : ∀ x ∈ numbered 0 (es.map leafRec), Stands nodes x (.leaf x.2.key x.2.weight x.2.depth) := by
    intro x hx
    obtain ⟨hk, hr⟩ := leaf_of_mem_numbered hx
    have g : Memory.get nodes x.1 = some x.2 := by rw [hr]; exact get_leaf hh hk
    exact ⟨g, treeAt_succ_eq_some.2 ⟨_, g, .inl ⟨by rw [hr]; rfl, rfl⟩⟩, rfl, rfl, rfl⟩
  refine ⟨by simp, fun k hk => ?_, fun x hx => (leaf_of_mem_numbered hx).1, fun x hx => ⟨_, stand x hx⟩, ?_, ?_⟩
  · exact nodeOk_leafRec (by simpa using hk) (hpos _ (List.getElem_mem hk)) (get_leaf hh hk)
  · have hs : ∀ x ∈ numbered 0 (es.map leafRec), symbolsBelow nodes x = [x.2.key] :=
      fun x hx => (stand x hx).symbolsBelow_eq
    rw [List.flatMap_congr hs, ← List.map_eq_flatMap, map_numbered_leaves NodeRec.key]
    rfl
  · refine List.mem_map.2 ⟨(es.length - 1, leafRec es[es.length - 1]), mem_numbered_zero.2 ?_, rfl⟩
    simp [List.getElem?_eq_getElem (show es.length - 1 < es.length by omega)]

/-- Every merge keeps the forest. -/
theorem forest_keptByMerge {nodes : Cells NodeRec} {keys : List Nat} (hkeys : keys.Nodup) :
    KeptByMerge nodes (Forest nodes keys) := by
  intro next w q p rest F perm hpq g
  have hqw : q ∈ w := perm.subset (by simp)
  have hpw : p ∈ w := perm.subset (by simp)
  have hrest : ∀ x ∈ rest, x ∈ w := fun x hx => perm.subset (by simp [hx])
  obtain ⟨P, hP⟩ := F.stands p hpw
  obtain ⟨Q, hQ⟩ := F.stands q hqw
  have hp := F.below p hpw
  have hq := F.below q hqw
  have hsym : (treeSymbols Q ++ (treeSymbols P ++ rest.flatMap (symbolsBelow nodes))).Perm keys := by
    rw [← hP.symbolsBelow_eq, ← hQ.symbolsBelow_eq]
    exact (perm.flatMap_right _).trans F.symbols
  have hkey : p.2.key ≠ q.2.key := by
    have hdisj := (List.nodup_append.1 (hsym.nodup_iff.2 hkeys)).2.2
    rw [← hP.key, ← hQ.key]
    exact fun e => hdisj _ (treeKey_mem_treeSymbols Q) _
      (List.mem_append_left _ (treeKey_mem_treeSymbols P)) e.symm
  have hnew := hP.branch hQ hp hq hpq hkey g
  refine ⟨by have := F.leaves; omega, fun k hk => ?_, ?_, ?_, ?_, by simp⟩
  · rcases Nat.lt_succ_iff_lt_or_eq.1 hk with hk | rfl
    · exact F.made k hk
    · exact nodeOk_branchRec F.leaves hp hq hP.record hQ.record g
  · intro x hx
    rcases List.mem_cons.1 hx with rfl | hx
    · exact Nat.lt_succ_self next
    · exact Nat.lt_succ_of_lt (F.below x (hrest x hx))
  · intro x hx
    rcases List.mem_cons.1 hx with rfl | hx
    · exact ⟨_, hnew⟩
    · exact F.stands x (hrest x hx)
  · rw [List.flatMap_cons, hnew.symbolsBelow_eq, treeSymbols, List.append_assoc]
    refine List.Perm.trans ?_ hsym
    exact List.perm_append_comm_assoc _ _ _

/-- A forest of one tree, all records made: the tree at the last record. -/
theorem Forest.root {nodes : Cells NodeRec} {keys : List Nat} {next : Nat} {root : Live}
    (F : Forest nodes keys next [root]) (hnext : next ≠ 0) :
    ∃ T, treeAt nodes next (next - 1) = some T ∧ (treeSymbols T).Perm keys ∧ heavierLeft T = true := by
  obtain ⟨T, hT⟩ := F.stands root (by simp)
  have hroot : next - 1 = root.1 := by simpa using F.newest
  refine ⟨T, ?_, ?_, hT.heavier⟩
  · rw [hroot]; exact treeAt_mono (by omega) hT.tree
  · simpa [hT.symbolsBelow_eq] using F.symbols

/-! The widths of the fields. -/

/-- No field has outgrown its width (00_scope.md R12): the records made fit, and in the working collection the weights sum
to less than `2^WT_W`, the depths to at most `N_MAX`, and there is room for the merges to come. -/
structure Sized (c : Params) (nodes : Cells NodeRec) (next : Nat) (w : List Live) : Prop where
  made : ∀ k < next, ∀ r, Memory.get nodes k = some r → r.fits c = true
  below : ∀ x ∈ w, x.1 < next
  weights : (w.map fun x => x.2.weight).sum < 2 ^ c.wtW
  depths : (w.map fun x => x.2.depth).sum ≤ c.nMax
  deep : ∀ x ∈ w, 1 ≤ x.2.depth
  keys : ∀ x ∈ w, x.2.key < 2 ^ c.symW
  room : next + w.length ≤ 2 * c.nMax

theorem nodeRec_fits_iff {c : Params} {r : NodeRec} :
    r.fits c = true ↔ r.weight < 2 ^ c.wtW ∧ r.depth < 2 ^ c.depthW ∧ r.key < 2 ^ c.symW ∧ r.left < 2 ^ c.idxW ∧
      r.right < 2 ^ c.idxW := by
  simp [NodeRec.fits, and_assoc]

/-- Depths and indexes have one bit more than symbols. -/
theorem two_pow_succ_symW (c : Params) : 2 ^ (c.symW + 1) = 2 * c.nMax := by
  rw [Params.nMax, pow_succ, Nat.mul_comm]

/-- The sum of `n` counts, for at most `N_MAX` of them, fits a weight (00_scope.md R6, R12). -/
theorem sum_counts_lt {c : Params} {xs : List Nat} (hlen : xs.length ≤ c.nMax) (hx : ∀ x ∈ xs, x < 2 ^ c.cntW) :
    xs.sum < 2 ^ c.wtW := by
  calc xs.sum ≤ xs.length * (2 ^ c.cntW - 1) := List.sum_le_card_nsmul _ _ fun x h => Nat.le_sub_one_of_lt (hx x h)
    _ ≤ c.nMax * (2 ^ c.cntW - 1) := Nat.mul_le_mul_right _ hlen
    _ < c.nMax * 2 ^ c.cntW := Nat.mul_lt_mul_of_pos_left (Nat.sub_lt (Nat.two_pow_pos _) Nat.one_pos) (Nat.two_pow_pos _)
    _ = 2 ^ c.wtW := by rw [Params.wtW, Params.nMax, pow_add, Nat.mul_comm]

/-- The leaves of at most `N_MAX` entries have their widths. -/
theorem sized_leaves {c : Params} {nodes : Cells NodeRec} {es : List (Nat × Nat)} (hh : Holds nodes (treeNodes es))
    (hlen : es.length ≤ c.nMax) (hkey : ∀ e ∈ es, e.1 < 2 ^ c.symW) (hcount : ∀ e ∈ es, e.2 < 2 ^ c.cntW) :
    Sized c nodes es.length (numbered 0 (es.map leafRec)) where
  made k hk r hr := by
    obtain rfl := Option.some.inj ((get_leaf hh hk).symm.trans hr)
    have hm : es[k] ∈ es := List.getElem_mem hk
    refine nodeRec_fits_iff.2 ⟨?_, Nat.one_lt_two_pow (Nat.succ_ne_zero _), hkey _ hm, Nat.two_pow_pos _,
      Nat.two_pow_pos _⟩
    exact Nat.lt_of_lt_of_le (hcount _ hm) (Nat.pow_le_pow_right Nat.two_pos (Nat.le_add_right _ _))
  below x hx := (leaf_of_mem_numbered hx).1
  weights := by
    rw [map_numbered_leaves NodeRec.weight]
    exact sum_counts_lt (by simpa using hlen) (List.forall_mem_map.2 hcount)
  depths := by
    rw [map_numbered_leaves NodeRec.depth]
    simpa [leafRec] using hlen
  deep x hx := by
    obtain ⟨_, hr⟩ := leaf_of_mem_numbered hx
    rw [hr]; exact Nat.le_refl 1
  keys x hx := by
    obtain ⟨hk, hr⟩ := leaf_of_mem_numbered hx
    rw [hr]; exact hkey _ (List.getElem_mem hk)
  room := by simp only [length_numbered, List.length_map]; omega

/-- Every merge keeps the widths: the weights' sum stays, and the depth of a branch is at most its children's together. -/
theorem sized_keptByMerge {c : Params} {nodes : Cells NodeRec} : KeptByMerge nodes (Sized c nodes) := by
  intro next w q p rest S perm _ g
  have hqw : q ∈ w := perm.subset (by simp)
  have hpw : p ∈ w := perm.subset (by simp)
  have hrest : ∀ x ∈ rest, x ∈ w := fun x hx => perm.subset (by simp [hx])
  have hp := S.below p hpw
  have hq := S.below q hqw
  have hlen := perm.length_eq
  have hroom := S.room
  have hweights := S.weights
  have hdepths := S.depths
  have hdp := S.deep p hpw
  have hdq := S.deep q hqw
  have hkey : min p.2.key q.2.key < 2 ^ c.symW := Nat.lt_of_le_of_lt (Nat.min_le_left _ _) (S.keys p hpw)
  rw [← (perm.map _).sum_eq] at hweights hdepths
  simp only [List.map_cons, List.sum_cons, List.length_cons] at hweights hdepths hlen
  have hfits : (branchRec p q).fits c = true := by
    refine nodeRec_fits_iff.2 ⟨?_, ?_, hkey, ?_, ?_⟩ <;> simp only [branchRec, two_pow_succ_symW] <;> omega
  refine ⟨fun k hk r hr => ?_, ?_, ?_, ?_, ?_, ?_, ?_⟩
  · rcases Nat.lt_succ_iff_lt_or_eq.1 hk with hk | rfl
    · exact S.made k hk r hr
    · obtain rfl := Option.some.inj (g.symm.trans hr)
      exact hfits
  · exact List.forall_mem_cons.2 ⟨Nat.lt_succ_self next, fun x hx => Nat.lt_succ_of_lt (S.below x (hrest x hx))⟩
  · simp only [List.map_cons, List.sum_cons, branchRec]; omega
  · simp only [List.map_cons, List.sum_cons, branchRec]; omega
  · exact List.forall_mem_cons.2 ⟨Nat.le_add_left _ _, fun x hx => S.deep x (hrest x hx)⟩
  · exact List.forall_mem_cons.2 ⟨hkey, fun x hx => S.keys x (hrest x hx)⟩
  · simp only [List.length_cons]; omega

/-! What BUILD leaves in NODE. -/

/-- The records BUILD makes from entries with rising symbols and nonzero counts are a tree of them
(41_huffman_tree_builder.md R121, R124, R128). -/
theorem treeHeld_of_treeNodes {s : State} {es : List (Nat × Nat)} (hne : es ≠ []) (hrise : Memory.rising es = true)
    (hpos : ∀ e ∈ es, e.2 ≠ 0) (hh : Holds s.node (treeNodes es)) (hcnt : s.nodecnt.toNat = 2 * es.length - 1)
    (hleaf : s.nleaf.toNat = es.length) : TreeHeld s := by
  have hlen : 0 < es.length := List.length_pos_iff.2 hne
  obtain ⟨root, F⟩ := treeNodes_invariant hne hh (forest_leaves hne hh hpos)
    (forest_keptByMerge (Memory.nodup_indexes hrise))
  obtain ⟨T, hT, hsym, hheavy⟩ := F.root (by omega)
  refine ⟨by omega, fun k hk => ?_, fun k hk => ?_, T, heldTree_eq_some.2 (by rw [hcnt]; exact hT), ?_, ?_, hheavy⟩
  · rw [hleaf, ← List.length_map (as := es) Prod.fst]
    exact F.made k (by omega)
  · have hk1 : k + 1 < es.length := by omega
    rw [keysRise, get_leaf hh (Nat.lt_of_succ_lt hk1), get_leaf hh hk1]
    exact decide_eq_true (List.pairwise_iff_getElem.1 (Memory.rising_iff_pairwise.1 hrise) k (k + 1) _ hk1 k.lt_succ_self)
  · rw [hsym.length_eq, List.length_map, hleaf]
  · exact hsym.nodup_iff.2 (Memory.nodup_indexes hrise)

/-- Every record BUILD makes has its widths (00_scope.md R12). -/
theorem fits_of_mem_treeNodes {c : Params} {es : List (Nat × Nat)} (hne : es ≠ []) (hlen : es.length ≤ c.nMax)
    (hkey : ∀ e ∈ es, e.1 < 2 ^ c.symW) (hcount : ∀ e ∈ es, e.2 < 2 ^ c.cntW) :
    ∀ r ∈ treeNodes es, r.fits c = true := by
  intro r hr
  have hh := holds_setRange [] (treeNodes es)
  obtain ⟨root, S⟩ := treeNodes_invariant hne hh (sized_leaves hh hlen hkey hcount) sized_keptByMerge
  obtain ⟨k, hk, rfl⟩ := List.getElem_of_mem hr
  exact S.made k (length_treeNodes hne ▸ hk) _ ((hh k hk).trans (List.getElem?_eq_getElem hk))

end Sys2Proof.Machine
end

section
/-! PROOFS. What each command writes has the form and the widths of its space. -/

namespace Sys2Proof.Machine

/-- The cells of a range that was written hold values of the range or what they held. -/
theorem forall_mem_setRange {α : Type} {P : α → Prop} {m : Cells α} {i : Nat} {vs : List α}
    (hm : ∀ x ∈ m, P x.2) (hv : ∀ v ∈ vs, P v) : ∀ x ∈ Memory.setRange m i vs, P x.2 :=
  fun x hx => (Memory.mem_setRange vs hx).elim (hv x.2) (hm x)

/-- The cells of a space with one written hold that value or what they held. -/
theorem forall_mem_set {α : Type} {P : α → Prop} {m : Cells α} {i : Nat} {v : α}
    (hm : ∀ x ∈ m, P x.2) (hv : P v) : ∀ x ∈ Memory.set m i v, P x.2 :=
  fun x hx => (Memory.mem_set hx).elim (fun h => h ▸ hv) (hm x)

/-- The cells of FREQ with one written hold that count or what they held. -/
theorem forall_mem_freqSet {P : Nat → Prop} {m : Cells Nat} {i c : Nat} (hm : ∀ x ∈ m, P x.2) (hc : P c) :
    ∀ x ∈ freqSet m i c, P x.2 := by
  rw [freqSet]
  split
  · exact fun x hx => hm x (List.mem_of_mem_filter hx)
  · exact forall_mem_set hm hc

/-- What every cell of a space has, the elements of a sequence that it holds have. -/
theorem forall_mem_of_holds {α : Type} {P : α → Prop} {m : Cells α} {xs : List α} (hh : Holds m xs)
    (hm : ∀ x ∈ m, P x.2) : ∀ v ∈ xs, P v := by
  intro v hv
  obtain ⟨k, hk, rfl⟩ := List.getElem_of_mem hv
  exact hm _ (Memory.mem_of_get ((hh k hk).trans (List.getElem?_eq_getElem hk)))

/-- COUNT of at most `SYM_CAP` symbols gives counts of `CNT_W` bits (00_scope.md R6, R12). -/
theorem counts_fit_tally {c : Params} {xs : List Nat} (hx : ∀ x ∈ xs, x < c.nMax) (hlen : xs.length ≤ c.symCap) :
    ∀ f ∈ tally xs, f.2 < 2 ^ c.cntW := by
  rintro ⟨i, v⟩ hf
  have hrise := (Memory.wf_iff.1 (freqWf_iff.1 (freqWf_tally hx)).1).1
  have hv : v = xs.count i := by rw [← freqGet_tally, freqGet, (Memory.get_of_mem hrise).1 hf]; rfl
  have hcount : xs.count i ≤ xs.length := List.count_le_length
  have hcap := c.symCap_count
  have hpos := Nat.two_pow_pos c.cntW
  show v < 2 ^ c.cntW
  omega

@[simp] theorem length_packBits (b : Bits) : (packBits b).length = ceilDiv8 b.length := by simp [packBits]

/-- The gathered bits stay within the capacity (43_bit_packer.md R160, R165). -/
theorem length_gatherBits_le {cap : Nat} {t : List Entry} {m : Cells Nat} {n : Nat} : ∀ {i : Nat} {b b' : Bits},
    b.length ≤ 8 * cap → gatherBits cap t m n i b = .ok b' → b'.length ≤ 8 * cap := by
  induction n with
  | zero => intro i b b' hb h; exact Attempt.ok.inj h ▸ hb
  | succ n ih =>
    intro i b b' hb h
    simp only [gatherBits] at h
    split at h
    · cases h
    · split at h
      · cases h
      · split at h
        · cases h
        · next hcap => exact ih (by rw [List.length_append]; omega) h

/-- A code's symbol is the symbol of an entry (42_code_table_gen.md R149). -/
theorem exists_entry_of_matchCode {t : List Entry} {b : Bits} {x : Nat} (h : matchCode t b = some x) :
    ∃ e ∈ t, e.sym = x := by
  obtain ⟨e, he, hx⟩ := Option.map_eq_some_iff.1 h
  exact ⟨e, List.mem_of_find?_eq_some he, hx⟩

/-- Every decoded symbol is the symbol of an entry (44_bit_unpacker.md R177). -/
theorem exists_entry_of_mem_decodeWalk {t : List Entry} {x : Bits} : ∀ {c : Nat} {acc : Bits} {out : List Nat},
    decodeWalk t x c acc = some out → ∀ s ∈ out, ∃ e ∈ t, e.sym = s := by
  induction x with
  | nil =>
    intro c acc out h s hs
    cases c with
    | zero => obtain rfl := Option.some.inj h; cases hs
    | succ c => cases h
  | cons b x ih =>
    intro c acc out h s hs
    cases c with
    | zero => obtain rfl := Option.some.inj h; cases hs
    | succ c =>
      simp only [decodeWalk] at h
      split at h
      · next hmatch =>
        obtain ⟨o, ho, rfl⟩ := Option.map_eq_some_iff.1 h
        rcases List.mem_cons.1 hs with rfl | hs
        · exact exists_entry_of_matchCode hmatch
        · exact ih ho s hs
      · split at h
        · cases h
        · exact ih h s hs

/-! The host's operations leave the configuration alone (log entry 4). -/

@[simp] theorem hostRead_config (sp : Space) (i : Nat) (s : State) : (hostRead sp i s).config = s.config := by
  rw [hostRead]; split <;> rfl

@[simp] theorem hostWrite_config (i : Nat) (v : Element) (s : State) : (hostWrite i v s).config = s.config := by
  cases v with
  | reg w => rw [hostWrite, regWrite.eq_def]; split <;> rfl
  | _ => rfl

/-! STATUS after an error (10_state.md R25). -/

/-- STATUS after an error, bit by bit. -/
theorem getLsbD_statusError (e : ErrorKind) (op : Opcode) (i : Nat) :
    (statusError e op).getLsbD i =
      if i < 4 then decide (i = 1) else if i < 8 then (errorCode e).getLsbD (i - 4) else op.getLsbD (i - 8) := by
  rw [statusError]
  simp only [BitVec.getLsbD_append, BitVec.getLsbD_zero]
  by_cases h4 : i < 4
  · interval_cases i <;> simp
  · obtain ⟨j, rfl⟩ : ∃ j, i = j + 4 := ⟨i - 4, by omega⟩
    by_cases h8 : j < 4
    · simp [h8, show j + 4 < 8 by omega]
    · have hop : op.getLsbD (j - 4) = true → j - 4 < 8 := BitVec.lt_of_getLsbD
      simpa [h8, show ¬ j + 4 < 8 by omega] using hop

@[simp] theorem statusBusy_statusError (e : ErrorKind) (op : Opcode) : statusBusy (statusError e op) = false := by
  rw [statusBusy, getLsbD_statusError]; rfl

@[simp] theorem statusErr_statusError (e : ErrorKind) (op : Opcode) : statusErr (statusError e op) = true := by
  rw [statusErr, getLsbD_statusError]; rfl

@[simp] theorem statusErrCode_statusError (e : ErrorKind) (op : Opcode) :
    statusErrCode (statusError e op) = errorCode e := by
  refine BitVec.eq_of_getLsbD_eq fun i hi => ?_
  rw [statusErrCode, BitVec.getLsbD_extractLsb', getLsbD_statusError, if_neg (by omega), if_pos (by omega),
    Nat.add_sub_cancel_left, decide_eq_true hi, Bool.true_and]

/-- The reserved bits of STATUS are 0 after an error. -/
theorem reserved_statusError (e : ErrorKind) (op : Opcode) :
    (statusError e op).extractLsb' 2 2 = 0 ∧ (statusError e op).extractLsb' 16 16 = 0 := by
  constructor <;> refine BitVec.eq_of_getLsbD_eq fun i hi => ?_ <;> rw [BitVec.getLsbD_extractLsb', getLsbD_statusError]
  · rw [if_pos (by omega), decide_eq_false (show ¬ 2 + i = 1 by omega)]; simp
  · rw [if_neg (by omega), if_neg (by omega), BitVec.getLsbD_of_ge op _ (by omega)]; simp

/-- STATUS is legal after an error. -/
theorem statusLegal_statusError (e : ErrorKind) (op : Opcode) : statusLegal (statusError e op) = true := by
  have hcode : 1 ≤ (errorCode e).toNat ∧ (errorCode e).toNat ≤ 6 := by cases e <;> decide
  simp [statusLegal, reserved_statusError, hcode]

end Sys2Proof.Machine
end

section
/-! PROOFS. The invariant: what each update of the state needs to keep it, that every command's writes meet those needs,
and that every step keeps it (obligation O14). -/

namespace Sys2Proof

open Sys2Proof.Machine

/-! The invariant, field by field. -/

theorem memoriesWf_iff {s : State} :
    memoriesWf s = true ↔
      Memory.wf s.config.symCap s.symbuf = true ∧ freqWf s.config s.freq = true ∧
        Memory.wf s.config.nodeCap s.node = true ∧ Memory.wf s.config.tabCap s.codetab = true ∧
        Memory.wf s.config.byteCap s.bytebuf = true := by
  simp [memoriesWf, and_assoc]

/-- Whether a tree is held depends on NODE, NODECNT and NLEAF alone. -/
theorem TreeHeld.congr {s t : State} (h : TreeHeld s) (hnode : t.node = s.node) (hcnt : t.nodecnt = s.nodecnt)
    (hleaf : t.nleaf = s.nleaf) : TreeHeld t where
  counts := by rw [hcnt, hleaf]; exact h.counts
  records := by rw [hcnt, hleaf, hnode]; exact h.records
  rising := by rw [hleaf, hnode]; exact h.rising
  whole := by
    obtain ⟨T, hT, hrest⟩ := h.whole
    exact ⟨T, by rw [heldTree_eq_some] at hT ⊢; rw [hnode, hcnt]; exact hT, by rw [hleaf]; exact hrest⟩

section Updates

variable {s : State} (h : Inv s)

include h

/-- The invariant says nothing of CMD, the lengths the host may write, and the host's side. -/
theorem Inv.withUnconstrained (cmd symlen symcount tabsize bytelen : Word) (pending : List HostOp)
    (readLog : List Element) (draws : Nat) :
    Inv { s with cmd := cmd, symlen := symlen, symcount := symcount, tabsize := tabsize, bytelen := bytelen,
                 pending := pending, readLog := readLog, draws := draws } :=
  { h with tree := h.tree.imp id fun ht => ht.congr rfl rfl rfl }

theorem Inv.setStatus {w : Word} (hw : statusLegal w = true) : Inv (setStatus w s) :=
  { h with status := hw, tree := h.tree.imp id fun ht => ht.congr rfl rfl rfl }

theorem Inv.setFreq {f : Cells Nat} (hwf : freqWf s.config f = true) (hfit : ∀ x ∈ f, x.2 < 2 ^ s.config.cntW) :
    Inv (setFreq f s) := by
  obtain ⟨hsym, -, hnode, htab, hbyte⟩ := memoriesWf_iff.1 h.memories
  obtain ⟨fsym, -, fnode, ftab⟩ := cellsFit_iff.1 h.widths
  exact
    { h with
      memories := memoriesWf_iff.2 ⟨hsym, hwf, hnode, htab, hbyte⟩
      widths := cellsFit_iff.2 ⟨fsym, hfit, fnode, ftab⟩
      tree := h.tree.imp id fun ht => ht.congr rfl rfl rfl }

theorem Inv.setTree {m : Cells NodeRec} {cnt leaves : Word} (hwf : Memory.wf s.config.nodeCap m = true)
    (hfit : ∀ x ∈ m, x.2.fits s.config = true) (hleaves : leaves.toNat ≤ s.config.nMax)
    (htree : cnt.toNat = 0 ∨ TreeHeld (setTree m cnt leaves s)) : Inv (setTree m cnt leaves s) := by
  obtain ⟨hsym, hfreq, -, htab, hbyte⟩ := memoriesWf_iff.1 h.memories
  obtain ⟨fsym, ffreq, -, ftab⟩ := cellsFit_iff.1 h.widths
  exact
    { h with
      memories := memoriesWf_iff.2 ⟨hsym, hfreq, hwf, htab, hbyte⟩
      widths := cellsFit_iff.2 ⟨fsym, ffreq, hfit, ftab⟩
      leaves := hleaves
      tree := htree }

theorem Inv.withCodetab {m : Cells Entry} (hwf : Memory.wf s.config.tabCap m = true)
    (hfit : ∀ x ∈ m, x.2.fits s.config = true) : Inv { s with codetab := m } := by
  obtain ⟨hsym, hfreq, hnode, -, hbyte⟩ := memoriesWf_iff.1 h.memories
  obtain ⟨fsym, ffreq, fnode, -⟩ := cellsFit_iff.1 h.widths
  exact
    { h with
      memories := memoriesWf_iff.2 ⟨hsym, hfreq, hnode, hwf, hbyte⟩
      widths := cellsFit_iff.2 ⟨fsym, ffreq, fnode, hfit⟩
      tree := h.tree.imp id fun ht => ht.congr rfl rfl rfl }

theorem Inv.setTable {m : Cells Entry} (size : Word) (hwf : Memory.wf s.config.tabCap m = true)
    (hfit : ∀ x ∈ m, x.2.fits s.config = true) : Inv (setTable m size s) :=
  { h.withCodetab hwf hfit with tree := .inl rfl }

theorem Inv.setPacking {m : Cells Byte} (bytes syms : Word) {bits : Word} (hwf : Memory.wf s.config.byteCap m = true)
    (hbits : bits.toNat ≤ 8 * s.config.byteCap) : Inv (setPacking m bytes bits syms s) := by
  obtain ⟨hsym, hfreq, hnode, htab, -⟩ := memoriesWf_iff.1 h.memories
  exact
    { h with
      memories := memoriesWf_iff.2 ⟨hsym, hfreq, hnode, htab, hwf⟩
      bits := hbits
      tree := h.tree.imp id fun ht => ht.congr rfl rfl rfl }

theorem Inv.setDecoded {m : Cells Nat} (len : Word) (hwf : Memory.wf s.config.symCap m = true)
    (hfit : ∀ x ∈ m, x.2 < 2 ^ s.config.symW) : Inv (setDecoded m len s) := by
  obtain ⟨-, hfreq, hnode, htab, hbyte⟩ := memoriesWf_iff.1 h.memories
  obtain ⟨-, ffreq, fnode, ftab⟩ := cellsFit_iff.1 h.widths
  exact
    { h with
      memories := memoriesWf_iff.2 ⟨hwf, hfreq, hnode, htab, hbyte⟩
      widths := cellsFit_iff.2 ⟨hfit, ffreq, fnode, ftab⟩
      tree := h.tree.imp id fun ht => ht.congr rfl rfl rfl }

theorem Inv.scrub : Inv (scrub s) where
  memories := rfl
  widths := rfl
  status := h.status
  leaves := Nat.zero_le _
  bits := Nat.zero_le _
  tree := .inl rfl

/-! What the commands write. -/

theorem Inv.countWrites {f : Cells Nat} (hf : countResult s = .ok f) : Inv (Machine.setFreq f s) := by
  obtain ⟨hcap, -, xs, hxs, rfl⟩ := countResult_eq_ok.1 hf
  have hfit : ∀ x ∈ xs, x < s.config.nMax := forall_mem_of_holds hxs.2 (cellsFit_iff.1 h.widths).1
  exact h.setFreq (freqWf_tally hfit) (counts_fit_tally hfit (hxs.1 ▸ hcap))

theorem Inv.buildWrites {es : List (Nat × Nat)} (hes : buildResult s = .ok es) : Inv (buildCommit s es) := by
  obtain ⟨-, hfreq, hnode, -, -⟩ := memoriesWf_iff.1 h.memories
  obtain ⟨-, ffreq, fnode, -⟩ := cellsFit_iff.1 h.widths
  obtain ⟨hent, hne⟩ := buildResult_eq_ok.1 hes
  obtain rfl : es = s.freq := hent.trans (entries_of_freqWf hfreq)
  obtain ⟨hwf, hpos⟩ := freqWf_iff.1 hfreq
  obtain ⟨hrise, hsym⟩ := Memory.wf_iff.1 hwf
  have hlen := Memory.length_le_of_wf hwf
  have hnodes := length_treeNodes hne
  have hreg : 2 * s.config.nMax - 1 < 2 ^ 32 := s.config.nodeCap_reg
  have hcnt : (BitVec.ofNat 32 (2 * s.freq.length - 1)).toNat = 2 * s.freq.length - 1 :=
    Nat.mod_eq_of_lt (by omega)
  have hleaf : (BitVec.ofNat 32 s.freq.length).toNat = s.freq.length := Nat.mod_eq_of_lt (by omega)
  refine h.setTree ?_ ?_ (hleaf.trans_le hlen) (.inr ?_)
  · exact Memory.wf_setRange _ (by show _ ≤ 2 * s.config.nMax - 1; omega) hnode
  · exact forall_mem_setRange (P := fun r : NodeRec => r.fits s.config = true) fnode (fits_of_mem_treeNodes hne hlen hsym ffreq)
  · exact treeHeld_of_treeNodes hne hrise hpos (holds_setRange _ _) hcnt hleaf

theorem Inv.deriveWrites {cs : List (Nat × Bits)} (hcs : deriveResult s = .ok cs) : Inv (deriveCommit s cs) := by
  obtain ⟨-, -, -, htab, -⟩ := memoriesWf_iff.1 h.memories
  obtain ⟨-, -, fnode, ftab⟩ := cellsFit_iff.1 h.widths
  obtain ⟨hcnt, hcodes, hmax⟩ := deriveResult_eq_ok.1 hcs
  obtain ⟨T, hT, hlen, -, -⟩ := (h.tree.resolve_left hcnt).whole
  have hT := heldTree_eq_some.1 hT
  obtain rfl : codesOfTree T = cs := Attempt.ok.inj ((treeCodes_of_treeAt hT).symm.trans hcodes)
  refine h.setTable _ (Memory.wf_setRange _ ?_ htab)
    (forall_mem_setRange (P := fun e : Entry => e.fits s.config = true) ftab (List.forall_mem_map.2 fun c hc => ?_))
  · have hleaves := h.leaves
    have hsyms : (codesOfTree T).length = (treeSymbols T).length := by rw [← map_fst_codesOfTree, List.length_map]
    show _ ≤ s.config.nMax
    rw [List.length_map]; omega
  · have hmem : c.1 ∈ treeSymbols T := map_fst_codesOfTree T ▸ List.mem_map_of_mem hc
    obtain ⟨r, hr, hkey⟩ := exists_key_of_mem_treeSymbols hT _ hmem
    obtain ⟨-, -, hrk, -, -⟩ := nodeRec_fits_iff.1 (fnode r hr)
    have hlenW := Nat.lt_of_le_of_lt (hmax c hc) s.config.lenW_fits
    simp [Entry.fits, entryOf, ← hkey, hrk, hlenW]

theorem Inv.packWrites {b : Bits} (hb : packResult s = .ok b) : Inv (packCommit s b) := by
  obtain ⟨-, -, -, -, hbyte⟩ := memoriesWf_iff.1 h.memories
  obtain ⟨-, -, t, -, -, hg⟩ := packResult_eq_ok.1 hb
  have hlen := length_gatherBits_le (Nat.zero_le _) hg
  refine h.setPacking _ _ (Memory.wf_setRange _ ?_ hbyte) ?_
  · rw [length_packBits, ceilDiv8]; omega
  · exact (Nat.mod_le _ _).trans hlen

theorem Inv.unpackWrites {out : List Nat} (hout : unpackResult s = .ok out) : Inv (unpackCommit s out) := by
  obtain ⟨hsym, -⟩ := memoriesWf_iff.1 h.memories
  obtain ⟨fsym, -, -, ftab⟩ := cellsFit_iff.1 h.widths
  obtain ⟨hcap, -, -, t, ht, -, ⟨-, rfl⟩ | ⟨-, ys, -, hw⟩⟩ := unpackResult_eq_ok.1 hout
  · exact h.setDecoded _ hsym fsym
  · refine h.setDecoded _ (Memory.wf_setRange _ ?_ hsym)
      (forall_mem_setRange (P := fun x => x < 2 ^ s.config.symW) fsym fun x hx => ?_)
    · rw [length_decodeWalk t _ _ _ _ hw]; omega
    · obtain ⟨e, he, rfl⟩ := exists_entry_of_mem_decodeWalk hw x hx
      have hfit : e.fits s.config = true := forall_mem_of_holds (P := fun e : Entry => e.fits s.config = true) ht.2 ftab e he
      simp only [Entry.fits, Bool.and_eq_true, decide_eq_true_eq] at hfit
      exact hfit.1

/-! What the host does. -/

theorem Inv.hostRead (sp : Space) (i : Nat) : Inv (hostRead sp i s) := by
  rw [Machine.hostRead]
  split <;> exact h.withUnconstrained _ _ _ _ _ _ _ _

theorem Inv.regWrite (i : Nat) (w : Word) : Inv (regWrite i w s) := by
  unfold Machine.regWrite
  split <;> exact h.withUnconstrained _ _ _ _ _ _ _ _

theorem Inv.hostWrite {i : Nat} {v : Element} (hi : i < spaceSize s.config v.space) (hv : v.fits s.config = true) :
    Inv (hostWrite i v s) := by
  obtain ⟨hsym, hfreq, -, htab, hbyte⟩ := memoriesWf_iff.1 h.memories
  obtain ⟨fsym, ffreq, -, ftab⟩ := cellsFit_iff.1 h.widths
  cases v with
  | reg w => exact h.regWrite i w
  | sym x =>
    exact h.setDecoded _ (Memory.wf_set _ hi hsym)
      (forall_mem_set (P := fun x => x < 2 ^ s.config.symW) fsym (of_decide_eq_true hv))
  | count c =>
    exact h.setFreq (freqWf_freqSet _ hi hfreq) (forall_mem_freqSet (P := fun x => x < 2 ^ s.config.cntW) ffreq (of_decide_eq_true hv))
  | node r => exact h
  | entry e =>
    exact h.withCodetab (Memory.wf_set _ hi htab) (forall_mem_set (P := fun e : Entry => e.fits s.config = true) ftab hv)
  | byte b => exact h.setPacking _ _ (Memory.wf_set _ hi hbyte) h.bits

end Updates

/-! Commands and steps. -/

/-- The invariant in the configuration `c`. -/
def InvIn (c : Params) (s : State) : Prop := Inv s ∧ s.config = c

/-- Every answer from a state that meets the invariant meets it, in the same configuration. -/
def AnswersKeepInv (c : Params) (k : State → Host.Outcome State Fault Refusal) : Prop :=
  ∀ s t, InvIn c s → k s = .next t → InvIn c t

theorem complete_keepsInv (c : Params) : AnswersKeepInv c complete := by
  rintro s t ⟨h, hc⟩ ht
  obtain rfl := Host.Outcome.next.inj ht
  exact ⟨h.setStatus rfl, hc⟩

/-- A primitive step keeps the invariant when its writes do, on success and on an error, and the rest does. -/
theorem settle_keepsInv {α : Type} {c : Params} {op : Opcode} {r : Attempt α} {commit : α → State} {failed t : State}
    {k : State → Host.Outcome State Fault Refusal} (hcommit : ∀ a, r = .ok a → InvIn c (commit a))
    (hfailed : InvIn c failed) (hk : AnswersKeepInv c k) (ht : settle op r commit failed k = .next t) : InvIn c t := by
  rcases settle_eq_next.1 ht with ⟨a, ha, hkt⟩ | ⟨e, -, rfl⟩
  · exact hk _ _ (hcommit a ha) hkt
  · exact ⟨hfailed.1.setStatus (statusLegal_statusError e op), hfailed.2⟩

section Commands

variable {c : Params} {k : State → Host.Outcome State Fault Refusal} (hk : AnswersKeepInv c k)

include hk

theorem performCount_keepsInv : AnswersKeepInv c fun s => performCount s k := fun _ _ ⟨h, hc⟩ =>
  settle_keepsInv (fun _ hf => ⟨h.countWrites hf, hc⟩) ⟨h.setFreq rfl (by simp), hc⟩ hk

theorem performBuild_keepsInv : AnswersKeepInv c fun s => performBuild s k := fun _ _ ⟨h, hc⟩ =>
  settle_keepsInv (fun _ hes => ⟨h.buildWrites hes, hc⟩) ⟨h.setTree rfl (by simp) (Nat.zero_le _) (.inl rfl), hc⟩ hk

theorem performDerive_keepsInv : AnswersKeepInv c fun s => performDerive s k := fun _ _ ⟨h, hc⟩ =>
  settle_keepsInv (fun _ hcs => ⟨h.deriveWrites hcs, hc⟩) ⟨h.setTable _ rfl (by simp), hc⟩ hk

theorem performPack_keepsInv : AnswersKeepInv c fun s => performPack s k := fun _ _ ⟨h, hc⟩ =>
  settle_keepsInv (fun _ hb => ⟨h.packWrites hb, hc⟩) ⟨h.setPacking _ _ rfl (Nat.zero_le _), hc⟩ hk

theorem performUnpack_keepsInv : AnswersKeepInv c fun s => performUnpack s k := fun _ _ ⟨h, hc⟩ =>
  settle_keepsInv (fun _ hout => ⟨h.unpackWrites hout, hc⟩) ⟨h.setDecoded _ rfl (by simp), hc⟩ hk

end Commands

/-- Every command keeps the invariant and the configuration. -/
theorem exec_keepsInv (c : Params) (i : Instr) : AnswersKeepInv c (exec i) := by
  have hcomplete := complete_keepsInv c
  cases i with
  | clr => exact fun s t ⟨h, hc⟩ => hcomplete _ _ ⟨h.scrub, hc⟩
  | count => exact performCount_keepsInv hcomplete
  | build => exact performBuild_keepsInv hcomplete
  | derive => exact performDerive_keepsInv hcomplete
  | pack => exact performPack_keepsInv hcomplete
  | unpack => exact performUnpack_keepsInv hcomplete
  | encode =>
    exact performCount_keepsInv (performBuild_keepsInv (performDerive_keepsInv (performPack_keepsInv hcomplete)))

/-- Every step keeps the invariant and the configuration. -/
theorem step_keepsInv (c : Params) : AnswersKeepInv c step := by
  rintro s t ⟨h, hc⟩ ht
  obtain ⟨-, rfl⟩ | ⟨op, rest, -, hop⟩ := step_eq_next_cases ht
  · exact ⟨h, hc⟩
  have hrest : Inv (setPending rest s) := h.withUnconstrained _ _ _ _ _ _ _ _
  have hcmd (w : Word) : Inv (setCmd w (setPending rest s)) := h.withUnconstrained _ _ _ _ _ _ _ _
  obtain ⟨-, rfl⟩ | ⟨sp, i, -, -, rfl⟩ | ⟨i, v, -, -, hi, hv, -, rfl⟩ | ⟨w, i, -, -, -, hexec⟩ | ⟨w, e, -, -, -, rfl⟩ := hop
  · exact ⟨(hrest.scrub.setStatus rfl).withUnconstrained _ _ _ _ _ _ _ _, hc⟩
  · exact ⟨hrest.hostRead sp i, (hostRead_config ..).trans hc⟩
  · exact ⟨hrest.hostWrite hi hv, (hostWrite_config ..).trans hc⟩
  · exact exec_keepsInv c i _ _ ⟨hcmd w, hc⟩ hexec
  · exact ⟨(hcmd w).setStatus (statusLegal_statusError _ _), hc⟩

/-- Settles O14: every update keeps `Inv` once its values have the form and the widths of their spaces; the commands'
results have them (BUILD's by `treeNodes_invariant`, what each merge keeps), and a step is one host operation. -/
theorem stepKeepsInv : Obligations.StepKeepsInv := by
  unfold Obligations.StepKeepsInv
  intro s t h ht
  exact step_keepsInv s.config s t ⟨h, rfl⟩ ht

end Sys2Proof
end

section
/-! PROOFS. The frames: what each command may write and which cells a success leaves alone (obligations O59, O55). -/

namespace Sys2Proof

open Sys2Proof.Machine

/-! Cells behind what a command wrote. -/

/-- Writing a sequence from index 0 on leaves the cells behind it alone. -/
theorem sameFrom_setRange {α : Type} (m : Cells α) {xs : List α} {n : Nat} (h : xs.length ≤ n) :
    SameFrom n m (Memory.setRange m 0 xs) :=
  fun _ hk => Memory.get_setRange_beyond m xs (h.trans hk)

/-- STATUS is not 0 after an error (60_exceptions.md R219). -/
theorem statusError_ne_zero (e : ErrorKind) (op : Opcode) : statusError e op ≠ 0 := fun h => by
  have herr := statusErr_statusError e op
  rw [h] at herr
  exact absurd herr (by decide)

/-- BUILD's `2N - 1` records leave the cells behind them alone. -/
theorem sameFrom_buildCommit (s : State) {es : List (Nat × Nat)} (hne : es ≠ []) :
    SameFrom (2 * es.length - 1) s.node (buildCommit s es).node :=
  sameFrom_setRange s.node (length_treeNodes hne).le

/-- DERIVE's entries, as many as TABSIZE can count, leave the cells behind them alone. -/
theorem sameFrom_deriveCommit (s : State) {cs : List (Nat × Bits)} (hlen : cs.length < 2 ^ 32) :
    SameFrom (deriveCommit s cs).tabsize.toNat s.codetab (deriveCommit s cs).codetab := by
  refine sameFrom_setRange s.codetab ?_
  rw [List.length_map, deriveCommit, setTable_tabsize, BitVec.toNat_ofNat, Nat.mod_eq_of_lt hlen]

/-- PACK's bytes leave the cells behind them alone: BYTELEN counts them, because the bits are within BYTE_CAP. -/
theorem sameFrom_packCommit {s : State} {b : Bits} (hb : packResult s = .ok b) :
    SameFrom (packCommit s b).bytelen.toNat s.bytebuf (packCommit s b).bytebuf := by
  obtain ⟨-, -, t, -, -, hg⟩ := packResult_eq_ok.1 hb
  have hlen := length_gatherBits_le (Nat.zero_le _) hg
  have hcap := s.config.byteCap_bits
  have hbytes : ceilDiv8 b.length < 2 ^ 32 := by rw [ceilDiv8]; omega
  refine sameFrom_setRange s.bytebuf ?_
  rw [length_packBits, packCommit, setPacking_bytelen, BitVec.toNat_ofNat, Nat.mod_eq_of_lt hbytes]

/-- UNPACK's symbols, SYMCOUNT of them, leave the cells behind them alone. -/
theorem sameFrom_unpackCommit {s : State} {out : List Nat} (hout : unpackResult s = .ok out) :
    SameFrom (unpackCommit s out).symlen.toNat s.symbuf (unpackCommit s out).symbuf := by
  refine sameFrom_setRange s.symbuf ?_
  obtain ⟨-, -, -, t, -, -, ⟨-, rfl⟩ | ⟨-, ys, -, hw⟩⟩ := unpackResult_eq_ok.1 hout
  · exact Nat.zero_le _
  · exact (length_decodeWalk t _ _ _ _ hw).le

/-! How many entries there are, and that DERIVE finds the tree BUILD made. -/

/-- The tally lists its counts with rising symbols. -/
theorem rising_tally (xs : List Nat) : Memory.rising (tally xs) = true := by
  refine List.foldlRecOn xs tallyOne (motive := fun f => Memory.rising f = true) rfl fun f hf x _ => ?_
  rw [tallyOne, freqSet, if_neg (Nat.succ_ne_zero _)]
  exact Memory.rising_set _ _ hf

/-- The tally lists no count of 0. -/
theorem ne_zero_of_mem_tally (xs : List Nat) : ∀ c ∈ tally xs, c.2 ≠ 0 :=
  List.foldlRecOn xs tallyOne (motive := fun f => ∀ c ∈ f, c.2 ≠ 0) (by simp) fun _ hf _ _ =>
    forall_mem_freqSet (P := (· ≠ 0)) hf (Nat.succ_ne_zero _)

/-- The entries of a tally are the tally itself. -/
theorem entries_tally (xs : List Nat) : entries (tally xs) = tally xs :=
  List.filter_eq_self.2 fun c hc => bne_iff_ne.2 (ne_zero_of_mem_tally xs c hc)

/-- A tally has at most one entry per symbol counted. -/
theorem length_tally_le (xs : List Nat) : (tally xs).length ≤ xs.length := by
  have hsub : (tally xs).map Prod.fst ⊆ xs := by
    intro x hx
    obtain ⟨c, hc, rfl⟩ := List.mem_map.1 hx
    have hcount : c.2 = xs.count c.1 := by
      rw [← freqGet_tally, freqGet, (Memory.get_of_mem (rising_tally xs)).1 hc]; rfl
    exact List.count_pos_iff.1 (hcount ▸ Nat.pos_of_ne_zero (ne_zero_of_mem_tally xs c hc))
  simpa using (List.subperm_of_subset (Memory.nodup_indexes (rising_tally xs)) hsub).length_le

/-- After BUILD of entries with rising symbols and nonzero counts NODE holds a tree, when NODECNT can count its records. -/
theorem treeHeld_buildCommit (s : State) {es : List (Nat × Nat)} (hne : es ≠ []) (hrise : Memory.rising es = true)
    (hpos : ∀ e ∈ es, e.2 ≠ 0) (hlen : 2 * es.length - 1 < 2 ^ 32) : TreeHeld (buildCommit s es) :=
  treeHeld_of_treeNodes hne hrise hpos (holds_setRange _ _) (Nat.mod_eq_of_lt hlen)
    (Nat.mod_eq_of_lt (Nat.lt_of_le_of_lt (by omega) hlen))

/-- DERIVE makes one entry per leaf of the tree held (42_code_table_gen.md R140, R143). -/
theorem length_of_deriveResult {s : State} (h : TreeHeld s) {cs : List (Nat × Bits)} (hcs : deriveResult s = .ok cs) :
    cs.length = s.nleaf.toNat := by
  obtain ⟨-, hcodes, -⟩ := deriveResult_eq_ok.1 hcs
  obtain ⟨T, hT, hlen, -, -⟩ := h.whole
  obtain rfl : codesOfTree T = cs := Attempt.ok.inj ((treeCodes_of_treeAt (heldTree_eq_some.1 hT)).symm.trans hcodes)
  rw [← hlen, ← map_fst_codesOfTree, List.length_map]

/-! The frame of each command. -/

section Frames

variable {s t : State}

theorem exec_clr_frame (h : exec .clr s = .next t) :
    t = { State.reset with cmd := s.cmd, config := s.config, pending := s.pending, readLog := s.readLog,
                           draws := s.draws } :=
  (Host.Outcome.next.inj h).symm

theorem exec_count_frame (h : exec .count s = .next t) : t = { s with freq := t.freq, status := t.status } := by
  obtain ⟨f, -, rfl⟩ | ⟨e, -, rfl⟩ := exec_count_eq_next.1 h <;> rfl

theorem exec_build_frame (h : exec .build s = .next t) :
    t = { s with node := t.node, nodecnt := t.nodecnt, nleaf := t.nleaf, status := t.status } := by
  obtain ⟨es, -, rfl⟩ | ⟨e, -, rfl⟩ := exec_build_eq_next.1 h <;> rfl

theorem exec_derive_frame (h : exec .derive s = .next t) :
    t = { s with codetab := t.codetab, tabsize := t.tabsize, nodecnt := 0, status := t.status } := by
  obtain ⟨cs, -, rfl⟩ | ⟨e, -, rfl⟩ := exec_derive_eq_next.1 h <;> rfl

theorem exec_pack_frame (h : exec .pack s = .next t) :
    t = { s with bytebuf := t.bytebuf, bytelen := t.bytelen, bitlen := t.bitlen, symcount := t.symcount,
                 status := t.status } := by
  obtain ⟨b, -, rfl⟩ | ⟨e, -, rfl⟩ := exec_pack_eq_next.1 h <;> rfl

theorem exec_unpack_frame (h : exec .unpack s = .next t) :
    t = { s with symbuf := t.symbuf, symlen := t.symlen, status := t.status } := by
  obtain ⟨out, -, rfl⟩ | ⟨e, -, rfl⟩ := exec_unpack_eq_next.1 h <;> rfl

theorem exec_encode_frame (h : exec .encode s = .next t) :
    t = { s with freq := t.freq, node := t.node, nodecnt := t.nodecnt, nleaf := t.nleaf, codetab := t.codetab,
                 tabsize := t.tabsize, bytebuf := t.bytebuf, bytelen := t.bytelen, bitlen := t.bitlen,
                 symcount := t.symcount, status := t.status } := by
  obtain ⟨e, -, rfl⟩ | ⟨f, -, ⟨e, -, rfl⟩ | ⟨es, -, ⟨e, -, rfl⟩ | ⟨cs, -, ⟨e, -, rfl⟩ | ⟨b, -, rfl⟩⟩⟩⟩ :=
    exec_encode_eq_next.1 h <;> rfl

/-! The cells a success leaves alone. -/

theorem exec_build_keeps_cells (h : exec .build s = .next t) (hfreq : freqWf s.config s.freq = true)
    (ht : t.status = 0) : SameFrom t.nodecnt.toNat s.node t.node := by
  obtain ⟨es, hes, rfl⟩ | ⟨e, -, rfl⟩ := exec_build_eq_next.1 h
  · obtain ⟨rfl, hne⟩ := buildResult_eq_ok.1 hes
    rw [entries_of_freqWf hfreq] at hne ⊢
    have hlen := Memory.length_le_of_wf (freqWf_iff.1 hfreq).1
    have hreg : 2 * s.config.nMax - 1 < 2 ^ 32 := s.config.nodeCap_reg
    have hcnt : (buildCommit s s.freq).nodecnt.toNat = 2 * s.freq.length - 1 := Nat.mod_eq_of_lt (by omega)
    have hnode := sameFrom_buildCommit s hne
    rw [← hcnt] at hnode
    exact hnode
  · exact absurd ht (statusError_ne_zero _ _)

theorem exec_derive_keeps_cells (h : exec .derive s = .next t) (hinv : Inv s) (ht : t.status = 0) :
    SameFrom t.tabsize.toNat s.codetab t.codetab := by
  obtain ⟨cs, hcs, rfl⟩ | ⟨e, -, rfl⟩ := exec_derive_eq_next.1 h
  · have htree := hinv.tree.resolve_left (deriveResult_eq_ok.1 hcs).1
    exact sameFrom_deriveCommit s (length_of_deriveResult htree hcs ▸ s.nleaf.isLt)
  · exact absurd ht (statusError_ne_zero _ _)

theorem exec_pack_keeps_cells (h : exec .pack s = .next t) (ht : t.status = 0) :
    SameFrom t.bytelen.toNat s.bytebuf t.bytebuf := by
  obtain ⟨b, hb, rfl⟩ | ⟨e, -, rfl⟩ := exec_pack_eq_next.1 h
  · exact sameFrom_packCommit hb
  · exact absurd ht (statusError_ne_zero _ _)

theorem exec_unpack_keeps_cells (h : exec .unpack s = .next t) (ht : t.status = 0) :
    SameFrom t.symlen.toNat s.symbuf t.symbuf := by
  obtain ⟨out, hout, rfl⟩ | ⟨e, -, rfl⟩ := exec_unpack_eq_next.1 h
  · exact sameFrom_unpackCommit hout
  · exact absurd ht (statusError_ne_zero _ _)

/-- ENCODE needs no premise on the state: its tree is of its own tally, of at most SYM_CAP entries, so that every count
fits its register. -/
theorem exec_encode_keeps_cells (h : exec .encode s = .next t) (ht : t.status = 0) :
    SameFrom (2 * t.nleaf.toNat - 1) s.node t.node ∧ SameFrom t.tabsize.toNat s.codetab t.codetab ∧
      SameFrom t.bytelen.toNat s.bytebuf t.bytebuf := by
  obtain ⟨e, -, rfl⟩ | ⟨f, hf, ⟨e, -, rfl⟩ | ⟨es, hes, ⟨e, -, rfl⟩ | ⟨cs, hcs, ⟨e, -, rfl⟩ | ⟨b, hb, rfl⟩⟩⟩⟩ :=
    exec_encode_eq_next.1 h
  case inr.inr.inr.inr =>
    obtain ⟨hcap, -, xs, ⟨hlen, -⟩, rfl⟩ := countResult_eq_ok.1 hf
    obtain ⟨hent, hne⟩ := buildResult_eq_ok.1 hes
    obtain rfl : es = tally xs := hent.trans (entries_tally xs)
    have htally := length_tally_le xs
    have hbits : s.config.symCap * 32 < 2 ^ 32 := s.config.symCap_bits
    have hleaf : (buildCommit (setFreq (tally xs) s) (tally xs)).nleaf.toNat = (tally xs).length :=
      Nat.mod_eq_of_lt (by omega)
    have htree := treeHeld_buildCommit (setFreq (tally xs) s) hne (rising_tally xs) (ne_zero_of_mem_tally xs) (by omega)
    have hnode := sameFrom_buildCommit (setFreq (tally xs) s) hne
    rw [← hleaf] at hnode
    have htable := sameFrom_deriveCommit (buildCommit (setFreq (tally xs) s) (tally xs))
      (length_of_deriveResult htree hcs ▸ BitVec.isLt _)
    have hbytes := sameFrom_packCommit hb
    exact ⟨hnode, htable, hbytes⟩
  all_goals exact absurd ht (statusError_ne_zero _ _)

end Frames

/-- Settles O59: each command's frame and the cells behind its result, command by command. -/
theorem commandFrames : Obligations.CommandFrames := by
  unfold Obligations.CommandFrames
  intro s t
  exact ⟨exec_clr_frame, exec_count_frame, fun h => ⟨exec_build_frame h, exec_build_keeps_cells h⟩,
    fun h => ⟨exec_derive_frame h, exec_derive_keeps_cells h⟩, fun h => ⟨exec_pack_frame h, exec_pack_keeps_cells h⟩,
    fun h => ⟨exec_unpack_frame h, exec_unpack_keeps_cells h⟩,
    fun h => ⟨exec_encode_frame h, exec_encode_keeps_cells h⟩⟩

/-- CMD, the configuration, and what the host has pending, has read and has drawn (log entries 1 to 4). -/
def cmdAndHostSide (s : State) : Word × Params × List HostOp × List Element × Nat :=
  (s.cmd, s.config, s.pending, s.readLog, s.draws)

/-- No frame has CMD, the configuration or the host's side in it. -/
theorem exec_cmdAndHostSide {i : Instr} {s t : State} (h : exec i s = .next t) :
    cmdAndHostSide t = cmdAndHostSide s := by
  cases i with
  | clr => exact (congrArg cmdAndHostSide (exec_clr_frame h) :)
  | count => exact (congrArg cmdAndHostSide (exec_count_frame h) :)
  | build => exact (congrArg cmdAndHostSide (exec_build_frame h) :)
  | derive => exact (congrArg cmdAndHostSide (exec_derive_frame h) :)
  | pack => exact (congrArg cmdAndHostSide (exec_pack_frame h) :)
  | unpack => exact (congrArg cmdAndHostSide (exec_unpack_frame h) :)
  | encode => exact (congrArg cmdAndHostSide (exec_encode_frame h) :)

/-- Settles O55, from the commands' frames. -/
theorem commandsKeepCmdAndHostSide : Obligations.CommandsKeepCmdAndHostSide := by
  unfold Obligations.CommandsKeepCmdAndHostSide
  intro i s t h
  simpa [cmdAndHostSide] using exec_cmdAndHostSide h

end Sys2Proof
end

section
/-! PROOFS. Noninterference: what the commands do not read (obligations O54, O53). One principle serves both: a command is
made of primitive steps, and a primitive step ignores what neither its computation nor its writes see. -/

namespace Sys2Proof

open Sys2Proof.Machine

/-- `k` does not read what `hide` overwrites: with that overwritten the answer is the same, but for what `out`
overwrites. -/
def Ignores (hide out : State → State) (k : State → Host.Outcome State Fault Refusal) : Prop :=
  ∀ s, mapNext out (k (hide s)) = mapNext out (k s)

/-- A primitive step's computation does not see what `hide` overwrites, and its writes, on success and on an error, do not
carry it into the rest of the state. -/
structure StepIgnores {α : Type} (hide : State → State) (result : State → Attempt α) (commit : State → α → State)
    (failed : State → State) : Prop where
  result : ∀ s, result (hide s) = result s
  commit : ∀ s a, hide (commit (hide s) a) = hide (commit s a)
  failed : ∀ s, hide (failed (hide s)) = hide (failed s)

/-- None of the commands' primitive steps sees what `hide` overwrites, and what it overwrites is overwritten by a write of
STATUS and `out`. -/
structure Unread (hide out : State → State) : Prop where
  clr : ∀ s, hide (scrub (hide s)) = hide (scrub s)
  count : StepIgnores hide countResult (fun s f => setFreq f s) (setFreq [])
  build : StepIgnores hide buildResult buildCommit (setTree [] 0 0)
  derive : StepIgnores hide deriveResult deriveCommit (setTable [] 0)
  pack : StepIgnores hide packResult packCommit (setPacking [] 0 0 0)
  unpack : StepIgnores hide unpackResult unpackCommit (setDecoded [] 0)
  answer : ∀ w s, out (setStatus w (hide s)) = out (setStatus w s)

section Principle

variable {hide out : State → State} {k : State → Host.Outcome State Fault Refusal}

/-- From states that differ only in what is not read the answers agree. -/
theorem Ignores.congr (hk : Ignores hide out k) {s t : State} (h : hide s = hide t) :
    mapNext out (k s) = mapNext out (k t) := by
  rw [← hk s, h, hk t]

/-- The states that a write of STATUS leaves agree, where the states before it differ only in what is hidden. -/
theorem Unread.answer_congr (u : Unread hide out) (w : Word) {s t : State} (h : hide s = hide t) :
    out (setStatus w s) = out (setStatus w t) := by
  rw [← u.answer w s, h, u.answer w t]

theorem Unread.complete (u : Unread hide out) : Ignores hide out complete := fun s =>
  congrArg Host.Outcome.next (u.answer statusOk s)

/-- A primitive step that ignores what is hidden, with a rest that does, ignores it. -/
theorem Unread.settle (u : Unread hide out) {α : Type} {result : State → Attempt α} {commit : State → α → State}
    {failed : State → State} (op : Opcode) (hstep : StepIgnores hide result commit failed) (hk : Ignores hide out k) :
    Ignores hide out fun s => settle op (result s) (commit s) (failed s) k := by
  intro s
  simp only [hstep.result]
  cases result s with
  | ok a => exact hk.congr (hstep.commit s a)
  | raised e => exact congrArg Host.Outcome.next (u.answer_congr (statusError e op) (hstep.failed s))
  | fault f => rfl

/-- The commands ignore what none of their primitive steps sees. -/
theorem Unread.exec (u : Unread hide out) (i : Instr) : Ignores hide out (exec i) := by
  cases i with
  | clr => exact fun s => u.complete.congr (u.clr s)
  | count => exact u.settle opCount u.count u.complete
  | build => exact u.settle opBuild u.build u.complete
  | derive => exact u.settle opDerive u.derive u.complete
  | pack => exact u.settle opPack u.pack u.complete
  | unpack => exact u.settle opUnpack u.unpack u.complete
  | encode =>
    exact u.settle opCount u.count (u.settle opBuild u.build (u.settle opDerive u.derive
      (u.settle opPack u.pack u.complete)))

end Principle

/-- No primitive step sees CMD, BITLEN or NLEAF (10_state.md R24, R29, R31). -/
theorem unread_hideResults : Unread hideResults hideResults where
  clr _ := rfl
  count := ⟨fun _ => rfl, fun _ _ => rfl, fun _ => rfl⟩
  build := ⟨fun _ => rfl, fun _ _ => rfl, fun _ => rfl⟩
  derive := ⟨fun _ => rfl, fun _ _ => rfl, fun _ => rfl⟩
  pack := ⟨fun _ => rfl, fun _ _ => rfl, fun _ => rfl⟩
  unpack := ⟨fun _ => rfl, fun _ _ => rfl, fun _ => rfl⟩
  answer _ _ := rfl

/-- No primitive step sees STATUS, and every command overwrites it (10_state.md R25). -/
theorem unread_status (w : Word) : Unread (setStatus w) id where
  clr _ := rfl
  count := ⟨fun _ => rfl, fun _ _ => rfl, fun _ => rfl⟩
  build := ⟨fun _ => rfl, fun _ _ => rfl, fun _ => rfl⟩
  derive := ⟨fun _ => rfl, fun _ _ => rfl, fun _ => rfl⟩
  pack := ⟨fun _ => rfl, fun _ _ => rfl, fun _ => rfl⟩
  unpack := ⟨fun _ => rfl, fun _ _ => rfl, fun _ => rfl⟩
  answer _ _ := rfl

@[simp] theorem mapNext_id (o : Host.Outcome State Fault Refusal) : mapNext id o = o := by
  cases o <;> rfl

/-- Settles O54: no primitive step sees the three registers. -/
theorem commandsIgnoreResultRegisters : Obligations.CommandsIgnoreResultRegisters := by
  unfold Obligations.CommandsIgnoreResultRegisters
  exact unread_hideResults.exec

/-- Settles O53: no primitive step sees STATUS. -/
theorem commandsIgnoreStatus : Obligations.CommandsIgnoreStatus := by
  unfold Obligations.CommandsIgnoreStatus
  intro i s w
  have h := (unread_status w).exec i s
  rwa [mapNext_id, mapNext_id] at h

end Sys2Proof
end

section
/-! PROOFS. The state after reset and after CLR, and the layout of STATUS (obligations O12, O13, O52). -/

namespace Sys2Proof

open Sys2Proof.Machine

/-- A write of a command's word to CMD, the block being idle, runs that command (20_memory.md R61). -/
theorem step_of_command {s : State} {rest : List HostOp} {w : Word} {i : Instr}
    (hp : s.pending = .write 0 (.reg w) :: rest) (hb : statusBusy s.status = false) (hd : decode w = .ok i) :
    step s = exec i (setCmd w (setPending rest s)) := by
  simp [step, nextHostOp, hp, hostStep, hb, spaceSize, Element.space, Element.fits, issueCommand, hd]

/-- A space without listed cells is unwritten. -/
theorem unwritten_nil {α : Type} : Unwritten ([] : Cells α) := Memory.get_nil

/-- Settles O12: the word 1 is CLR, which scrubs the block. -/
theorem resetAndClearedValues : Obligations.ResetAndClearedValues := by
  unfold Obligations.ResetAndClearedValues
  refine ⟨⟨rfl, rfl, rfl, rfl, rfl, rfl, rfl, rfl, rfl, freqGet_nil, unwritten_nil, unwritten_nil, unwritten_nil,
    unwritten_nil⟩, fun s rest hp hb => ?_⟩
  exact ⟨_, step_of_command (i := .clr) hp hb rfl, rfl, rfl, rfl, rfl, rfl, rfl, rfl, rfl, rfl, freqGet_nil,
    unwritten_nil, unwritten_nil, unwritten_nil, unwritten_nil⟩

/-- Settles O13: at reset the memories list nothing, STATUS is 0 and no tree is held. -/
theorem invHoldsAtReset : Obligations.InvHoldsAtReset := by
  unfold Obligations.InvHoldsAtReset
  exact
    { memories := memoriesWf_reset
      widths := rfl
      status := rfl
      leaves := Nat.zero_le _
      bits := Nat.zero_le _
      tree := .inl rfl }

/-- A one-bit field of a word is its bit. -/
theorem extractLsb'_one (w : Word) (i : Nat) : w.extractLsb' i 1 = BitVec.ofBool (w.getLsbD i) := by
  refine BitVec.eq_of_getLsbD_eq fun j hj => ?_
  obtain rfl : j = 0 := by omega
  simp

@[simp] theorem statusErrOp_statusError (e : ErrorKind) (op : Opcode) : statusErrOp (statusError e op) = op := by
  refine BitVec.eq_of_getLsbD_eq fun i hi => ?_
  rw [statusErrOp, BitVec.getLsbD_extractLsb', getLsbD_statusError, if_neg (by omega), if_neg (by omega),
    Nat.add_sub_cancel_left, decide_eq_true hi, Bool.true_and]

/-- Settles O52, from the word's fields one by one. -/
theorem statusWordLayout : Obligations.StatusWordLayout := by
  unfold Obligations.StatusWordLayout
  refine ⟨fun e op => ?_, rfl, rfl, rfl, rfl, rfl, rfl, rfl⟩
  obtain ⟨hlow, hhigh⟩ := reserved_statusError e op
  have hbusy : (statusError e op).extractLsb' 0 1 = 0 := by rw [extractLsb'_one, getLsbD_statusError]; rfl
  have herr : (statusError e op).extractLsb' 1 1 = 1 := by rw [extractLsb'_one, getLsbD_statusError]; rfl
  exact ⟨hbusy, herr, hlow, statusErrCode_statusError e op, statusErrOp_statusError e op, hhigh⟩

end Sys2Proof
end

section
/-! PROOFS. The host's accesses: what one read and one write do, which accesses are refused, and that a command word
written to CMD runs its command (obligations O7, O8, O9, O4, O5). -/

namespace Sys2Proof

open Sys2Proof.Machine

/-! One step is the next pending operation, behind its guards. -/

/-- The machine's sizes of the spaces are those of 20_memory.md R60. -/
theorem spaceSize_eq_elements (c : Params) (sp : Space) : spaceSize c sp = sp.elements c := by
  cases sp <;> rfl

theorem readsStatus_read_iff {sp : Space} {i : Nat} : readsStatus (.read sp i) = true ↔ sp = .reg ∧ i = 1 := by
  unfold readsStatus
  split <;> simp_all

theorem step_of_pending {s : State} {op : HostOp} {rest : List HostOp} (hp : s.pending = op :: rest) :
    step s = hostStep op (setPending rest s) := by
  rw [step, nextHostOp, hp]

section Accesses

variable {s : State} {rest : List HostOp} {sp : Space} {i : Nat} {v : Element}

/-- A read is refused while BUSY = 1, but for STATUS (93_implementation_defined.md U1), and outside its space (U5). -/
theorem step_of_read (hp : s.pending = .read sp i :: rest) :
    step s =
      if statusBusy s.status = true ∧ ¬ (sp = .reg ∧ i = 1) then .refused .busyAccess
      else if sp.elements s.config ≤ i then .refused .indexOutOfRange
      else .next (hostRead sp i (setPending rest s)) := by
  rw [step_of_pending hp, hostStep]
  simp only [setPending_status, setPending_config, spaceSize_eq_elements, Bool.and_eq_true, Bool.not_eq_true',
    ← Bool.not_eq_true, readsStatus_read_iff]

/-- What an accepted write does: a write of CMD issues a command, every other one reaches its cell. -/
def acceptedWrite (i : Nat) (v : Element) (s : State) : Host.Outcome State Fault Refusal :=
  match v, i with
  | .reg w, 0 => issueCommand w s
  | _, _ => .next (hostWrite i v s)

theorem acceptedWrite_of_not_cmd (h : v.space = .reg → i ≠ 0) : acceptedWrite i v s = .next (hostWrite i v s) := by
  unfold acceptedWrite
  split
  · exact absurd rfl (h rfl)
  · rfl

theorem hostStep_write (i : Nat) (v : Element) (s : State) :
    hostStep (.write i v) s =
      if statusBusy s.status then .refused .busyAccess
      else if spaceSize s.config v.space ≤ i then .refused .indexOutOfRange
      else if !v.fits s.config then .refused .elementTooWide
      else acceptedWrite i v s := rfl

/-- A write is refused while BUSY = 1 (93_implementation_defined.md U1), outside its space (U5) and where the value is too
wide (log entry 13). -/
theorem step_of_write (hp : s.pending = .write i v :: rest) :
    step s =
      if statusBusy s.status = true then .refused .busyAccess
      else if v.space.elements s.config ≤ i then .refused .indexOutOfRange
      else if v.fits s.config = false then .refused .elementTooWide
      else acceptedWrite i v (setPending rest s) := by
  rw [step_of_pending hp, hostStep_write]
  simp only [setPending_status, setPending_config, spaceSize_eq_elements, Bool.not_eq_true']

end Accesses

/-- Settles O9: the guards of a read and of a write, each with the ones before it passed. -/
theorem hostAccessRefusals : Obligations.HostAccessRefusals := by
  unfold Obligations.HostAccessRefusals
  refine ⟨fun s rest sp i hp hb hi => ?_, fun s rest i v hp hb hi => ?_, fun s rest sp i hp hb hne => ?_,
    fun s rest i v hp hb => ?_, fun s rest i v hp hb hi hw => ?_⟩
  · rw [step_of_read hp, if_neg (by simp [hb]), if_pos hi]
  · rw [step_of_write hp, if_neg (by simp [hb]), if_pos hi]
  · rw [step_of_read hp, if_pos ⟨hb, hne⟩]
  · rw [step_of_write hp, if_pos hb]
  · rw [step_of_write hp, if_neg (by simp [hb]), if_neg (by omega), if_pos hw]

/-! Reads. -/

/-- What the host has of a read: the element, or the free value where the spec leaves it open (20_memory.md R61, log
entry 3). -/
def readValue (sp : Space) (i : Nat) (s : State) : Element :=
  (elementAt sp i s).getD (freeElement s.config sp s.draws)

/-- A read hands the host its value and changes the host's side alone. -/
theorem hostRead_eq (sp : Space) (i : Nat) (s : State) :
    ∃ d, hostRead sp i s = { s with readLog := readValue sp i s :: s.readLog, draws := d } := by
  rw [hostRead, readValue]
  cases elementAt sp i s with
  | some e => exact ⟨s.draws, rfl⟩
  | none => exact ⟨s.draws + 1, rfl⟩

theorem readValue_of_elementAt {sp : Space} {i : Nat} {s : State} {e : Element} (h : elementAt sp i s = some e) :
    readValue sp i s = e := by
  rw [readValue, h]; rfl

theorem space_of_elementAt {sp : Space} {i : Nat} {s : State} {e : Element} (h : elementAt sp i s = some e) :
    e.space = sp := by
  cases sp with
  | reg => exact Option.some.inj h ▸ rfl
  | freq => exact Option.some.inj h ▸ rfl
  | node =>
    obtain ⟨-, h⟩ := Option.ite_none_right_eq_some.1 h
    obtain ⟨x, -, rfl⟩ := Option.map_eq_some_iff.1 h; rfl
  | symbuf => obtain ⟨x, -, rfl⟩ := Option.map_eq_some_iff.1 h; rfl
  | codetab => obtain ⟨x, -, rfl⟩ := Option.map_eq_some_iff.1 h; rfl
  | bytebuf => obtain ⟨x, -, rfl⟩ := Option.map_eq_some_iff.1 h; rfl

/-- A count has its width: a cell of FREQ that is not listed reads 0. -/
theorem freqGet_lt {m : Cells Nat} {n : Nat} (hn : 0 < n) (hm : ∀ x ∈ m, x.2 < n) (i : Nat) : freqGet m i < n := by
  rw [freqGet]
  cases h : Memory.get m i with
  | none => exact hn
  | some x => exact hm _ (Memory.mem_of_get h)

theorem fits_of_elementAt {sp : Space} {i : Nat} {s : State} {e : Element} (hfit : cellsFit s = true)
    (h : elementAt sp i s = some e) : e.fits s.config = true := by
  obtain ⟨fsym, ffreq, fnode, ftab⟩ := cellsFit_iff.1 hfit
  cases sp with
  | reg => exact Option.some.inj h ▸ rfl
  | freq => exact Option.some.inj h ▸ decide_eq_true (freqGet_lt (Nat.two_pow_pos _) ffreq i)
  | node =>
    obtain ⟨-, h⟩ := Option.ite_none_right_eq_some.1 h
    obtain ⟨x, hx, rfl⟩ := Option.map_eq_some_iff.1 h
    exact fnode _ (Memory.mem_of_get hx)
  | symbuf =>
    obtain ⟨x, hx, rfl⟩ := Option.map_eq_some_iff.1 h
    exact decide_eq_true (fsym _ (Memory.mem_of_get hx))
  | codetab =>
    obtain ⟨x, hx, rfl⟩ := Option.map_eq_some_iff.1 h
    exact ftab _ (Memory.mem_of_get hx)
  | bytebuf => obtain ⟨x, -, rfl⟩ := Option.map_eq_some_iff.1 h; rfl

theorem space_freeElement (c : Params) (sp : Space) (n : Nat) : (freeElement c sp n).space = sp := by
  cases sp <;> rfl

theorem space_readValue (sp : Space) (i : Nat) (s : State) : (readValue sp i s).space = sp := by
  cases h : elementAt sp i s with
  | some e => rw [readValue_of_elementAt h, space_of_elementAt h]
  | none => rw [readValue, h]; exact space_freeElement _ _ _

theorem fits_readValue (sp : Space) (i : Nat) {s : State} (hfit : cellsFit s = true) :
    (readValue sp i s).fits s.config = true := by
  cases h : elementAt sp i s with
  | some e => rw [readValue_of_elementAt h]; exact fits_of_elementAt hfit h
  | none => rw [readValue, h]; exact fits_freeElement _ _ _

/-- The registers by their indexes (10_state.md R23). -/
theorem getElem?_registers {i : Nat} (hi : i < Config.regCount) (s : State) :
    [s.cmd, s.status, s.symlen, s.symcount, s.tabsize, s.bitlen, s.bytelen, s.nodecnt, s.nleaf][i]? =
      some (regRead i s) := by
  interval_cases i <;> rfl

/-- Settles O7: an accepted read hands the host `readValue`, which is the element wherever the spec gives one. -/
theorem hostReadReturnsTheElement : Obligations.HostReadReturnsTheElement := by
  unfold Obligations.HostReadReturnsTheElement
  intro s rest sp i hp hidle hi
  obtain ⟨d, hd⟩ := hostRead_eq sp i (setPending rest s)
  have hvalue : readValue sp i (setPending rest s) = readValue sp i s := rfl
  have hstep : step s = .next (hostRead sp i (setPending rest s)) := by
    rw [step_of_read hp, if_neg (by rcases hidle with hb | hstatus <;> simp [*]), if_neg (by omega)]
  refine ⟨readValue sp i s, d, by rw [hstep, hd, hvalue]; rfl, space_readValue sp i s, fits_readValue sp i, ?_, ?_, ?_,
    ?_, ?_, ?_⟩
  · rintro rfl
    rw [List.getElem?_map, getElem?_registers hi]; rfl
  · rintro rfl v hv
    exact readValue_of_elementAt (congrArg (Option.map Element.sym) hv)
  · rintro rfl
    exact readValue_of_elementAt (sp := .freq) rfl
  · rintro rfl hvalid v hv
    exact readValue_of_elementAt ((if_pos hvalid).trans (congrArg (Option.map Element.node) hv))
  · rintro rfl v hv
    exact readValue_of_elementAt (congrArg (Option.map Element.entry) hv)
  · rintro rfl v hv
    exact readValue_of_elementAt (congrArg (Option.map Element.byte) hv)

/-! Writes. -/

/-- The four registers a host write reaches (20_memory.md R62). -/
theorem regWrite_eq (i : Nat) (w : Word) (s : State) :
    regWrite i w s =
      if i = 2 then { s with symlen := w }
      else if i = 3 then { s with symcount := w }
      else if i = 4 then { s with tabsize := w }
      else if i = 6 then { s with bytelen := w }
      else s := by
  unfold regWrite
  split <;> simp_all

/-- A written cell holds the value, every other cell what it held. -/
theorem get_set_frame {α : Type} (m : Cells α) (i : Nat) (x : α) :
    Memory.get (Memory.set m i x) i = some x ∧ ∀ j, j ≠ i → Memory.get (Memory.set m i x) j = Memory.get m j :=
  ⟨Memory.get_set_same m i x, fun _ hj => Memory.get_set_other m x hj.symm⟩

/-- Settles O8: an accepted write is `hostWrite`, which writes at most the one cell or register. -/
theorem hostWriteStoresOrIsIgnored : Obligations.HostWriteStoresOrIsIgnored := by
  unfold Obligations.HostWriteStoresOrIsIgnored
  intro s rest i v hp hb hi hw hcmd
  have hstep : step s = .next (hostWrite i v (setPending rest s)) := by
    rw [step_of_write hp, if_neg (by simp [hb]), if_neg (by omega), if_neg (by simp [hw]), acceptedWrite_of_not_cmd hcmd]
  refine ⟨_, hstep, ?_, ?_, ?_, ?_, ?_, ?_⟩
  · rintro w rfl
    exact regWrite_eq i w (setPending rest s)
  · rintro x rfl
    exact ⟨rfl, get_set_frame s.symbuf i x⟩
  · rintro x rfl
    exact ⟨rfl, by simp [hostWrite, freqGet_freqSet], fun j hj => by simp [hostWrite, freqGet_freqSet, hj.symm]⟩
  · rintro x rfl
    rfl
  · rintro x rfl
    exact ⟨rfl, get_set_frame s.codetab i x⟩
  · rintro x rfl
    exact ⟨rfl, get_set_frame s.bytebuf i x⟩

/-! Commands. -/

/-- Settles O4: `step_of_command`, with its state written out. -/
theorem stepRunsTheDecodedCommand : Obligations.StepRunsTheDecodedCommand := by
  unfold Obligations.StepRunsTheDecodedCommand
  intro s rest w i hp hb hd
  exact step_of_command hp hb hd

/-- A word of the opcode table's numbering has its bits and decodes as the command word (30_encoding.md R94). -/
theorem decodeTableWord_eq_some {n w : Nat} {i : Instr} (h : decodeTableWord n w = some i) :
    w < 2 ^ n ∧ decode (BitVec.ofNat 32 w) = .ok i := by
  unfold decodeTableWord at h
  obtain ⟨⟨-, hw⟩, h⟩ := Option.ite_none_right_eq_some.1 h
  refine ⟨hw, ?_⟩
  split at h
  · next hd => rw [hd, Option.some.inj h]
  · cases h

@[simp] theorem statusBusy_statusIdle (w : Word) : statusBusy (statusIdle w) = false := by
  simp [statusBusy, statusIdle]

/-- Settles O5: the word placed at the head is below 2^32, so it is written as it stands, to an idle block. -/
theorem fetchWordIsRunNext : Obligations.FetchWordIsRunNext := by
  unfold Obligations.FetchWordIsRunNext
  intro s w i h
  obtain ⟨hw, hd⟩ := decodeTableWord_eq_some h
  have hmod : w % 2 ^ 32 = w := Nat.mod_eq_of_lt hw
  have hstep := step_of_command (s := s.withFetchWord 32 w) rfl (statusBusy_statusIdle _) (hmod.symm ▸ hd)
  rw [hstep, hmod]; rfl

end Sys2Proof
end

section
/-! PROOFS. The reference serialisation (20_memory.md R73): the big-endian fields, one entry, the entries, the payload
(obligation O60). -/

namespace Sys2Proof.Machine

/-! Big-endian fields. -/

@[simp] theorem length_bigEndian (k v : Nat) : (bigEndian k v).length = k := by
  induction k with
  | zero => rfl
  | succ k ih => simp [bigEndian, ih]

theorem foldl_bigEndian (k v a : Nat) :
    (bigEndian k v).foldl (fun acc y => 256 * acc + y.toNat) a = a * 2 ^ (8 * k) + v % 2 ^ (8 * k) := by
  induction k generalizing a with
  | zero => simp [bigEndian, Nat.mod_one]
  | succ k ih =>
    have hpow : 2 ^ (8 * (k + 1)) = 2 ^ (8 * k) * 2 ^ 8 := by rw [← pow_add]; rfl
    rw [bigEndian, List.foldl_cons, ih, BitVec.toNat_ofNat, hpow, Nat.mod_mul]
    ring

/-- A big-endian field of `k` bytes gives back a value that fits it. -/
theorem bigEndianVal_bigEndian {k v : Nat} (h : v < 2 ^ (8 * k)) : bigEndianVal (bigEndian k v) = v := by
  rw [bigEndianVal, foldl_bigEndian, Nat.mod_eq_of_lt h, Nat.zero_mul, Nat.zero_add]

theorem ofNat_bigEndianVal_bigEndian (w : BitVec 32) : BitVec.ofNat 32 (bigEndianVal (bigEndian 4 w.toNat)) = w := by
  rw [bigEndianVal_bigEndian w.isLt, BitVec.ofNat_toNat, BitVec.setWidth_eq]

/-- The field that stands `n` bytes into a stream. -/
theorem field_of_append {n k : Nat} {pre mid post : List Byte} (hn : pre.length = n) (hk : mid.length = k) :
    ((pre ++ mid ++ post).drop n).take k = mid := by
  rw [List.append_assoc, List.drop_left' hn, List.take_left' hk]

/-! Entries. -/

theorem entry_fits_iff {c : Params} {e : Entry} : e.fits c = true ↔ e.sym < 2 ^ c.symW ∧ e.len < 2 ^ c.lenW := by
  simp [Entry.fits]

/-- A symbol of `SYM_W` bits fits the `SB` bytes it has in a stream. -/
theorem sym_lt_of_fits {c : Params} {e : Entry} (h : e.fits c = true) : e.sym < 2 ^ (8 * symBytes c) := by
  have hbits : c.symW ≤ 8 * symBytes c := by rw [symBytes, ceilDiv8]; omega
  exact (entry_fits_iff.1 h).1.trans_le (Nat.pow_le_pow_right (by decide) hbits)

@[simp] theorem length_serialiseEntry (c : Params) (e : Entry) : (serialiseEntry c e).length = symBytes c + 5 := by
  simp [serialiseEntry]

/-- The bytes of an entry at the head of a stream give the entry. -/
theorem deserialiseEntry_serialiseEntry {c : Params} {e : Entry} (hfit : e.fits c = true) (hlen : e.len < 2 ^ 8)
    (rest : List Byte) : deserialiseEntry c (serialiseEntry c e ++ rest) = some e := by
  have hsym : bigEndianVal ((serialiseEntry c e ++ rest).take (symBytes c)) = e.sym := by
    rw [serialiseEntry, List.append_assoc, List.append_assoc, List.take_left' (length_bigEndian _ _),
      bigEndianVal_bigEndian (sym_lt_of_fits hfit)]
  have hlength : bigEndianVal (((serialiseEntry c e ++ rest).drop (symBytes c)).take 1) = e.len := by
    rw [serialiseEntry, List.append_assoc, field_of_append (length_bigEndian _ _) (length_bigEndian _ _),
      bigEndianVal_bigEndian hlen]
  have hcode : BitVec.ofNat 32 (bigEndianVal (((serialiseEntry c e ++ rest).drop (symBytes c + 1)).take 4)) = e.code := by
    rw [serialiseEntry, field_of_append (by simp) (length_bigEndian _ _), ofNat_bigEndianVal_bigEndian]
  rw [deserialiseEntry, hsym, hlength, hcode]
  exact if_pos hfit

/-- The bytes of a table at the head of a stream give its entries and the bytes after them. -/
theorem deserialiseEntries_flatMap {c : Params} {t : List Entry} (hfit : ∀ e ∈ t, e.fits c = true)
    (hlen : ∀ e ∈ t, e.len < 2 ^ 8) (rest : List Byte) :
    deserialiseEntries c t.length (t.flatMap (serialiseEntry c) ++ rest) = some (t, rest) := by
  induction t with
  | nil => rfl
  | cons e t ih =>
    obtain ⟨hfit_e, hfit_t⟩ := List.forall_mem_cons.1 hfit
    obtain ⟨hlen_e, hlen_t⟩ := List.forall_mem_cons.1 hlen
    rw [List.flatMap_cons, List.append_assoc, List.length_cons, deserialiseEntries,
      if_neg (by simp), deserialiseEntry_serialiseEntry hfit_e hlen_e,
      List.drop_left' (length_serialiseEntry c e), ih hfit_t hlen_t]

/-! Payloads. -/

theorem serialisable_iff {c : Params} {p : Payload} :
    serialisable c p = true ↔
      p.table.length < 2 ^ 32 ∧ ∀ e ∈ p.table, e.sym < 2 ^ (8 * symBytes c) ∧ e.len < 2 ^ 8 := by
  simp [serialisable]

/-- The reference serialisation of a payload (20_memory.md R73). -/
def payloadBytes (c : Params) (p : Payload) : List Byte :=
  bigEndian 4 p.symbolCount.toNat ++ bigEndian 4 p.table.length ++ p.table.flatMap (serialiseEntry c) ++ p.packedBytes

theorem serialise_eq_some {c : Params} {p : Payload} {ys : List Byte} :
    serialise c p = some ys ↔ serialisable c p = true ∧ payloadBytes c p = ys := by
  rw [serialise, Option.ite_none_right_eq_some, Option.some.injEq, payloadBytes]

theorem length_payloadBytes (c : Params) (p : Payload) :
    (payloadBytes c p).length = 8 + p.table.length * (symBytes c + 5) + p.packedBytes.length := by
  simp only [payloadBytes, List.length_append, length_bigEndian, List.length_flatMap, length_serialiseEntry,
    List.map_const', List.sum_replicate, smul_eq_mul]

/-- Deserialising the bytes of a payload that has a serialisation gives it back. -/
theorem deserialise_payloadBytes {c : Params} {p : Payload} (hfit : ∀ e ∈ p.table, e.fits c = true)
    (hs : serialisable c p = true) : deserialise c (payloadBytes c p) = some p := by
  obtain ⟨htable, hfields⟩ := serialisable_iff.1 hs
  have hlong : ¬ (payloadBytes c p).length < 8 := by rw [length_payloadBytes]; omega
  have hcount : BitVec.ofNat 32 (bigEndianVal ((payloadBytes c p).take 4)) = p.symbolCount := by
    rw [payloadBytes, List.append_assoc, List.append_assoc, List.take_left' (length_bigEndian _ _),
      ofNat_bigEndianVal_bigEndian]
  have hsize : bigEndianVal (((payloadBytes c p).drop 4).take 4) = p.table.length := by
    rw [payloadBytes, List.append_assoc, field_of_append (length_bigEndian _ _) (length_bigEndian _ _),
      bigEndianVal_bigEndian htable]
  have hbody : (payloadBytes c p).drop 8 = p.table.flatMap (serialiseEntry c) ++ p.packedBytes := by
    rw [payloadBytes, List.append_assoc, List.drop_left' (by simp)]
  rw [deserialise, if_neg hlong, hsize, hbody, deserialiseEntries_flatMap hfit (fun e he => (hfields e he).2), hcount]

/-- A well-formed table of at most `TAB_CAP` entries that CODETAB can hold fits the fields of a stream. -/
theorem serialisable_of_tableWF {c : Params} {p : Payload} (hfit : ∀ e ∈ p.table, e.fits c = true)
    (hwf : tableWF p.table = true) (hcap : p.table.length ≤ c.tabCap) : serialisable c p = true := by
  have hreg : 2 * c.tabCap - 1 < 2 ^ 32 := c.nodeCap_reg
  refine serialisable_iff.2 ⟨by omega, fun e he => ⟨sym_lt_of_fits (hfit e he), ?_⟩⟩
  simp only [tableWF, Bool.and_eq_true, List.all_eq_true, lenLegal, decide_eq_true_eq] at hwf
  obtain ⟨⟨⟨hlengths, -⟩, -⟩, -⟩ := hwf
  exact (hlengths e he).2.trans_lt (by decide)

end Sys2Proof.Machine

namespace Sys2Proof

open Sys2Proof.Machine

/-- Settles O60, from the round trip of the payload's bytes and their length. -/
theorem serialisationRoundTrip : Obligations.SerialisationRoundTrip := by
  unfold Obligations.SerialisationRoundTrip
  refine ⟨fun c p ys hfit hys => ?_, fun c p hfit hwf hcap => ?_⟩
  · obtain ⟨hs, rfl⟩ := serialise_eq_some.1 hys
    exact deserialise_payloadBytes hfit hs
  · have hs := serialisable_of_tableWF hfit hwf hcap
    exact ⟨_, serialise_eq_some.2 ⟨hs, rfl⟩, length_payloadBytes c p⟩

end Sys2Proof
end

section
/-! PROOFS. Command words: their two fields, the opcode map, the decoder and the legality check (30_encoding.md R90,
R91, R93; obligations O1, O2, O3). -/

namespace Sys2Proof

/-! The fields of a word. -/

/-- A word is its field `zero` above its field `op` (30_encoding.md R90). -/
theorem zeroField_append_opField (w : Word) : zeroField w ++ opField w = w :=
  BitVec.extractLsb'_append_extractLsb' (w := 24) (len := 8)

theorem encoding_statement (i : Instr) : Laws.Encoding.Statement i := by
  cases i with
  | clr => exact Laws.Encoding.clr
  | count => exact Laws.Encoding.count
  | build => exact Laws.Encoding.build
  | derive => exact Laws.Encoding.derive
  | pack => exact Laws.Encoding.pack
  | unpack => exact Laws.Encoding.unpack
  | encode => exact Laws.Encoding.encode

/-- A word is the word of `i` exactly when its fields are those of `encode i`. -/
theorem eq_encode_iff {w : Word} {i : Instr} : w = encode i ↔ zeroField w = 0 ∧ opField w = opcode i := by
  constructor
  · rintro rfl
    obtain ⟨hzero, hop, -⟩ := encoding_statement i
    exact ⟨hzero, hop⟩
  · rintro ⟨hzero, hop⟩
    rw [← zeroField_append_opField w, hzero, hop]; rfl

/-! The opcode map. -/

@[simp] theorem decodeOpcode_opcode (i : Instr) : decodeOpcode (opcode i) = some i := by
  cases i <;> rfl

/-- The opcode map gives each command for its own opcode only (30_encoding.md R91). -/
theorem decodeOpcode_eq_some {op : Opcode} {i : Instr} : decodeOpcode op = some i ↔ op = opcode i := by
  refine ⟨fun h => ?_, fun h => h ▸ decodeOpcode_opcode i⟩
  unfold decodeOpcode at h
  split at h <;> cases h <;> exact BitVec.eq_of_toNat_eq ‹_›

/-- The opcodes are exactly the numbers 1 to 7 (30_encoding.md R91). -/
theorem exists_eq_opcode_iff {op : Opcode} : (∃ i, op = opcode i) ↔ 1 ≤ op.toNat ∧ op.toNat ≤ 7 := by
  constructor
  · rintro ⟨i, rfl⟩
    cases i <;> decide
  · rintro ⟨hlow, hhigh⟩
    have hsome : (decodeOpcode op).isSome := by
      unfold decodeOpcode
      interval_cases op.toNat <;> rfl
    obtain ⟨i, hi⟩ := Option.isSome_iff_exists.1 hsome
    exact ⟨i, decodeOpcode_eq_some.1 hi⟩

/-! The decoder, the legality check and the opcode table's numbering. -/

theorem decode_of_zeroField_ne {w : Word} (h : zeroField w ≠ 0) : decode w = .error .zeroFieldNotZero := if_neg h

/-- With the field `zero` clear, the opcode map decides (30_encoding.md R93). -/
theorem decode_of_zeroField_eq {w : Word} {o : Option Instr} (hzero : zeroField w = 0)
    (hop : decodeOpcode (opField w) = o) : decode w = o.elim (.error .opcodeReserved) .ok := by
  rw [decode, if_pos hzero, hop]
  cases o <;> rfl

theorem decode_of_decodeOpcode_none {w : Word} (hzero : zeroField w = 0) (hop : decodeOpcode (opField w) = none) :
    decode w = .error .opcodeReserved :=
  decode_of_zeroField_eq hzero hop

/-- The words that decode to `i` are the word of `i` alone. -/
theorem decode_eq_ok_iff {w : Word} {i : Instr} : decode w = .ok i ↔ w = encode i := by
  rw [eq_encode_iff, ← decodeOpcode_eq_some]
  by_cases hzero : zeroField w = 0
  · rw [decode_of_zeroField_eq hzero rfl]
    cases decodeOpcode (opField w) <;> simp [hzero]
  · rw [decode_of_zeroField_ne hzero]
    exact ⟨nofun, fun h => absurd h.1 hzero⟩

@[simp] theorem decode_encode (i : Instr) : decode (encode i) = .ok i := decode_eq_ok_iff.2 rfl

theorem wordLegal_iff {w : Word} :
    wordLegal w = true ↔ zeroField w = 0 ∧ 1 ≤ (opField w).toNat ∧ (opField w).toNat ≤ 7 := by
  simp [wordLegal, zeroField, opField]

/-- A command word is a word of 32 bits in the opcode table's numbering too (30_encoding.md R94). -/
theorem decodeTableWord_toNat {w : Word} {i : Instr} (h : decode w = .ok i) : decodeTableWord 32 w.toNat = some i := by
  rw [decodeTableWord, if_pos ⟨le_rfl, w.isLt⟩, BitVec.ofNat_toNat, BitVec.setWidth_eq, h]

/-! The obligations. -/

/-- Settles O3: the fields of a word make the word, and the opcodes are exactly 1 to 7. -/
theorem onlyCommandWordsDecode : Obligations.OnlyCommandWordsDecode := by
  unfold Obligations.OnlyCommandWordsDecode
  refine fun w => ⟨fun i => decode_eq_ok_iff, ?_⟩
  calc wordLegal w = true
    _ ↔ zeroField w = 0 ∧ ∃ i, opField w = opcode i := by rw [wordLegal_iff, exists_eq_opcode_iff]
    _ ↔ ∃ i, w = encode i := by simp only [eq_encode_iff, exists_and_left]

/-- Settles O2: both decoders invert the encoder. -/
theorem decodeOfEncodeIsTheCommand : Obligations.DecodeOfEncodeIsTheCommand := by
  unfold Obligations.DecodeOfEncodeIsTheCommand
  exact fun i _ => ⟨decode_encode i, decodeTableWord_toNat (decode_encode i)⟩

/-- Settles O1: seven encoder words, three reserved opcodes, two words with a bit above bit 7 set. -/
theorem commandWordsDecode : Obligations.CommandWordsDecode := by
  unfold Obligations.CommandWordsDecode
  exact ⟨decode_encode .clr, decode_encode .count, decode_encode .build, decode_encode .derive, decode_encode .pack,
    decode_encode .unpack, decode_encode .encode, decode_of_decodeOpcode_none rfl rfl,
    decode_of_decodeOpcode_none rfl rfl, decode_of_decodeOpcode_none rfl rfl,
    decode_of_zeroField_ne (by decide), decode_of_zeroField_ne (by decide)⟩

end Sys2Proof
end

section
/-! PROOFS. COUNT: its completion, its errors and its fault, and what the counts add up to (obligations O15, O16, O17). -/

namespace Sys2Proof

open Sys2Proof.Machine

/-! What COUNT's computation comes to when it has no result. -/

theorem readSymbols_eq_fault {s : State} {f : Fault} :
    readSymbols s = .fault f ↔ f = .unwrittenCell .symbuf ∧ ∃ k < s.symlen.toNat, Memory.get s.symbuf k = none := by
  simp only [readSymbols, readRegion_eq_fault, Nat.zero_add]

/-- COUNT's errors: a length beyond SYM_CAP, a length of 0 (40_symbol_freq_counter.md R110). The two exclude each other
because SYM_CAP is at least 1. -/
theorem countResult_eq_raised {s : State} {e : ErrorKind} :
    countResult s = .raised e ↔
      (s.config.symCap < s.symlen.toNat ∧ e = .capacity) ∨ (s.symlen = 0 ∧ e = .emptyInput) := by
  have hcap := s.config.symCap_pos
  have hzero : s.symlen = 0 ↔ s.symlen.toNat = 0 := by simp [← BitVec.toNat_inj]
  rw [countResult, hzero]
  split_ifs with hlong hempty
  · have hne : s.symlen.toNat ≠ 0 := by omega
    simp [hlong, hne, eq_comm]
  · simp [hempty, eq_comm]
  · simp [hlong, hempty, Attempt.andThen_eq_raised, readSymbols, readRegion_ne_raised]

/-- COUNT's fault: a length it accepts, and an unwritten symbol within it (10_state.md R39). -/
theorem countResult_eq_fault {s : State} {f : Fault} :
    countResult s = .fault f ↔
      s.symlen.toNat ≤ s.config.symCap ∧ f = .unwrittenCell .symbuf ∧
        ∃ k < s.symlen.toNat, Memory.get s.symbuf k = none := by
  rw [countResult]
  split_ifs with hlong hempty
  · simp [hlong]
  · simp [hempty]
  · simp [Nat.not_lt.1 hlong, Attempt.andThen_eq_fault, readSymbols_eq_fault]

/-! What COUNT answers, in each of the three cases. -/

section Answers

variable {s t : State} {xs : List Nat}

theorem exec_count_of_symbols (hxs : SymbolsAre s xs) (hpos : 1 ≤ xs.length) (hcap : xs.length ≤ s.config.symCap) :
    exec .count s = .next (setStatus statusOk (setFreq (tally xs) s)) := by
  have hlen : s.symlen.toNat = xs.length := hxs.1
  exact exec_count_eq_next.2 (.inl ⟨_, countResult_eq_ok.2 ⟨by omega, by omega, xs, hxs, rfl⟩, rfl⟩)

theorem exec_count_of_raised {e : ErrorKind} (h : countResult s = .raised e) :
    exec .count s = .next (setStatus (statusError e opCount) (setFreq [] s)) :=
  exec_count_eq_next.2 (.inr ⟨e, h, rfl⟩)

theorem exec_count_of_fault {f : Fault} (h : countResult s = .fault f) : exec .count s = .fault f :=
  settle_eq_fault.2 (.inl h)

/-- A region of SYMBUF holds one sequence. -/
theorem SymbolsAre.unique {ys : List Nat} (hxs : SymbolsAre s xs) (hys : SymbolsAre s ys) : xs = ys :=
  Attempt.ok.inj ((readSymbols_eq_ok.2 hxs).symm.trans (readSymbols_eq_ok.2 hys))

/-- A COUNT that succeeds had 1 to SYM_CAP symbols, and leaves their tally. -/
theorem exec_count_success (hxs : SymbolsAre s xs) (h : exec .count s = .next t) (ht : t.status = 0) :
    1 ≤ xs.length ∧ xs.length ≤ s.config.symCap ∧ t.config = s.config ∧ t.freq = tally xs := by
  obtain ⟨f, hf, rfl⟩ | ⟨e, -, rfl⟩ := exec_count_eq_next.1 h
  · obtain ⟨hcap, hne, ys, hys, rfl⟩ := countResult_eq_ok.1 hf
    obtain rfl := hxs.unique hys
    have hlen : s.symlen.toNat = xs.length := hxs.1
    exact ⟨by omega, by omega, rfl, rfl⟩
  · exact absurd ht (statusError_ne_zero e opCount)

end Answers

/-! What the counts of a tally add up to. -/

section Tallied

variable {t : State} {xs : List Nat} (hfreq : t.freq = tally xs)

include hfreq

theorem freqGet_pos_iff_of_tally (x : Nat) : 0 < freqGet t.freq x ↔ x ∈ xs := by
  rw [hfreq, freqGet_tally, List.count_pos_iff]

theorem countSum_of_tally (hx : AreSymbols t xs) : CountSum t = xs.length := by
  simp only [CountSum, hfreq, freqGet_tally]
  simpa using Multiset.sum_count_eq_card (m := (xs : Multiset Nat)) fun x hm => Finset.mem_range.2 (hx x hm)

theorem presentSymbols_of_tally (hx : AreSymbols t xs) : PresentSymbols t = xs.toFinset := by
  ext x
  rw [PresentSymbols, Finset.mem_filter, Finset.mem_range, List.mem_toFinset, ← Nat.pos_iff_ne_zero,
    freqGet_pos_iff_of_tally hfreq]
  exact ⟨And.right, fun hm => ⟨hx x hm, hm⟩⟩

end Tallied

theorem card_presentSymbols_le (t : State) : (PresentSymbols t).card ≤ t.config.nMax :=
  (Finset.card_filter_le _ _).trans_eq (Finset.card_range _)

/-! The obligations. -/

/-- Settles O15: the tally holds the number of occurrences of every symbol. -/
theorem countTalliesTheSymbols : Obligations.CountTalliesTheSymbols := by
  unfold Obligations.CountTalliesTheSymbols
  exact fun s xs hxs hpos hcap => ⟨_, exec_count_of_symbols hxs hpos hcap, rfl, freqGet_tally xs⟩

/-- Settles O16: the two errors, in their order, and the fault. -/
theorem countErrorsAndUnwritten : Obligations.CountErrorsAndUnwritten := by
  unfold Obligations.CountErrorsAndUnwritten
  refine ⟨fun s hlong => ?capacity, fun s hempty => ?empty, fun s k hcap hk hnone => ?unwritten⟩
  case capacity =>
    exact ⟨_, exec_count_of_raised (countResult_eq_raised.2 (.inl ⟨hlong, rfl⟩)), rfl, freqGet_nil⟩
  case empty =>
    exact ⟨_, exec_count_of_raised (countResult_eq_raised.2 (.inr ⟨hempty, rfl⟩)), rfl, freqGet_nil⟩
  case unwritten =>
    exact exec_count_of_fault (countResult_eq_fault.2 ⟨hcap, rfl, k, hk, hnone⟩)

/-- Settles O17: the present symbols are those of the input, and a permutation has the same number of each. -/
theorem countSumsAndIgnoresOrder : Obligations.CountSumsAndIgnoresOrder := by
  unfold Obligations.CountSumsAndIgnoresOrder
  intro s xs t hxs hx h ht
  obtain ⟨hpos, hcap, hconfig, hfreq⟩ := exec_count_success hxs h ht
  have hlen : s.symlen.toNat = xs.length := hxs.1
  have hx' : AreSymbols t xs := by rwa [AreSymbols, hconfig]
  have hpresent := presentSymbols_of_tally hfreq hx'
  refine ⟨?sum, freqGet_pos_iff_of_tally hfreq, ?some, le_min ?atMostLength ?atMostNMax, ?order⟩
  case sum => rw [countSum_of_tally hfreq hx', hlen]
  case some =>
    rw [hpresent, Nat.one_le_iff_ne_zero, Finset.card_ne_zero, List.toFinset_nonempty_iff]
    exact List.ne_nil_of_length_pos hpos
  case atMostLength => rw [hpresent, hlen]; exact xs.toFinset_card_le
  case atMostNMax => exact hconfig ▸ card_presentSymbols_le t
  case order =>
    intro s' ys hys hconfig' hperm
    have hlen' := hperm.length_eq
    refine ⟨_, exec_count_of_symbols hys (hlen' ▸ hpos) (hconfig' ▸ hlen' ▸ hcap), rfl, fun k => ?_⟩
    rw [hfreq, setStatus_freq, setFreq_freq, freqGet_tally, freqGet_tally, hperm.count_eq]

end Sys2Proof
end

section
/-! PROOFS. BUILD's merges again, now with which two nodes they take: the principle for what a merge of the two lightest
keeps, and from it what every branch joins (41_huffman_tree_builder.md R124). -/

namespace Sys2Proof.Machine

/-! One merge takes the two lightest. -/

/-- The working collection `w` in the order a merge takes it: `q` the lightest, `p` the lightest of the rest
(41_huffman_tree_builder.md R120, R122). -/
structure LightestTwo (w : List Live) (q p : Live) (rest : List Live) : Prop where
  perm : (q :: p :: rest).Perm w
  first : ∀ z ∈ p :: rest, lighter z.2 q.2 = false
  second : ∀ z ∈ rest, lighter z.2 p.2 = false

/-- One merge of two or more nodes replaces the two lightest by their branch (41_huffman_tree_builder.md R120). -/
theorem exists_lightestTwo_mergeAll {w : List Live} (hw : 2 ≤ w.length) (n next : Nat) :
    ∃ q p rest, LightestTwo w q p rest ∧
      mergeAll (n + 1) next w = branchRec p q :: mergeAll n (next + 1) ((next, branchRec p q) :: rest) := by
  obtain ⟨q, w1, h1⟩ := takeLightest_isSome (w := w) (by rintro rfl; simp at hw)
  have perm1 := takeLightest_perm w q w1 h1
  obtain ⟨p, rest, h2⟩ := takeLightest_isSome (w := w1) (by rintro rfl; rw [← perm1.length_eq] at hw; simp at hw)
  have perm2 := takeLightest_perm w1 p rest h2
  refine ⟨q, p, rest, ⟨(perm2.cons q).trans perm1, fun z hz => ?_, takeLightest_lightest w1 p rest h2⟩,
    by simp [mergeAll, h1, h2]⟩
  exact takeLightest_lightest w q w1 h1 z (perm2.subset hz)

/-- A merge of the two lightest keeps `I`. This asks less of `I` than `KeptByMerge`, which has only that `p` is not lighter
than `q`. -/
def KeptByLightest (nodes : Cells NodeRec) (I : Nat → List Live → Prop) : Prop :=
  ∀ (next : Nat) (w : List Live) (q p : Live) (rest : List Live), I next w → LightestTwo w q p rest →
    Memory.get nodes next = some (branchRec p q) → I (next + 1) ((next, branchRec p q) :: rest)

theorem KeptByMerge.keptByLightest {nodes : Cells NodeRec} {I : Nat → List Live → Prop} (keep : KeptByMerge nodes I) :
    KeptByLightest nodes I :=
  fun next w q p rest hI L g => keep next w q p rest hI L.perm (L.first p List.mem_cons_self) g

/-- What every merge of the two lightest keeps holds when one node, the root, is left. -/
theorem mergeAll_keeps {nodes : Cells NodeRec} {I : Nat → List Live → Prop} (keep : KeptByLightest nodes I) (n : Nat) :
    ∀ (next : Nat) (w : List Live), w.length = n + 1 →
      (∀ j b, (mergeAll n next w)[j]? = some b → Memory.get nodes (next + j) = some b) → I next w →
      ∃ root, I (next + n) [root] := by
  induction n with
  | zero =>
    intro next w hw _ hI
    obtain ⟨root, rfl⟩ := List.length_eq_one_iff.1 hw
    exact ⟨root, hI⟩
  | succ n ih =>
    intro next w hw hmem hI
    obtain ⟨q, p, rest, L, hm⟩ := exists_lightestTwo_mergeAll (w := w) (by omega) n next
    rw [hm] at hmem
    have hlen := L.perm.length_eq
    simp only [List.length_cons] at hlen
    rw [← Nat.succ_add_eq_add_succ]
    refine ih (next + 1) _ (by simp only [List.length_cons]; omega) (fun j b hj => ?_)
      (keep next w q p rest hI L (hmem 0 _ rfl))
    rw [Nat.succ_add_eq_add_succ]
    exact hmem (j + 1) b hj

/-- What holds of the leaves and is kept by every merge of the two lightest holds of the root of BUILD's records. -/
theorem treeNodes_keeps {nodes : Cells NodeRec} {es : List (Nat × Nat)} {I : Nat → List Live → Prop} (hne : es ≠ [])
    (hh : Holds nodes (treeNodes es)) (init : I es.length (numbered 0 (es.map leafRec)))
    (keep : KeptByLightest nodes I) : ∃ root, I (2 * es.length - 1) [root] := by
  have hpos : 0 < es.length := List.length_pos_iff.2 hne
  rw [show 2 * es.length - 1 = es.length + (es.length - 1) by omega]
  refine mergeAll_keeps keep (es.length - 1) es.length _ (by rw [length_numbered, List.length_map]; omega)
    (fun j b hj => ?_) init
  have hget : (treeNodes es)[es.length + j]? = some b := by
    rw [treeNodes, List.getElem?_append_right (by simp)]
    simpa using hj
  rw [hh _ (List.getElem?_eq_some_iff.1 hget).1, hget]

/-! In the working collection all keys, and so all indexes, are different, and the order of weight is strict. -/

/-- Of two nodes with different keys, when `y` is not the lighter one `x` is (41_huffman_tree_builder.md R122). -/
theorem lighterThan_of_not_lighter {x y : NodeRec} (h : lighter y x = false) (hkey : y.key ≠ x.key) :
    LighterThan x y := by
  simp only [lighter, Bool.or_eq_false_iff, decide_eq_false_iff_not, Bool.and_eq_false_iff, beq_eq_false_iff_ne] at h
  rw [LighterThan]
  omega

/-- A node that is not lighter does not weigh less. -/
theorem weight_le_of_not_lighter {x y : NodeRec} (h : lighter y x = false) : x.weight ≤ y.weight := by
  simp only [lighter, Bool.or_eq_false_iff, decide_eq_false_iff_not] at h
  omega

section Working

variable {nodes : Cells NodeRec} {keys : List Nat} {next : Nat} {w : List Live}

/-- The key of a standing node is one of the symbols below it. -/
theorem Stands.key_mem {x : Live} {T : CodeTree} (h : Stands nodes x T) : x.2.key ∈ symbolsBelow nodes x := by
  rw [h.symbolsBelow_eq, ← h.key]; exact treeKey_mem_treeSymbols T

/-- The nodes of the working collection have different keys, because no symbol is below two of them. -/
theorem Forest.keys_differ (F : Forest nodes keys next w) (hkeys : keys.Nodup) :
    w.Pairwise fun x y => y.2.key ≠ x.2.key := by
  have hdisj := (List.nodup_flatMap.1 (F.symbols.nodup_iff.2 hkeys)).2
  refine hdisj.imp_of_mem fun {x y} hx hy hxy hkey => ?_
  obtain ⟨X, hX⟩ := F.stands x hx
  obtain ⟨Y, hY⟩ := F.stands y hy
  exact hxy hX.key_mem (hkey ▸ hY.key_mem)

/-- Different keys stand at different indexes. -/
theorem Forest.index_ne_of_key_ne (F : Forest nodes keys next w) {x y : Live} (hx : x ∈ w) (hy : y ∈ w)
    (hkey : y.2.key ≠ x.2.key) : y.1 ≠ x.1 := by
  obtain ⟨X, hX⟩ := F.stands x hx
  obtain ⟨Y, hY⟩ := F.stands y hy
  intro h
  have hrec : y.2 = x.2 := Option.some.inj (hY.record.symm.trans (h ▸ hX.record))
  exact hkey (hrec ▸ rfl)

/-- The two lightest and the rest have different keys between them. -/
theorem Forest.keys_differ_of_lightestTwo (F : Forest nodes keys next w) (hkeys : keys.Nodup) {q p : Live}
    {rest : List Live} (L : LightestTwo w q p rest) :
    (∀ z ∈ p :: rest, z.2.key ≠ q.2.key) ∧ ∀ z ∈ rest, z.2.key ≠ p.2.key := by
  have h := (L.perm.pairwise_iff fun {x y} (hxy : y.2.key ≠ x.2.key) => hxy.symm).2 (F.keys_differ hkeys)
  exact ⟨(List.pairwise_cons.1 h).1, (List.pairwise_cons.1 (List.pairwise_cons.1 h).2).1⟩

end Working

/-! The working collection is what `liveBefore` says of NODE. -/

/-- Before the first branch every leaf is live, and nothing else. -/
theorem liveBefore_leaves {nodes : Cells NodeRec} {n j : Nat} : liveBefore nodes n n j ↔ j < n :=
  ⟨And.left, fun h => ⟨h, fun _ _ hb hb' => absurd hb (Nat.not_le.2 hb')⟩⟩

/-- Making a branch takes its two children out and puts the branch in. -/
theorem liveBefore_succ {nodes : Cells NodeRec} {n k j : Nat} {r : NodeRec} (hn : n ≤ k)
    (hr : Memory.get nodes k = some r)
    (hbelow : ∀ b x, n ≤ b → b ≤ k → Memory.get nodes b = some x → x.left < b ∧ x.right < b) :
    liveBefore nodes n (k + 1) j ↔ j = k ∨ (liveBefore nodes n k j ∧ r.left ≠ j ∧ r.right ≠ j) := by
  constructor
  · rintro ⟨hj, h⟩
    rcases Nat.lt_succ_iff_lt_or_eq.1 hj with hj | hj
    · exact .inr ⟨⟨hj, fun b x hb hbk => h b x hb (Nat.lt_succ_of_lt hbk)⟩, h k r hn k.lt_succ_self hr⟩
    · exact .inl hj
  · rintro (rfl | ⟨⟨hj, h⟩, hleft, hright⟩)
    · refine ⟨j.lt_succ_self, fun b x hb hbj hx => ?_⟩
      obtain ⟨hl, hr⟩ := hbelow b x hb (Nat.le_of_lt_succ hbj) hx
      omega
    · refine ⟨Nat.lt_succ_of_lt hj, fun b x hb hbk hx => ?_⟩
      rcases Nat.lt_succ_iff_lt_or_eq.1 hbk with hbk | rfl
      · exact h b x hb hbk hx
      · obtain rfl := Option.some.inj (hr.symm.trans hx)
        exact ⟨hleft, hright⟩

/-- What a right record is, at a leaf's index. -/
theorem exists_leaf_of_nodeOk {nodes : Cells NodeRec} {n k : Nat} (h : nodeOk nodes n k = true) (hk : k < n) :
    ∃ r, Memory.get nodes k = some r ∧ r.kind = .leaf ∧ r.depth = 1 := by
  rw [nodeOk] at h
  cases hr : Memory.get nodes k with
  | none => simp [hr] at h
  | some r =>
    simp only [hr, hk, if_true, Bool.and_eq_true, beq_iff_eq] at h
    obtain ⟨⟨⟨⟨hkind, hdepth⟩, -⟩, -⟩, -⟩ := h
    exact ⟨r, rfl, hkind, hdepth⟩

/-- What a right record is, at a branch's index. -/
theorem exists_branch_of_nodeOk {nodes : Cells NodeRec} {n k : Nat} (h : nodeOk nodes n k = true) (hk : n ≤ k) :
    ∃ r p q, Memory.get nodes k = some r ∧ r.kind = .branch ∧ r.left < k ∧ r.right < k ∧
      Memory.get nodes r.left = some p ∧ Memory.get nodes r.right = some q ∧
      r.weight = p.weight + q.weight ∧ r.depth = max p.depth q.depth + 1 := by
  rw [nodeOk] at h
  cases hr : Memory.get nodes k with
  | none => simp [hr] at h
  | some r =>
    simp only [hr, Nat.not_lt.2 hk, if_false, Bool.and_eq_true, beq_iff_eq, decide_eq_true_eq] at h
    obtain ⟨⟨⟨hkind, hl⟩, hrt⟩, hc⟩ := h
    cases hp : Memory.get nodes r.left with
    | none => simp [hp] at hc
    | some p =>
      cases hq : Memory.get nodes r.right with
      | none => simp [hp, hq] at hc
      | some q =>
        simp only [hp, hq, Bool.and_eq_true, beq_iff_eq] at hc
        obtain ⟨⟨hw, hd⟩, -⟩ := hc
        exact ⟨r, p, q, rfl, hkind, hl, hrt, hp, hq, hw, hd⟩

/-- Record `k` is the branch over the two lightest of the nodes live before it, the leaves being the first `n` records
(41_huffman_tree_builder.md R124). -/
def MergesLightest (nodes : Cells NodeRec) (n k : Nat) : Prop :=
  ∃ r p q, Memory.get nodes k = some r ∧ r.kind = .branch ∧
    Memory.get nodes r.left = some p ∧ Memory.get nodes r.right = some q ∧ r.left ≠ r.right ∧
    liveBefore nodes n k r.left ∧ liveBefore nodes n k r.right ∧
    (∀ j x, liveBefore nodes n k j → j ≠ r.right → Memory.get nodes j = some x → LighterThan q x) ∧
    (∀ j x, liveBefore nodes n k j → j ≠ r.right → j ≠ r.left → Memory.get nodes j = some x → LighterThan p x) ∧
    r.weight = p.weight + q.weight ∧ r.depth = max p.depth q.depth + 1 ∧ r.key = min p.key q.key

/-- The forest during BUILD whose working collection is exactly the live nodes with their records, every branch so far
being over the two lightest. -/
structure LiveForest (nodes : Cells NodeRec) (keys : List Nat) (next : Nat) (w : List Live) : Prop where
  forest : Forest nodes keys next w
  live : ∀ x, x ∈ w ↔ liveBefore nodes keys.length next x.1 ∧ Memory.get nodes x.1 = some x.2
  merges : ∀ k, keys.length ≤ k → k < next → MergesLightest nodes keys.length k

theorem liveForest_leaves {nodes : Cells NodeRec} {es : List (Nat × Nat)} (hne : es ≠ [])
    (hh : Holds nodes (treeNodes es)) (hpos : ∀ e ∈ es, e.2 ≠ 0) :
    LiveForest nodes (es.map Prod.fst) es.length (numbered 0 (es.map leafRec)) where
  forest := forest_leaves hne hh hpos
  live x := by
    rw [List.length_map, liveBefore_leaves]
    constructor
    · intro hx
      obtain ⟨hk, hr⟩ := leaf_of_mem_numbered hx
      exact ⟨hk, hr ▸ get_leaf hh hk⟩
    · rintro ⟨hk, hr⟩
      rw [mem_numbered_zero, ← hr, get_leaf hh hk, List.getElem?_map, List.getElem?_eq_getElem hk]
      rfl
  merges k hk hk' := by rw [List.length_map] at hk; omega

/-- The branch over the two lightest of the working collection is what `MergesLightest` says of NODE. -/
theorem LiveForest.mergesLightest {nodes : Cells NodeRec} {keys : List Nat} (hkeys : keys.Nodup) {next : Nat}
    {w rest : List Live} {q p : Live} (F : LiveForest nodes keys next w) (L : LightestTwo w q p rest)
    (g : Memory.get nodes next = some (branchRec p q)) : MergesLightest nodes keys.length next := by
  obtain ⟨hkq, hkp⟩ := F.forest.keys_differ_of_lightestTwo hkeys L
  have hq : q ∈ w := L.perm.subset (by simp)
  have hp : p ∈ w := L.perm.subset (by simp)
  obtain ⟨lq, gq⟩ := (F.live q).1 hq
  obtain ⟨lp, gp⟩ := (F.live p).1 hp
  have taken : ∀ {j x}, liveBefore nodes keys.length next j → Memory.get nodes j = some x → (j, x) ∈ q :: p :: rest :=
    fun hj hx => L.perm.symm.subset ((F.live _).2 ⟨hj, hx⟩)
  refine ⟨_, p.2, q.2, g, rfl, gp, gq, F.forest.index_ne_of_key_ne hq hp (hkq p List.mem_cons_self), lp, lq,
    fun j x hj hjq hx => ?_, fun j x hj hjq hjp hx => ?_, rfl, rfl, rfl⟩
  · rcases List.mem_cons.1 (taken hj hx) with h | h
    · exact absurd (congrArg Prod.fst h) hjq
    · exact lighterThan_of_not_lighter (L.first _ h) (hkq _ h)
  · rcases List.mem_cons.1 (taken hj hx) with h | h
    · exact absurd (congrArg Prod.fst h) hjq
    · rcases List.mem_cons.1 h with h | h
      · exact absurd (congrArg Prod.fst h) hjp
      · exact lighterThan_of_not_lighter (L.second _ h) (hkp _ h)

theorem liveForest_keptByLightest {nodes : Cells NodeRec} {keys : List Nat} (hkeys : keys.Nodup) :
    KeptByLightest nodes (LiveForest nodes keys) := by
  intro next w q p rest F L g
  have hforest := (forest_keptByMerge hkeys).keptByLightest next w q p rest F.forest L g
  obtain ⟨hkq, hkp⟩ := F.forest.keys_differ_of_lightestTwo hkeys L
  have hq : q ∈ w := L.perm.subset (by simp)
  have hp : p ∈ w := L.perm.subset (by simp)
  have hbelow : ∀ b x, keys.length ≤ b → b ≤ next → Memory.get nodes b = some x → x.left < b ∧ x.right < b := by
    intro b x hb hbn hx
    obtain ⟨r, -, -, hr, -, hl, hrt, -⟩ := exists_branch_of_nodeOk (hforest.made b (Nat.lt_succ_of_le hbn)) hb
    obtain rfl := Option.some.inj (hr.symm.trans hx)
    exact ⟨hl, hrt⟩
  refine ⟨hforest, fun x => ?_, fun k hk hkn => ?_⟩
  · rw [liveBefore_succ F.forest.leaves g hbelow, or_and_right]
    constructor
    · intro hx
      rcases List.mem_cons.1 hx with rfl | hx
      · exact .inl ⟨rfl, g⟩
      · have hxw : x ∈ w := L.perm.subset (by simp [hx])
        obtain ⟨hl, hg⟩ := (F.live x).1 hxw
        exact .inr ⟨⟨hl, (F.forest.index_ne_of_key_ne hp hxw (hkp x hx)).symm,
          (F.forest.index_ne_of_key_ne hq hxw (hkq x (List.mem_cons_of_mem _ hx))).symm⟩, hg⟩
    · rintro (⟨hx, hg⟩ | ⟨⟨hl, hxp, hxq⟩, hg⟩)
      · rw [hx, g] at hg
        exact List.mem_cons.2 (.inl (Prod.ext hx (Option.some.inj hg).symm))
      · have hx := L.perm.symm.subset ((F.live x).2 ⟨hl, hg⟩)
        rcases List.mem_cons.1 hx with rfl | hx
        · exact absurd rfl hxq
        · rcases List.mem_cons.1 hx with rfl | hx
          · exact absurd rfl hxp
          · exact List.mem_cons_of_mem _ hx
  · rcases Nat.lt_succ_iff_lt_or_eq.1 hkn with hkn | rfl
    · exact F.merges k hk hkn
    · exact F.mergesLightest hkeys L g

/-- Every branch BUILD makes from entries with rising symbols and nonzero counts is over the two lightest live nodes
(41_huffman_tree_builder.md R124). -/
theorem mergesLightest_of_treeNodes {nodes : Cells NodeRec} {es : List (Nat × Nat)} (hne : es ≠ [])
    (hrise : Memory.rising es = true) (hpos : ∀ e ∈ es, e.2 ≠ 0) (hh : Holds nodes (treeNodes es)) :
    ∀ k, es.length ≤ k → k < 2 * es.length - 1 → MergesLightest nodes es.length k := by
  obtain ⟨root, F⟩ := treeNodes_keeps hne hh (liveForest_leaves hne hh hpos)
    (liveForest_keptByLightest (Memory.nodup_indexes hrise))
  simpa using F.merges

end Sys2Proof.Machine
end

section
/-! PROOFS. What the records BUILD leaves say of the tree that stands in NODE: its fields, its height and its weighted path
length (41_huffman_tree_builder.md R128 (b), (c), (f)). -/

namespace Sys2Proof.Machine

/-- A binary tree has one branch less than leaves (41_huffman_tree_builder.md R128 (a)). -/
theorem treeBranches_succ (T : CodeTree) : treeBranches T + 1 = (treeSymbols T).length := by
  induction T with
  | leaf => rfl
  | branch _ _ l u hl hu => rw [treeBranches, treeSymbols, List.length_append]; omega

/-- What right fields are, at a branch. -/
theorem treeFieldsRight_branch {count : Nat → Nat} {w d : Nat} {l u : CodeTree} :
    treeFieldsRight count (.branch w d l u) = true ↔
      w = treeWeight l + treeWeight u ∧ d = max (treeDepth l) (treeDepth u) + 1 ∧ treeFieldsRight count l = true ∧
        treeFieldsRight count u = true := by
  simp [treeFieldsRight, and_assoc]

/-- What right fields are, at a leaf. -/
theorem treeFieldsRight_leaf {count : Nat → Nat} {s w d : Nat} :
    treeFieldsRight count (.leaf s w d) = true ↔ w = count s ∧ d = 1 := by
  simp [treeFieldsRight]

/-- With right fields the depth is one more than the largest root distance. -/
theorem treeDepth_eq_treeHeight_succ {count : Nat → Nat} (T : CodeTree) (h : treeFieldsRight count T = true) :
    treeDepth T = treeHeight T + 1 := by
  induction T with
  | leaf => exact (treeFieldsRight_leaf.1 h).2
  | branch _ _ l u hl hu =>
    obtain ⟨-, hd, h1, h2⟩ := treeFieldsRight_branch.1 h
    rw [treeDepth, treeHeight, hd, hl h1, hu h2, Nat.add_max_add_right]

/-- With right fields the weight is the sum of the counts of the symbols below. -/
theorem treeWeight_eq_sum {count : Nat → Nat} (T : CodeTree) (h : treeFieldsRight count T = true) :
    treeWeight T = ((treeSymbols T).map count).sum := by
  induction T with
  | leaf => simpa [treeSymbols, treeWeight] using (treeFieldsRight_leaf.1 h).1
  | branch _ _ l u hl hu =>
    obtain ⟨hw, -, h1, h2⟩ := treeFieldsRight_branch.1 h
    rw [treeWeight, hw, hl h1, hu h2, treeSymbols, List.map_append, List.sum_append]

/-- Moving a whole tree one edge further from the root adds the counts of all its symbols. -/
theorem pathCost_succ (count : Nat → Nat) (T : CodeTree) :
    ∀ d, pathCost count (d + 1) T = pathCost count d T + ((treeSymbols T).map count).sum := by
  induction T with
  | leaf s _ _ => intro d; simp [pathCost, treeSymbols, Nat.mul_succ]
  | branch _ _ l u hl hu =>
    intro d
    rw [pathCost, pathCost, hl, hu, treeSymbols, List.map_append, List.sum_append]
    omega

/-- The path length of a branch: its children's, and the weights of both. -/
theorem pathCost_branch {count : Nat → Nat} {w d : Nat} {l u : CodeTree} (hl : treeFieldsRight count l = true)
    (hu : treeFieldsRight count u = true) :
    pathCost count 0 (.branch w d l u) =
      pathCost count 0 l + pathCost count 0 u + (treeWeight l + treeWeight u) := by
  rw [pathCost, pathCost_succ, pathCost_succ, treeWeight_eq_sum l hl, treeWeight_eq_sum u hu]
  omega

/-- The tree at an index has its record's weight and depth. -/
theorem record_of_treeAt {nodes : Cells NodeRec} {d k : Nat} {T : CodeTree} (h : treeAt nodes d k = some T) :
    ∃ r, Memory.get nodes k = some r ∧ treeWeight T = r.weight ∧ treeDepth T = r.depth := by
  cases d with
  | zero => simp [treeAt] at h
  | succ d =>
    obtain ⟨r, hr, ⟨-, rfl⟩ | ⟨-, l, u, -, -, rfl⟩⟩ := treeAt_succ_eq_some.1 h <;> exact ⟨r, hr, rfl, rfl⟩

/-- Right records, the leaves weighing their symbol's count, make trees with right fields. -/
theorem treeFieldsRight_of_treeAt {nodes : Cells NodeRec} {n next : Nat} {count : Nat → Nat}
    (made : ∀ k < next, nodeOk nodes n k = true)
    (counted : ∀ k < n, ∀ r, Memory.get nodes k = some r → r.weight = count r.key) (d : Nat) :
    ∀ k T, k < next → treeAt nodes d k = some T → treeFieldsRight count T = true := by
  induction d with
  | zero => intro k T _ h; simp [treeAt] at h
  | succ d ih =>
    intro k T hk h
    obtain ⟨r, hr, ⟨hkind, rfl⟩ | ⟨hkind, l, u, hl, hu, rfl⟩⟩ := treeAt_succ_eq_some.1 h
    · by_cases hkn : k < n
      · obtain ⟨r', hr', -, hdepth⟩ := exists_leaf_of_nodeOk (made k hk) hkn
        obtain rfl := Option.some.inj (hr.symm.trans hr')
        exact treeFieldsRight_leaf.2 ⟨counted k hkn r hr, hdepth⟩
      · obtain ⟨r', -, -, hr', hkind', -⟩ := exists_branch_of_nodeOk (made k hk) (Nat.not_lt.1 hkn)
        obtain rfl := Option.some.inj (hr.symm.trans hr')
        rw [hkind] at hkind'; cases hkind'
    · by_cases hkn : k < n
      · obtain ⟨r', hr', hkind', -⟩ := exists_leaf_of_nodeOk (made k hk) hkn
        obtain rfl := Option.some.inj (hr.symm.trans hr')
        rw [hkind] at hkind'; cases hkind'
      · obtain ⟨r', p, q, hr', -, hlk, huk, hp, hq, hw, hd⟩ := exists_branch_of_nodeOk (made k hk) (Nat.not_lt.1 hkn)
        obtain rfl := Option.some.inj (hr.symm.trans hr')
        obtain ⟨p', hp', hlw, hld⟩ := record_of_treeAt hl
        obtain ⟨q', hq', huw, hud⟩ := record_of_treeAt hu
        obtain rfl := Option.some.inj (hp.symm.trans hp')
        obtain rfl := Option.some.inj (hq.symm.trans hq')
        exact treeFieldsRight_branch.2 ⟨by rw [hw, hlw, huw], by rw [hd, hld, hud],
          ih _ _ (Nat.lt_trans hlk hk) hl, ih _ _ (Nat.lt_trans huk hk) hu⟩

/-- The leaves BUILD makes weigh their symbol's count. -/
theorem weight_of_leaf {nodes : Cells NodeRec} {es : List (Nat × Nat)} {count : Nat → Nat}
    (hcount : ∀ e ∈ es, e.2 = count e.1) (hh : Holds nodes (treeNodes es)) :
    ∀ k < (es.map Prod.fst).length, ∀ r, Memory.get nodes k = some r → r.weight = count r.key := by
  intro k hk r hr
  rw [List.length_map] at hk
  obtain rfl := Option.some.inj ((get_leaf hh hk).symm.trans hr)
  exact hcount _ (List.getElem_mem hk)

/-- The tree BUILD makes from entries with rising symbols and nonzero counts: at the last record, of the entries' symbols,
with right fields and the heavier child on the left (41_huffman_tree_builder.md R121, R124, R125, R128). -/
theorem tree_of_treeNodes {nodes : Cells NodeRec} {es : List (Nat × Nat)} {count : Nat → Nat} (hne : es ≠ [])
    (hrise : Memory.rising es = true) (hpos : ∀ e ∈ es, e.2 ≠ 0) (hcount : ∀ e ∈ es, e.2 = count e.1)
    (hh : Holds nodes (treeNodes es)) :
    ∃ T, treeAt nodes (2 * es.length - 1) (2 * es.length - 1 - 1) = some T ∧
      (treeSymbols T).Perm (es.map Prod.fst) ∧ treeFieldsRight count T = true ∧ heavierLeft T = true := by
  have hlen : 0 < es.length := List.length_pos_iff.2 hne
  obtain ⟨root, F⟩ := treeNodes_invariant hne hh (forest_leaves hne hh hpos)
    (forest_keptByMerge (Memory.nodup_indexes hrise))
  obtain ⟨T, hT, hsym, hheavy⟩ := F.root (by omega)
  exact ⟨T, hT, hsym, treeFieldsRight_of_treeAt F.made (weight_of_leaf hcount hh) _ _ T (by omega) hT, hheavy⟩

end Sys2Proof.Machine
end

section
/-! PROOFS. Huffman's theorem (41_huffman_tree_builder.md R128 (f)). A competing tree is held as its leaves' weights and
depths. Before each merge some such assignment of the working collection's weights to the leaves of some tree costs, with
what the merges so far cost, at most as much as the competitor: the two lightest nodes can be moved to two deepest sibling
leaves, and these then contracted as BUILD contracts the nodes. When one node is left the assignment costs nothing. -/

namespace Sys2Proof.Machine

/-! The depths of a tree's leaves. -/

/-- The distances of the leaves from the root, from left to right, for a tree whose root is at distance `d`. -/
def leafDepths (d : Nat) : CodeTree → List Nat
  | .leaf _ _ _ => [d]
  | .branch _ _ l r => leafDepths (d + 1) l ++ leafDepths (d + 1) r

theorem length_leafDepths (T : CodeTree) : ∀ d, (leafDepths d T).length = (treeSymbols T).length := by
  induction T with
  | leaf => intro d; rfl
  | branch _ _ l u hl hu => intro d; rw [leafDepths, treeSymbols, List.length_append, List.length_append, hl, hu]

/-- No leaf is further away than the tree is high. -/
theorem le_of_mem_leafDepths (T : CodeTree) : ∀ d, ∀ x ∈ leafDepths d T, x ≤ d + treeHeight T := by
  induction T with
  | leaf => intro d x hx; simpa [leafDepths, treeHeight] using (List.mem_singleton.1 hx).le
  | branch _ _ l u hl hu =>
    intro d x hx
    rw [treeHeight]
    rcases List.mem_append.1 hx with hx | hx
    · have := hl _ x hx; omega
    · have := hu _ x hx; omega

/-- A tree of height 0 is a leaf. -/
theorem leafDepths_of_treeHeight_eq_zero {T : CodeTree} (h : treeHeight T = 0) (d : Nat) : leafDepths d T = [d] := by
  cases T with
  | leaf => rfl
  | branch => simp [treeHeight] at h

/-- A tree with a branch has two deepest leaves that are siblings: contracted to one leaf they leave a tree whose other
leaves, at `rest`, are where they were. -/
theorem exists_contraction (T : CodeTree) : ∀ d, treeHeight T ≠ 0 → ∃ V e rest, e + 1 = d + treeHeight T ∧
    (leafDepths d T).Perm ((e + 1) :: (e + 1) :: rest) ∧ (leafDepths d V).Perm (e :: rest) := by
  induction T with
  | leaf => intro d h; exact absurd rfl h
  | branch w dep l u hl hu =>
    intro d _
    rw [treeHeight]
    by_cases hflat : treeHeight l = 0 ∧ treeHeight u = 0
    · obtain ⟨hl0, hu0⟩ := hflat
      refine ⟨.leaf 0 0 0, d, [], by omega, ?_, List.Perm.refl _⟩
      rw [leafDepths, leafDepths_of_treeHeight_eq_zero hl0, leafDepths_of_treeHeight_eq_zero hu0]
      exact List.Perm.refl _
    · rcases Nat.le_total (treeHeight u) (treeHeight l) with hle | hle
      · obtain ⟨V, e, rest, he, hT, hV⟩ := hl (d + 1) (by omega)
        exact ⟨.branch w dep V u, e, rest ++ leafDepths (d + 1) u, by omega, hT.append_right _, hV.append_right _⟩
      · obtain ⟨V, e, rest, he, hT, hV⟩ := hu (d + 1) (by omega)
        exact ⟨.branch w dep V l, e, rest ++ leafDepths (d + 1) l, by omega,
          List.perm_append_comm.trans (hT.append_right _), hV.append_right _⟩

/-! Weights placed at depths. -/

/-- What weights at depths cost: the sum of weight times depth. -/
def placedCost (ps : List (Nat × Nat)) : Nat := (ps.map fun p => p.1 * p.2).sum

@[simp] theorem placedCost_cons (p : Nat × Nat) (ps : List (Nat × Nat)) :
    placedCost (p :: ps) = p.1 * p.2 + placedCost ps := by
  simp [placedCost]

theorem placedCost_perm {ps qs : List (Nat × Nat)} (h : ps.Perm qs) : placedCost ps = placedCost qs :=
  (h.map _).sum_eq

/-- The counts of a tree's symbols, placed at its leaves. -/
def leafPlaces (count : Nat → Nat) (d : Nat) (T : CodeTree) : List (Nat × Nat) :=
  ((treeSymbols T).map count).zip (leafDepths d T)

theorem map_fst_leafPlaces (count : Nat → Nat) (d : Nat) (T : CodeTree) :
    (leafPlaces count d T).map Prod.fst = (treeSymbols T).map count :=
  List.map_fst_zip (by simp [length_leafDepths])

theorem map_snd_leafPlaces (count : Nat → Nat) (d : Nat) (T : CodeTree) :
    (leafPlaces count d T).map Prod.snd = leafDepths d T :=
  List.map_snd_zip (by simp [length_leafDepths])

/-- Their cost is the weighted path length. -/
theorem placedCost_leafPlaces (count : Nat → Nat) (T : CodeTree) :
    ∀ d, placedCost (leafPlaces count d T) = pathCost count d T := by
  induction T with
  | leaf s _ _ => intro d; simp [leafPlaces, placedCost, leafDepths, treeSymbols, pathCost]
  | branch w dep l u hl hu =>
    intro d
    have happend : leafPlaces count d (.branch w dep l u) = leafPlaces count (d + 1) l ++ leafPlaces count (d + 1) u := by
      rw [leafPlaces, leafDepths, treeSymbols, List.map_append, List.zip_append (by simp [length_leafDepths])]
      rfl
    rw [happend, pathCost, ← hl, ← hu, placedCost, List.map_append, List.sum_append]
    rfl

/-- The exchange: the lightest weight `a` can be moved to the largest depth `e` without a greater cost; the other weights
then stand at the other depths. -/
theorem exists_exchange {ps : List (Nat × Nat)} {a e : Nat} {as es : List Nat} (hfst : (ps.map Prod.fst).Perm (a :: as))
    (hsnd : (ps.map Prod.snd).Perm (e :: es)) (hmin : ∀ x ∈ as, a ≤ x) (hmax : ∀ d ∈ es, d ≤ e) :
    ∃ qs, (qs.map Prod.fst).Perm as ∧ (qs.map Prod.snd).Perm es ∧ a * e + placedCost qs ≤ placedCost ps := by
  obtain ⟨⟨a, d⟩, hmem, rfl⟩ := List.mem_map.1 (hfst.symm.subset List.mem_cons_self)
  have hps := List.perm_cons_erase hmem
  have hfst0 : ((ps.erase (a, d)).map Prod.fst).Perm as := ((hps.map Prod.fst).symm.trans hfst).cons_inv
  have hsnd0 : (d :: (ps.erase (a, d)).map Prod.snd).Perm (e :: es) := (hps.map Prod.snd).symm.trans hsnd
  rcases List.mem_cons.1 (hsnd0.symm.subset List.mem_cons_self) with rfl | he
  · exact ⟨_, hfst0, hsnd0.cons_inv, by rw [placedCost_perm hps, placedCost_cons]⟩
  · obtain ⟨⟨x, e⟩, hmem', rfl⟩ := List.mem_map.1 he
    have hps' := List.perm_cons_erase hmem'
    have hfst1 := (hps'.map Prod.fst).symm.trans hfst0
    have hsnd1 := ((hps'.map Prod.snd).symm.cons d).trans hsnd0
    have hx : a ≤ x := hmin x (hfst1.subset List.mem_cons_self)
    have hd : d ≤ e := by
      rcases List.mem_cons.1 (hsnd1.subset List.mem_cons_self) with h | h
      · exact h.le
      · exact hmax d h
    refine ⟨(x, d) :: (ps.erase (a, d)).erase (x, e), hfst1, ((List.Perm.swap _ _ _).trans hsnd1).cons_inv, ?_⟩
    have hswap := mul_add_mul_le_mul_add_mul hx hd
    rw [placedCost_perm (hps.trans (hps'.cons _)), placedCost_cons, placedCost_cons, placedCost_cons]
    show a * e + (x * d + _) ≤ a * d + (x * e + _)
    omega

/-! The invariant. -/

/-- The weighted path length of the tree below a node of the working collection. -/
def costBelow (nodes : Cells NodeRec) (count : Nat → Nat) (x : Live) : Nat :=
  ((treeAt nodes (x.1 + 1) x.1).map (pathCost count 0)).getD 0

theorem Stands.costBelow_eq {nodes : Cells NodeRec} {x : Live} {T : CodeTree} (h : Stands nodes x T)
    (count : Nat → Nat) : costBelow nodes count x = pathCost count 0 T := by
  simp [costBelow, h.tree]

/-- The cost below a branch: below its children, and their weights. -/
theorem costBelow_branch {nodes : Cells NodeRec} {count : Nat → Nat} {next : Nat} {p q : Live} {P Q : CodeTree}
    (hP : Stands nodes p P) (hQ : Stands nodes q Q) (fP : treeFieldsRight count P = true)
    (fQ : treeFieldsRight count Q = true) (hp : p.1 < next) (hq : q.1 < next)
    (g : Memory.get nodes next = some (branchRec p q)) :
    costBelow nodes count (next, branchRec p q) =
      costBelow nodes count p + costBelow nodes count q + (p.2.weight + q.2.weight) := by
  have htree : treeAt nodes (next + 1) next = some (.branch (branchRec p q).weight (branchRec p q).depth P Q) :=
    treeAt_succ_eq_some.2 ⟨_, g, .inr ⟨rfl, P, Q, treeAt_mono hp hP.tree, treeAt_mono hq hQ.tree, rfl⟩⟩
  rw [hP.costBelow_eq, hQ.costBelow_eq, ← hP.weight, ← hQ.weight, costBelow, htree, Option.map_some,
    Option.getD_some, pathCost_branch fP fQ]

/-- Weights placed at the leaves of some tree, with `spent` besides, cost at most `C`. -/
def PlacedWithin (weights : List Nat) (spent C : Nat) : Prop :=
  ∃ V ps, (ps.map Prod.fst).Perm weights ∧ (ps.map Prod.snd).Perm (leafDepths 0 V) ∧ placedCost ps + spent ≤ C

/-- The key step of Huffman's theorem: of weights placed within `C` the two lightest can be put together at the cost of
their sum. -/
theorem PlacedWithin.merge {a b spent C : Nat} {ws : List Nat} (h : PlacedWithin (a :: b :: ws) spent C)
    (ha : ∀ x ∈ b :: ws, a ≤ x) (hb : ∀ x ∈ ws, b ≤ x) : PlacedWithin ((b + a) :: ws) (spent + (b + a)) C := by
  obtain ⟨V, ps, hfst, hsnd, hcost⟩ := h
  have hlen := (List.length_map Prod.fst).symm.trans hfst.length_eq
  have hlen' := (List.length_map Prod.snd).symm.trans hsnd.length_eq
  have hheight : treeHeight V ≠ 0 := by
    intro h0
    rw [leafDepths_of_treeHeight_eq_zero h0] at hlen'
    simp only [List.length_cons, List.length_nil] at hlen hlen'
    omega
  obtain ⟨V', e, rest, he, hV, hV'⟩ := exists_contraction V 0 hheight
  have hdeep : ∀ d ∈ (e + 1) :: rest, d ≤ e + 1 := fun d hd =>
    he ▸ le_of_mem_leafDepths V 0 d (hV.symm.subset (List.mem_cons_of_mem _ hd))
  obtain ⟨qs, hfst1, hsnd1, hcost1⟩ := exists_exchange hfst (hsnd.trans hV) ha hdeep
  obtain ⟨rs, hfst2, hsnd2, hcost2⟩ := exists_exchange hfst1 hsnd1 hb fun d hd => hdeep d (List.mem_cons_of_mem _ hd)
  refine ⟨V', (b + a, e) :: rs, hfst2.cons _, (hsnd2.cons e).trans hV'.symm, ?_⟩
  simp only [Nat.mul_succ] at hcost1 hcost2
  simp only [placedCost_cons, Nat.add_mul]
  omega

/-- The forest during BUILD with the bound of Huffman's theorem: the weights of the working collection can be placed at
the leaves of some tree so that, with the cost below each node, this costs at most `C`. -/
structure CheapForest (nodes : Cells NodeRec) (keys : List Nat) (count : Nat → Nat) (C next : Nat) (w : List Live) :
    Prop where
  forest : Forest nodes keys next w
  placed : PlacedWithin (w.map fun x => x.2.weight) (w.map (costBelow nodes count)).sum C

theorem PlacedWithin.perm {ws vs : List Nat} {spent C : Nat} (h : PlacedWithin ws spent C) (hperm : ws.Perm vs) :
    PlacedWithin vs spent C := by
  obtain ⟨V, ps, hfst, hrest⟩ := h
  exact ⟨V, ps, hfst.trans hperm, hrest⟩

theorem cheapForest_keptByLightest {nodes : Cells NodeRec} {keys : List Nat} {count : Nat → Nat} {C : Nat}
    (hkeys : keys.Nodup)
    (counted : ∀ k < keys.length, ∀ r, Memory.get nodes k = some r → r.weight = count r.key) :
    KeptByLightest nodes (CheapForest nodes keys count C) := by
  intro next w q p rest F L g
  have hq : q ∈ w := L.perm.subset (by simp)
  have hp : p ∈ w := L.perm.subset (by simp)
  obtain ⟨P, hP⟩ := F.forest.stands p hp
  obtain ⟨Q, hQ⟩ := F.forest.stands q hq
  have hpn := F.forest.below p hp
  have hqn := F.forest.below q hq
  have fields := treeFieldsRight_of_treeAt F.forest.made counted
  have hcost := costBelow_branch hP hQ (fields _ _ _ hpn hP.tree) (fields _ _ _ hqn hQ.tree) hpn hqn g
  have hplaced := F.placed.perm (L.perm.map _).symm
  rw [← (L.perm.map _).sum_eq] at hplaced
  have hspent : (((next, branchRec p q) :: rest).map (costBelow nodes count)).sum =
      ((q :: p :: rest).map (costBelow nodes count)).sum + (p.2.weight + q.2.weight) := by
    simp only [List.map_cons, List.sum_cons, hcost]; omega
  refine ⟨(forest_keptByMerge hkeys).keptByLightest next w q p rest F.forest L g, hspent ▸ hplaced.merge ?_ ?_⟩
  · exact List.forall_mem_map.2 fun z hz => weight_le_of_not_lighter (L.first z hz)
  · exact List.forall_mem_map.2 fun z hz => weight_le_of_not_lighter (L.second z hz)

/-- The leaves can be placed as they stand in any tree over the same symbols. -/
theorem cheapForest_leaves {nodes : Cells NodeRec} {es : List (Nat × Nat)} {count : Nat → Nat} (hne : es ≠ [])
    (hh : Holds nodes (treeNodes es)) (hpos : ∀ e ∈ es, e.2 ≠ 0) (hcount : ∀ e ∈ es, e.2 = count e.1) {U : CodeTree}
    (hU : (treeSymbols U).Perm (es.map Prod.fst)) :
    CheapForest nodes (es.map Prod.fst) count (pathCost count 0 U) es.length (numbered 0 (es.map leafRec)) where
  forest := forest_leaves hne hh hpos
  placed := by
    have hzero : ∀ x ∈ numbered 0 (es.map leafRec), costBelow nodes count x = 0 := by
      intro x hx
      obtain ⟨hk, hr⟩ := leaf_of_mem_numbered hx
      have htree : treeAt nodes (x.1 + 1) x.1 = some (.leaf es[x.1].1 es[x.1].2 1) :=
        treeAt_succ_eq_some.2 ⟨_, get_leaf hh hk, .inl ⟨rfl, rfl⟩⟩
      rw [costBelow, htree]; rfl
    have hweights : (es.map fun e => e.2) = (es.map Prod.fst).map count := by
      rw [List.map_map]; exact List.map_congr_left hcount
    refine ⟨U, leafPlaces count 0 U, ?_, by rw [map_snd_leafPlaces], ?_⟩
    · rw [map_fst_leafPlaces, map_numbered_leaves NodeRec.weight]
      exact (hU.map count).trans (List.Perm.of_eq hweights.symm)
    · rw [placedCost_leafPlaces, List.sum_eq_zero (List.forall_mem_map.2 hzero), Nat.add_zero]

/-- HUFFMAN'S THEOREM for the records BUILD makes from entries with rising symbols and nonzero counts: no tree over the
same symbols has a smaller weighted path length (41_huffman_tree_builder.md R128 (f)). -/
theorem pathCost_le_of_treeNodes {nodes : Cells NodeRec} {es : List (Nat × Nat)} {count : Nat → Nat} (hne : es ≠ [])
    (hrise : Memory.rising es = true) (hpos : ∀ e ∈ es, e.2 ≠ 0) (hcount : ∀ e ∈ es, e.2 = count e.1)
    (hh : Holds nodes (treeNodes es)) {T U : CodeTree}
    (hT : treeAt nodes (2 * es.length - 1) (2 * es.length - 1 - 1) = some T)
    (hU : (treeSymbols U).Perm (es.map Prod.fst)) : pathCost count 0 T ≤ pathCost count 0 U := by
  have hlen : 0 < es.length := List.length_pos_iff.2 hne
  obtain ⟨root, F⟩ := treeNodes_keeps hne hh (cheapForest_leaves hne hh hpos hcount hU)
    (cheapForest_keptByLightest (Memory.nodup_indexes hrise) (weight_of_leaf hcount hh))
  obtain ⟨R, hR⟩ := F.forest.stands root List.mem_cons_self
  have hroot : 2 * es.length - 1 - 1 = root.1 := by simpa using F.forest.newest
  rw [hroot] at hT
  obtain rfl : R = T := Option.some.inj ((treeAt_mono (by omega) hR.tree).symm.trans hT)
  obtain ⟨V, ps, -, -, hcost⟩ := F.placed
  rw [List.map_singleton, List.sum_singleton, hR.costBelow_eq] at hcost
  exact (Nat.le_add_left _ _).trans hcost

end Sys2Proof.Machine
end

section
/-! PROOFS. BUILD: what it answers, and its obligations (O18 to O25). -/

namespace Sys2Proof

open Sys2Proof.Machine

/-! FREQ in canonical form, as the list of the present symbols with their counts. -/

/-- FREQ lists exactly the nonzero counts. -/
theorem mem_iff_freqGet {c : Params} {f : Cells Nat} (h : freqWf c f = true) {e : Nat × Nat} :
    e ∈ f ↔ freqGet f e.1 = e.2 ∧ e.2 ≠ 0 := by
  obtain ⟨hwf, hpos⟩ := freqWf_iff.1 h
  have hget := Memory.get_of_mem (Memory.wf_iff.1 hwf).1 (i := e.1) (v := e.2)
  constructor
  · intro he
    rw [freqGet, hget.1 he]
    exact ⟨rfl, hpos e he⟩
  · rintro ⟨hcount, hne⟩
    rw [freqGet] at hcount
    cases hv : Memory.get f e.1 with
    | none => rw [hv] at hcount; exact absurd hcount.symm hne
    | some v =>
      rw [hv] at hcount
      exact hget.2 (hv.trans (congrArg some hcount))

/-- The counts determine FREQ's list. -/
theorem freq_eq_of_freqGet {c d : Params} {f g : Cells Nat} (hf : freqWf c f = true) (hg : freqWf d g = true)
    (h : ∀ k, freqGet f k = freqGet g k) : f = g := by
  have hirrefl : Std.Irrefl fun a b : Nat × Nat => a.1 < b.1 := ⟨fun a => Nat.lt_irrefl a.1⟩
  have hantisymm : Std.Antisymm fun a b : Nat × Nat => a.1 < b.1 := ⟨fun a b hab hba => absurd hab (Nat.lt_asymm hba)⟩
  have rises {p : Params} {m : Cells Nat} (hm : freqWf p m = true) : m.Pairwise fun a b => a.1 < b.1 :=
    Memory.rising_iff_pairwise.1 (Memory.wf_iff.1 (freqWf_iff.1 hm).1).1
  exact (rises hf).eq_of_mem_iff (rises hg) fun e => by rw [mem_iff_freqGet hf, mem_iff_freqGet hg, h]

section Freq

variable {s : State} (hfreq : freqWf s.config s.freq = true)

include hfreq

theorem rising_freq : Memory.rising s.freq = true := (Memory.wf_iff.1 (freqWf_iff.1 hfreq).1).1

theorem count_of_mem_freq : ∀ e ∈ s.freq, e.2 = freqGet s.freq e.1 :=
  fun _ he => ((mem_iff_freqGet hfreq).1 he).1.symm

/-- The present symbols are those FREQ lists. -/
theorem toFinset_freq : (s.freq.map Prod.fst).toFinset = PresentSymbols s := by
  have hsym := (Memory.wf_iff.1 (freqWf_iff.1 hfreq).1).2
  ext x
  rw [List.mem_toFinset, PresentSymbols, Finset.mem_filter, Finset.mem_range]
  constructor
  · intro hx
    obtain ⟨e, he, rfl⟩ := List.mem_map.1 hx
    obtain ⟨hcount, hne⟩ := (mem_iff_freqGet hfreq).1 he
    exact ⟨hsym e he, hcount ▸ hne⟩
  · rintro ⟨-, hne⟩
    exact List.mem_map.2 ⟨(x, freqGet s.freq x), (mem_iff_freqGet hfreq).2 ⟨rfl, hne⟩, rfl⟩

theorem length_freq : s.freq.length = (PresentSymbols s).card := by
  rw [← toFinset_freq hfreq, List.toFinset_card_of_nodup (Memory.nodup_indexes (rising_freq hfreq)), List.length_map]

/-- The counts of the listed symbols are all counts there are. -/
theorem sum_freq : ((s.freq.map Prod.fst).map fun x => freqGet s.freq x).sum = CountSum s := by
  rw [← List.sum_toFinset _ (Memory.nodup_indexes (rising_freq hfreq)), toFinset_freq hfreq, PresentSymbols, CountSum,
    Finset.sum_filter_ne_zero]

/-- NODECNT can count the records of a tree of all listed symbols. -/
theorem two_mul_length_freq_lt : 2 * s.freq.length - 1 < 2 ^ 32 := by
  have hlen := Memory.length_le_of_wf (freqWf_iff.1 hfreq).1
  have hreg : 2 * s.config.nMax - 1 < 2 ^ 32 := s.config.nodeCap_reg
  omega

end Freq

/-! What BUILD answers. -/

/-- A BUILD that succeeds, FREQ in canonical form: some count is not 0, and the state is the tree of FREQ's list written. -/
theorem exec_build_success {s t : State} (hfreq : freqWf s.config s.freq = true) (h : exec .build s = .next t)
    (ht : t.status = 0) : s.freq ≠ [] ∧ t = setStatus statusOk (buildCommit s s.freq) := by
  obtain ⟨es, hes, rfl⟩ | ⟨e, -, rfl⟩ := exec_build_eq_next.1 h
  · obtain ⟨rfl, hne⟩ := buildResult_eq_ok.1 hes
    rw [entries_of_freqWf hfreq] at hne ⊢
    exact ⟨hne, rfl⟩
  · exact absurd ht (statusError_ne_zero e opBuild)

/-- BUILD of a FREQ in canonical form that lists a count succeeds. -/
theorem exec_build_of_ne_nil {s : State} (hfreq : freqWf s.config s.freq = true) (hne : s.freq ≠ []) :
    exec .build s = .next (setStatus statusOk (buildCommit s s.freq)) :=
  exec_build_eq_next.2 (.inl ⟨_, buildResult_eq_ok.2 ⟨(entries_of_freqWf hfreq).symm, hne⟩, rfl⟩)

/-- BUILD of an empty FREQ raises EmptyInputError (41_huffman_tree_builder.md R127). -/
theorem exec_build_of_nil {s : State} (hnil : s.freq = []) :
    exec .build s = .next (setStatus (statusError .emptyInput opBuild) (setTree [] 0 0 s)) := by
  refine exec_build_eq_next.2 (.inr ⟨_, ?_, rfl⟩)
  rw [buildResult, hnil]; rfl

/-- `t` holds the tree of FREQ's list in `s`: there is a count in it, NODE holds BUILD's records of it, and NLEAF and
NODECNT count its leaves and all records. -/
structure Built (s t : State) : Prop where
  nonempty : s.freq ≠ []
  leaves : t.nleaf.toNat = s.freq.length
  records : t.nodecnt.toNat = 2 * s.freq.length - 1
  holds : Holds t.node (treeNodes s.freq)

section Build

variable {s t : State} (hfreq : freqWf s.config s.freq = true)

include hfreq

theorem built_buildCommit (hne : s.freq ≠ []) : Built s (setStatus statusOk (buildCommit s s.freq)) := by
  have hlen := two_mul_length_freq_lt hfreq
  exact ⟨hne, Nat.mod_eq_of_lt (by omega), Nat.mod_eq_of_lt hlen, holds_setRange _ _⟩

theorem built_of_exec_build (h : exec .build s = .next t) (ht : t.status = 0) : Built s t := by
  obtain ⟨hne, rfl⟩ := exec_build_success hfreq h ht
  exact built_buildCommit hfreq hne

/-- The tree held after BUILD. -/
theorem Built.exists_heldTree (B : Built s t) :
    ∃ T, heldTree t = some T ∧ (treeSymbols T).Perm (s.freq.map Prod.fst) ∧
      treeFieldsRight (fun x => freqGet s.freq x) T = true ∧ heavierLeft T = true := by
  obtain ⟨T, hT, hrest⟩ := tree_of_treeNodes B.nonempty (rising_freq hfreq) (freqWf_iff.1 hfreq).2
    (count_of_mem_freq hfreq) B.holds
  exact ⟨T, heldTree_eq_some.2 (by rw [B.records]; exact hT), hrest⟩

end Build

/-- ENCODE tallies at least one symbol, so its BUILD has entries. -/
theorem buildResult_ne_raised_of_count {s : State} {f : Cells Nat} (hf : countResult s = .ok f) (e : ErrorKind) :
    buildResult (setFreq f s) ≠ .raised e := by
  obtain ⟨-, hne, xs, ⟨hlen, -⟩, rfl⟩ := countResult_eq_ok.1 hf
  obtain ⟨x, hx⟩ := List.exists_mem_of_length_pos (l := xs) (by omega)
  have htally : tally xs ≠ [] := by
    intro hnil
    have hcount := freqGet_tally xs x
    rw [hnil, freqGet_nil] at hcount
    exact List.count_eq_zero.1 hcount.symm hx
  have hok : buildResult (setFreq (tally xs) s) = .ok (tally xs) :=
    buildResult_eq_ok.2 ⟨(entries_tally xs).symm, htally⟩
  rw [hok]
  exact nofun

/-- STATUS tells errors of different commands apart. -/
theorem statusError_ne_of_opcode_ne {e d : ErrorKind} {op oq : Opcode} (h : op ≠ oq) :
    statusError e op ≠ statusError d oq := fun heq => h (by simpa using congrArg statusErrOp heq)

/-! The obligations. -/

/-- Settles O18: an all-zero FREQ in canonical form lists nothing; ENCODE's own tally does. -/
theorem buildWithoutEntries : Obligations.BuildWithoutEntries := by
  unfold Obligations.BuildWithoutEntries
  refine ⟨fun s hfreq hzero => ?alone, fun s t h hstatus => ?inEncode⟩
  case alone =>
    exact ⟨_, exec_build_of_nil (freq_eq_of_freqGet hfreq (freqWf_nil s.config) hzero), rfl, unwritten_nil⟩
  case inEncode =>
    obtain ⟨e, -, rfl⟩ | ⟨f, hf, ⟨e, hbuild, -⟩ | ⟨es, -, ⟨e, -, rfl⟩ | ⟨cs, -, ⟨e, -, rfl⟩ | ⟨b, -, rfl⟩⟩⟩⟩ :=
      exec_encode_eq_next.1 h
    · exact statusError_ne_of_opcode_ne (by decide) hstatus
    · exact buildResult_ne_raised_of_count hf e hbuild
    · exact statusError_ne_of_opcode_ne (by decide) hstatus
    · exact statusError_ne_of_opcode_ne (by decide) hstatus
    · exact statusError_ne_zero _ _ hstatus.symm

/-- Settles O19: FREQ's list is the present symbols in ascending order, and the first records are its leaves. -/
theorem buildMakesTheLeaves : Obligations.BuildMakesTheLeaves := by
  unfold Obligations.BuildMakesTheLeaves
  intro s hfreq hpresent
  have hne : s.freq ≠ [] := by
    rw [← toFinset_freq hfreq, List.toFinset_nonempty_iff] at hpresent
    exact fun hnil => hpresent (hnil ▸ rfl)
  have hexec := exec_build_of_ne_nil hfreq hne
  have B := built_buildCommit hfreq hne
  refine ⟨_, hexec, rfl, B.leaves.trans (length_freq hfreq), by rw [B.records, B.leaves], fun k hk => ?leaf,
    fun k hk => ?rising, exec_build_keeps_cells hexec hfreq rfl⟩
  case leaf =>
    rw [B.leaves] at hk
    have hmem : s.freq[k] ∈ s.freq := List.getElem_mem hk
    refine ⟨s.freq[k].1, ?_, _, get_leaf B.holds hk, rfl, count_of_mem_freq hfreq _ hmem, rfl, rfl, rfl, rfl⟩
    rw [← toFinset_freq hfreq, List.mem_toFinset]
    exact List.mem_map_of_mem hmem
  case rising =>
    rw [B.leaves] at hk
    rw [keysRise, get_leaf B.holds (Nat.lt_of_succ_lt hk), get_leaf B.holds hk]
    exact decide_eq_true (List.pairwise_iff_getElem.1 (Memory.rising_iff_pairwise.1 (rising_freq hfreq)) k (k + 1) _ hk
      k.lt_succ_self)

/-- Settles O20, from the working collection being the live nodes. -/
theorem buildMergesTheTwoLightest : Obligations.BuildMergesTheTwoLightest := by
  unfold Obligations.BuildMergesTheTwoLightest
  intro s t hfreq h ht k hk hk'
  have B := built_of_exec_build hfreq h ht
  rw [B.leaves] at hk ⊢
  rw [B.records] at hk'
  exact mergesLightest_of_treeNodes B.nonempty (rising_freq hfreq) (freqWf_iff.1 hfreq).2 B.holds k hk hk'

/-- Settles O21: the tree's weight is the sum over its symbols, which are all that have a count. -/
theorem buildRootWeighsAllCounts : Obligations.BuildRootWeighsAllCounts := by
  unfold Obligations.BuildRootWeighsAllCounts
  intro s t hfreq h ht
  have B := built_of_exec_build hfreq h ht
  obtain ⟨T, hT, hsym, hfields, -⟩ := B.exists_heldTree hfreq
  obtain ⟨r, hr, hweight, -⟩ := record_of_treeAt (heldTree_eq_some.1 hT)
  have hlast : t.nodecnt.toNat - 1 = 2 * t.nleaf.toNat - 2 := by rw [B.records, B.leaves]; omega
  refine ⟨r, hlast ▸ hr, ?_, hlast⟩
  rw [← hweight, treeWeight_eq_sum T hfields, (hsym.map _).sum_eq, sum_freq hfreq]

/-- With one present symbol FREQ lists it alone. -/
theorem freq_of_presentSymbols_singleton {s : State} {x : Nat} (hfreq : freqWf s.config s.freq = true)
    (hx : PresentSymbols s = {x}) : s.freq = [(x, freqGet s.freq x)] := by
  have hlen : s.freq.length = 1 := by rw [length_freq hfreq, hx, Finset.card_singleton]
  obtain ⟨⟨y, c⟩, he⟩ := List.length_eq_one_iff.1 hlen
  have hmem : (y, c) ∈ s.freq := he ▸ List.mem_singleton_self _
  have hy : y = x := by
    have hset := toFinset_freq hfreq
    rw [hx, he] at hset
    exact Finset.mem_singleton.1 (hset ▸ by simp)
  have hc : c = freqGet s.freq y := count_of_mem_freq hfreq _ hmem
  rw [← hy, ← hc, he]

/-- DERIVE of a single leaf makes the one entry with the code "0" (42_code_table_gen.md R142). -/
theorem exec_derive_of_leaf {s : State} {r : NodeRec} (hcnt : s.nodecnt.toNat = 1) (hr : Memory.get s.node 0 = some r)
    (hkind : r.kind = .leaf) : exec .derive s = .next (setStatus statusOk (deriveCommit s [(r.key, [false])])) := by
  have htree : treeAt s.node 1 0 = some (.leaf r.key r.weight r.depth) :=
    treeAt_succ_eq_some.2 ⟨r, hr, .inl ⟨hkind, rfl⟩⟩
  have hcodes := treeCodes_of_treeAt htree
  rw [← hcnt] at hcodes
  exact exec_derive_eq_next.2 (.inl ⟨_, deriveResult_eq_ok.2 ⟨by omega, hcodes, by simp [codesOfTree]⟩, rfl⟩)

/-- Settles O22: FREQ's list is the symbol alone, and DERIVE finds its leaf at the root. -/
theorem singleSymbolTreeAndCode : Obligations.SingleSymbolTreeAndCode := by
  unfold Obligations.SingleSymbolTreeAndCode
  intro s x hfreq hx
  have hlist := freq_of_presentSymbols_singleton hfreq hx
  have hne : s.freq ≠ [] := by rw [hlist]; exact List.cons_ne_nil _ _
  have hlen : s.freq.length = 1 := by rw [hlist]; rfl
  have B := built_buildCommit hfreq hne
  have hcnt := B.records
  have hleaf := B.leaves
  have hroot := get_leaf B.holds (hlen ▸ Nat.one_pos)
  have hentry : s.freq[0] = (x, freqGet s.freq x) := List.getElem_of_eq hlist _
  rw [hentry] at hroot
  rw [hlen] at hcnt hleaf
  refine ⟨_, exec_build_of_ne_nil hfreq hne, rfl, BitVec.eq_of_toNat_eq hcnt, BitVec.eq_of_toNat_eq hleaf,
    ⟨_, hroot, rfl, rfl, rfl, rfl⟩, _, exec_derive_of_leaf hcnt hroot rfl, rfl, rfl, rfl, ?_⟩
  exact Memory.get_setRange_zero _ _ Nat.one_pos

/-- Settles O23, from the forest's symbols and the records' fields. -/
theorem builtTreeIsSound : Obligations.BuiltTreeIsSound := by
  unfold Obligations.BuiltTreeIsSound
  intro s t hfreq h ht
  have B := built_of_exec_build hfreq h ht
  obtain ⟨T, hT, hsym, hfields, hheavy⟩ := B.exists_heldTree hfreq
  have hlen : (treeSymbols T).length = t.nleaf.toNat := by rw [hsym.length_eq, List.length_map, B.leaves]
  exact ⟨T, hT, hlen, (treeBranches_succ T).trans hlen, hsym.nodup_iff.2 (Memory.nodup_indexes (rising_freq hfreq)),
    (List.toFinset_eq_of_perm _ _ hsym).trans (toFinset_freq hfreq), hfields, treeDepth_eq_treeHeight_succ T hfields,
    hheavy⟩

/-- Settles O24, by Huffman's theorem. -/
theorem builtTreeIsOptimal : Obligations.BuiltTreeIsOptimal := by
  unfold Obligations.BuiltTreeIsOptimal
  intro s t T U hfreq h ht hT hU
  have B := built_of_exec_build hfreq h ht
  obtain ⟨T', hT', hsym, -, -⟩ := B.exists_heldTree hfreq
  obtain rfl : T' = T := Option.some.inj (hT'.symm.trans hT)
  rw [heldTree_eq_some, B.records] at hT
  exact pathCost_le_of_treeNodes B.nonempty (rising_freq hfreq) (freqWf_iff.1 hfreq).2 (count_of_mem_freq hfreq) B.holds
    hT (hU.trans hsym)

/-- Settles O25: equal counts are equal lists, and of those BUILD makes the same records. -/
theorem buildDependsOnCountsAlone : Obligations.BuildDependsOnCountsAlone := by
  unfold Obligations.BuildDependsOnCountsAlone
  intro s s' t t' hfreq hfreq' hcounts h h'
  have hlist := freq_eq_of_freqGet hfreq hfreq' hcounts
  by_cases hne : s.freq = []
  · obtain rfl := Host.Outcome.next.inj ((exec_build_of_nil hne).symm.trans h)
    obtain rfl := Host.Outcome.next.inj ((exec_build_of_nil (hlist ▸ hne)).symm.trans h')
    exact ⟨rfl, rfl, rfl, fun k hk => absurd hk (Nat.not_lt_zero k)⟩
  · have hne' : s'.freq ≠ [] := hlist ▸ hne
    obtain rfl := Host.Outcome.next.inj ((exec_build_of_ne_nil hfreq hne).symm.trans h)
    obtain rfl := Host.Outcome.next.inj ((exec_build_of_ne_nil hfreq' hne').symm.trans h')
    have B := built_buildCommit hfreq hne
    have B' := built_buildCommit hfreq' hne'
    refine ⟨rfl, BitVec.eq_of_toNat_eq (by rw [B.records, B'.records, hlist]),
      BitVec.eq_of_toNat_eq (by rw [B.leaves, B'.leaves, hlist]), fun k hk => ?_⟩
    rw [B.records, ← length_treeNodes hne] at hk
    rw [B.holds k hk, B'.holds k (hlist ▸ hk), hlist]

end Sys2Proof
end

section
/-! PROOFS. Code tables: the check said as (W1) to (W4) of 42_code_table_gen.md R148, and that PACK and UNPACK make it
before anything else (obligations O32, O33). -/

namespace Sys2Proof

open Sys2Proof.Machine

/-! The check. -/

theorem allPairs_iff_pairwise {α : Type} {p : α → α → Bool} {xs : List α} :
    allPairs p xs = true ↔ xs.Pairwise fun x y => p x y = true := by
  induction xs with
  | nil => simp [allPairs]
  | cons x xs ih => rw [allPairs, Bool.and_eq_true, List.all_eq_true, ih, List.pairwise_cons]

/-- A relation that holds both ways between every element and every later one holds between any two places. -/
theorem pairwise_both_iff_getElem {α : Type} {R : α → α → Prop} {xs : List α} :
    xs.Pairwise (fun x y => R x y ∧ R y x) ↔
      ∀ i j (hi : i < xs.length) (hj : j < xs.length), i ≠ j → R xs[i] xs[j] := by
  rw [List.pairwise_iff_getElem]
  constructor
  · intro h i j hi hj hne
    rcases Nat.lt_or_gt_of_ne hne with hij | hji
    · exact (h i j hi hj hij).1
    · exact (h j i hj hi hji).2
  · exact fun h i j hi hj hij => ⟨h i j hi hj hij.ne, h j i hj hi hij.ne'⟩

theorem lenLegal_iff {e : Entry} : lenLegal e = true ↔ 1 ≤ e.len ∧ e.len ≤ 32 := by
  simp [lenLegal, Config.lenMax]

theorem containerClean_iff {e : Entry} : containerClean e = true ↔ e.code.toNat < 2 ^ e.len := by
  simp [containerClean]

theorem symbolsDiffer_iff {e f : Entry} : symbolsDiffer e f = true ↔ e.sym ≠ f.sym := by
  simp [symbolsDiffer]

theorem prefixFreePair_iff {e f : Entry} :
    prefixFreePair e f = true ↔ ¬ entryBits e <+: entryBits f ∧ ¬ entryBits f <+: entryBits e := by
  simp [prefixFreePair, ← Bool.not_eq_true]

/-- `TableWF` as properties of the entries and of the pairs of entries (42_code_table_gen.md R148). -/
theorem tableWF_iff {t : List Entry} :
    tableWF t = true ↔
      (∀ e ∈ t, 1 ≤ e.len ∧ e.len ≤ 32) ∧ (∀ e ∈ t, e.code.toNat < 2 ^ e.len) ∧
        t.Pairwise (fun e f => e.sym ≠ f.sym) ∧
        t.Pairwise (fun e f => ¬ entryBits e <+: entryBits f ∧ ¬ entryBits f <+: entryBits e) := by
  simp only [tableWF, Bool.and_eq_true, List.all_eq_true, allPairs_iff_pairwise, lenLegal_iff, containerClean_iff,
    symbolsDiffer_iff, prefixFreePair_iff, and_assoc]

/-- Settles O32: the check's pairs are taken in order, and both (W3) and (W4) hold both ways. -/
theorem tableCheckMeansW1ToW4 : Obligations.TableCheckMeansW1ToW4 := by
  unfold Obligations.TableCheckMeansW1ToW4
  intro t
  have hsym : t.Pairwise (fun e f => e.sym ≠ f.sym) ↔ t.Pairwise fun e f => e.sym ≠ f.sym ∧ f.sym ≠ e.sym := by
    simp only [ne_comm, and_self]
  rw [tableWF_iff, hsym, pairwise_both_iff_getElem, pairwise_both_iff_getElem]
  rfl

/-! The commands that make it. -/

section Malformed

variable {s : State} {table : List Entry} (htable : TableIs s table) (hwf : tableWF table = false)

include htable hwf

/-- PACK's second check (43_bit_packer.md R160). -/
theorem packResult_of_malformed (hsym : s.symlen.toNat ≤ s.config.symCap) (htab : s.tabsize.toNat ≤ s.config.tabCap) :
    packResult s = .raised .malformedCode := by
  rw [packResult, if_neg (by omega), readTable_eq_ok.2 htable, Attempt.andThen_ok, hwf]
  rfl

/-- UNPACK's second check (44_bit_unpacker.md R175, R181). -/
theorem unpackResult_of_malformed (hsym : s.symcount.toNat ≤ s.config.symCap)
    (htab : s.tabsize.toNat ≤ s.config.tabCap) (hbyte : s.bytelen.toNat ≤ s.config.byteCap) :
    unpackResult s = .raised .malformedCode := by
  rw [unpackResult, if_neg (by omega), readTable_eq_ok.2 htable, Attempt.andThen_ok, hwf]
  rfl

end Malformed

/-- Settles O33: neither computation reads a symbol or a byte before the check of the table. -/
theorem malformedTableIsRejected : Obligations.MalformedTableIsRejected := by
  unfold Obligations.MalformedTableIsRejected
  refine ⟨fun s table hsym htab htable hwf => ?pack, fun s table hsym htab hbyte htable hwf => ?unpack⟩
  case pack =>
    exact ⟨_, exec_pack_eq_next.2 (.inr ⟨_, packResult_of_malformed htable hwf hsym htab, rfl⟩), rfl, unwritten_nil⟩
  case unpack =>
    exact ⟨_, exec_unpack_eq_next.2 (.inr ⟨_, unpackResult_of_malformed htable hwf hsym htab hbyte, rfl⟩), rfl,
      unwritten_nil⟩

end Sys2Proof
end

section
/-! PROOFS. The codes of a tree (42_code_table_gen.md R140 to R143, R147): any two of them part at one branch, the earlier
one going left. From this follow their order, that none begins another, and that a bit sequence begins with at most one of
them; that it begins with one is the walk down the tree. -/

namespace Sys2Proof.Machine

/-- Two codes part at a branch, the first going to its left, the second to its right. -/
def PartsLeft (b c : Bits) : Prop := ∃ p u v, b = p ++ false :: u ∧ c = p ++ true :: v

namespace PartsLeft

variable {b c : Bits}

theorem lex (h : PartsLeft b c) : List.Lex (fun x y => x = false ∧ y = true) b c := by
  obtain ⟨p, u, v, rfl, rfl⟩ := h
  exact List.Lex.append_left _ (.rel ⟨rfl, rfl⟩) p

/-- No sequence begins with both of two codes that part. -/
theorem not_common_prefix (h : PartsLeft b c) {x : Bits} (hb : b <+: x) (hc : c <+: x) : False := by
  obtain ⟨p, u, v, rfl, rfl⟩ := h
  obtain ⟨y, rfl⟩ := hb
  simp [List.append_assoc, List.prefix_append_right_inj, List.cons_prefix_cons] at hc

theorem prefixFree (h : PartsLeft b c) : ¬ b <+: c ∧ ¬ c <+: b :=
  ⟨fun hbc => h.not_common_prefix hbc (List.prefix_refl c), fun hcb => h.not_common_prefix (List.prefix_refl b) hcb⟩

end PartsLeft

/-- Every code below a node continues the node's own path. -/
theorem prefix_of_mem_pathCodes {T : CodeTree} : ∀ {b : Bits}, ∀ c ∈ pathCodes b T, b <+: c.2 := by
  induction T with
  | leaf => intro b c hc; rw [List.mem_singleton.1 hc]
  | branch _ _ l u hl hu =>
    intro b c hc
    rcases List.mem_append.1 hc with hc | hc
    · exact (List.prefix_append b _).trans (hl c hc)
    · exact (List.prefix_append b _).trans (hu c hc)

/-- Of two leaves the left one's code parts from the right one's at the branch above both. -/
theorem pathCodes_pairwise (T : CodeTree) : ∀ b : Bits, (pathCodes b T).Pairwise fun c d => PartsLeft c.2 d.2 := by
  induction T with
  | leaf => intro b; exact List.pairwise_singleton _ _
  | branch _ _ l u hl hu =>
    intro b
    refine List.pairwise_append.2 ⟨hl _, hu _, fun c hc d hd => ?_⟩
    obtain ⟨x, hx⟩ := prefix_of_mem_pathCodes c hc
    obtain ⟨y, hy⟩ := prefix_of_mem_pathCodes d hd
    exact ⟨b, x, y, by rw [← hx, List.append_assoc]; rfl, by rw [← hy, List.append_assoc]; rfl⟩

/-- The codes of a whole tree part like those below its root (42_code_table_gen.md R143). -/
theorem codesOfTree_pairwise (T : CodeTree) : (codesOfTree T).Pairwise fun c d => PartsLeft c.2 d.2 := by
  cases T with
  | leaf => exact List.pairwise_singleton _ _
  | branch => exact pathCodes_pairwise _ _

theorem length_codesOfTree (T : CodeTree) : (codesOfTree T).length = (treeSymbols T).length := by
  rw [← map_fst_codesOfTree, List.length_map]

/-- A tree with one symbol is a leaf, and every other is walked from its root (42_code_table_gen.md R140, R142). -/
theorem codesOfTree_cases (T : CodeTree) :
    ((treeSymbols T).length = 1 ∧ (codesOfTree T).map Prod.snd = [[false]]) ∨
      (2 ≤ (treeSymbols T).length ∧ codesOfTree T = pathCodes [] T) := by
  cases T with
  | leaf => exact .inl ⟨rfl, rfl⟩
  | branch _ _ l u =>
    have hl := List.length_pos_of_mem (treeKey_mem_treeSymbols l)
    have hu := List.length_pos_of_mem (treeKey_mem_treeSymbols u)
    exact .inr ⟨by rw [treeSymbols, List.length_append]; omega, rfl⟩

/-- No code is empty (42_code_table_gen.md R142). -/
theorem ne_nil_of_mem_codesOfTree {T : CodeTree} : ∀ c ∈ codesOfTree T, c.2 ≠ [] := by
  cases T with
  | leaf => intro c hc; rw [List.mem_singleton.1 hc]; exact List.cons_ne_nil _ _
  | branch _ _ l u =>
    intro c hc
    rcases List.mem_append.1 hc with hc | hc <;>
      exact List.ne_nil_of_length_pos (prefix_of_mem_pathCodes c hc).length_le

/-- The first `n` bits of an infinite sequence. -/
def firstBits (f : Nat → Bool) (n : Nat) : Bits := (List.range n).map f

@[simp] theorem length_firstBits (f : Nat → Bool) (n : Nat) : (firstBits f n).length = n := by simp [firstBits]

theorem firstBits_succ (f : Nat → Bool) (n : Nat) : firstBits f (n + 1) = firstBits f n ++ [f n] := by
  simp [firstBits, List.range_succ]

theorem firstBits_prefix (f : Nat → Bool) {m n : Nat} (h : m ≤ n) : firstBits f m <+: firstBits f n := by
  obtain ⟨k, rfl⟩ := Nat.exists_eq_add_of_le h
  rw [firstBits, firstBits, List.range_add, List.map_append]
  exact List.prefix_append _ _

/-- A walk that takes at every branch the turn the sequence says next ends at a leaf (42_code_table_gen.md R147). -/
theorem exists_pathCode_firstBits (f : Nat → Bool) (T : CodeTree) :
    ∀ n, ∃ c ∈ pathCodes (firstBits f n) T, c.2 = firstBits f c.2.length := by
  induction T with
  | leaf s => intro n; exact ⟨(s, firstBits f n), List.mem_singleton_self _, by rw [length_firstBits]⟩
  | branch _ _ l u hl hu =>
    intro n
    have hnext := firstBits_succ f n
    cases hf : f n <;> rw [hf] at hnext
    · obtain ⟨c, hc, hbits⟩ := hl (n + 1)
      exact ⟨c, List.mem_append_left _ (hnext ▸ hc), hbits⟩
    · obtain ⟨c, hc, hbits⟩ := hu (n + 1)
      exact ⟨c, List.mem_append_right _ (hnext ▸ hc), hbits⟩

/-- A sequence begins with at most one of two codes that part. -/
theorem PartsLeft.not_both_firstBits {b c : Bits} (h : PartsLeft b c) {f : Nat → Bool} {m n : Nat} :
    ¬ (b = firstBits f m ∧ c = firstBits f n) := by
  rintro ⟨rfl, rfl⟩
  exact h.not_common_prefix (firstBits_prefix f (Nat.le_max_left m n)) (firstBits_prefix f (Nat.le_max_right m n))

end Sys2Proof.Machine
end

section
/-! PROOFS. DERIVE: what it answers, the table it writes, and its obligations (O27 to O31). -/

namespace Sys2Proof

open Sys2Proof.Machine

/-! The entries of codes that fit their containers (42_code_table_gen.md R145). -/

section Entries

variable {cs : List (Nat × Bits)} (hfit : ∀ c ∈ cs, c.2.length ≤ Config.lenMax)

theorem map_sym_entryOf : (cs.map entryOf).map (·.sym) = cs.map Prod.fst := List.map_map

include hfit

theorem map_entryBits_entryOf : (cs.map entryOf).map entryBits = cs.map Prod.snd := by
  rw [List.map_map]
  exact List.map_congr_left fun c hc => entryBits_entryOf c.1 c.2 (hfit c hc)

/-- What holds of all pairs of codes holds of all pairs of entries. -/
theorem pairwise_entryBits_of_codes {R : Bits → Bits → Prop} (h : cs.Pairwise fun c d => R c.2 d.2) :
    (cs.map entryOf).Pairwise fun e f => R (entryBits e) (entryBits f) := by
  refine List.pairwise_map.1 ?_
  rw [map_entryBits_entryOf hfit]
  exact List.pairwise_map.2 h

end Entries

theorem code_lt_entryOf (c : Nat × Bits) : (entryOf c).code.toNat < 2 ^ (entryOf c).len :=
  Nat.lt_of_le_of_lt (Nat.mod_le _ _) (bitsVal_lt c.2)

/-- A property that no two places of a list have together, at most one element has. -/
theorem eq_of_pairwise_not_both {α : Type} {p : α → Prop} {xs : List α} (h : xs.Pairwise fun x y => ¬ (p x ∧ p y))
    {x y : α} (hx : x ∈ xs) (hy : y ∈ xs) (hpx : p x) (hpy : p y) : x = y := by
  have hsymm : Std.Symm fun x y => ¬ (p x ∧ p y) := ⟨fun _ _ hxy hyx => hxy hyx.symm⟩
  by_contra hne
  exact h.forall hx hy hne ⟨hpx, hpy⟩

/-! The table of a tree whose codes fit. -/

section Table

variable {T : CodeTree} (hfit : ∀ c ∈ codesOfTree T, c.2.length ≤ Config.lenMax)

include hfit

/-- Any two entries' codes part, the earlier one going left. -/
theorem derivedTable_pairwise :
    ((codesOfTree T).map entryOf).Pairwise fun e f => PartsLeft (entryBits e) (entryBits f) :=
  pairwise_entryBits_of_codes hfit (codesOfTree_pairwise T)

/-- The table of a tree with distinct symbols is well-formed (42_code_table_gen.md R147). -/
theorem tableWF_derivedTable (hnodup : (treeSymbols T).Nodup) : tableWF ((codesOfTree T).map entryOf) = true := by
  refine tableWF_iff.2 ⟨List.forall_mem_map.2 fun c hc => ⟨?_, hfit c hc⟩, List.forall_mem_map.2 fun c _ =>
    code_lt_entryOf c, ?_, (derivedTable_pairwise hfit).imp PartsLeft.prefixFree⟩
  · exact List.length_pos_of_ne_nil (ne_nil_of_mem_codesOfTree c hc)
  · rw [← map_fst_codesOfTree, ← map_sym_entryOf] at hnodup
    exact List.pairwise_map.1 hnodup

/-- For two or more symbols every bit sequence begins with one code, and codes that part leave it no second
(42_code_table_gen.md R147). -/
theorem existsUnique_entry_firstBits (htwo : 2 ≤ (treeSymbols T).length) (f : Nat → Bool) :
    ∃! e, e ∈ (codesOfTree T).map entryOf ∧ entryBits e = firstBits f e.len := by
  have hpaths : codesOfTree T = pathCodes [] T := (codesOfTree_cases T).elim (fun h => by omega) And.right
  obtain ⟨c, hc, hbits⟩ : ∃ c ∈ codesOfTree T, c.2 = firstBits f c.2.length :=
    hpaths ▸ exists_pathCode_firstBits f T 0
  have hmem : entryOf c ∈ (codesOfTree T).map entryOf := List.mem_map_of_mem hc
  have hbegins : entryBits (entryOf c) = firstBits f (entryOf c).len :=
    (entryBits_entryOf c.1 c.2 (hfit c hc)).trans hbits
  have hapart : ((codesOfTree T).map entryOf).Pairwise fun e d =>
      ¬ (entryBits e = firstBits f e.len ∧ entryBits d = firstBits f d.len) :=
    (derivedTable_pairwise hfit).imp fun h => h.not_both_firstBits
  exact ⟨entryOf c, ⟨hmem, hbegins⟩, fun e ⟨he, hebegins⟩ => eq_of_pairwise_not_both hapart he hmem hebegins hbegins⟩

end Table

/-! What DERIVE answers. -/

section Answers

variable {s t : State} {T : CodeTree}

theorem tableIs_deriveCommit {cs : List (Nat × Bits)} (hlen : cs.length < 2 ^ 32) :
    TableIs (setStatus statusOk (deriveCommit s cs)) (cs.map entryOf) :=
  ⟨(Nat.mod_eq_of_lt hlen).trans (List.length_map _).symm, holds_setRange _ _⟩

/-- A region of CODETAB holds one table. -/
theorem TableIs.unique {table table' : List Entry} (h : TableIs t table) (h' : TableIs t table') : table = table' :=
  Attempt.ok.inj ((readTable_eq_ok.2 h).symm.trans (readTable_eq_ok.2 h'))

theorem nodecnt_ne_zero_of_heldTree (hT : heldTree s = some T) : s.nodecnt.toNat ≠ 0 := by
  intro hzero
  rw [heldTree, if_pos hzero] at hT
  cases hT

theorem treeCodes_of_heldTree (hT : heldTree s = some T) : treeCodes s.node s.nodecnt.toNat = .ok (codesOfTree T) :=
  treeCodes_of_treeAt (heldTree_eq_some.1 hT)

/-- The leaves of the tree held: NLEAF of them, with distinct symbols (41_huffman_tree_builder.md R128). -/
theorem Inv.leaves_of_heldTree (h : Inv s) (hT : heldTree s = some T) :
    (treeSymbols T).length = s.nleaf.toNat ∧ (treeSymbols T).Nodup := by
  obtain ⟨T', hT', hlen, hnodup, -⟩ := (h.tree.resolve_left (nodecnt_ne_zero_of_heldTree hT)).whole
  obtain rfl : T' = T := Option.some.inj (hT'.symm.trans hT)
  exact ⟨hlen, hnodup⟩

/-- DERIVE's table has NLEAF entries (42_code_table_gen.md R140). -/
theorem Inv.length_codesOfTree (h : Inv s) (hT : heldTree s = some T) : (codesOfTree T).length = s.nleaf.toNat :=
  (Machine.length_codesOfTree T).trans (h.leaves_of_heldTree hT).1

theorem exec_derive_of_fit (hT : heldTree s = some T) (hfit : ∀ c ∈ codesOfTree T, c.2.length ≤ Config.lenMax) :
    exec .derive s = .next (setStatus statusOk (deriveCommit s (codesOfTree T))) :=
  exec_derive_eq_next.2
    (.inl ⟨_, deriveResult_eq_ok.2 ⟨nodecnt_ne_zero_of_heldTree hT, treeCodes_of_heldTree hT, hfit⟩, rfl⟩)

/-- DERIVE's second check (42_code_table_gen.md R145). -/
theorem deriveResult_of_long (hT : heldTree s = some T) (hlong : ∃ c ∈ codesOfTree T, Config.lenMax < c.2.length) :
    deriveResult s = .raised .capacity := by
  rw [deriveResult, if_neg (nodecnt_ne_zero_of_heldTree hT), treeCodes_of_heldTree hT, Attempt.andThen_ok, if_pos]
  simpa using hlong

/-- A DERIVE that succeeds found a tree whose codes fit, and wrote its table. -/
theorem exec_derive_success (h : Inv s) (hexec : exec .derive s = .next t) (ht : t.status = 0) :
    ∃ T, heldTree s = some T ∧ (∀ c ∈ codesOfTree T, c.2.length ≤ Config.lenMax) ∧
      TableIs t ((codesOfTree T).map entryOf) := by
  obtain ⟨cs, hcs, rfl⟩ | ⟨e, -, rfl⟩ := exec_derive_eq_next.1 hexec
  · obtain ⟨hcnt, hcodes, hfit⟩ := deriveResult_eq_ok.1 hcs
    obtain ⟨T, hT, -⟩ := (h.tree.resolve_left hcnt).whole
    obtain rfl : codesOfTree T = cs := Attempt.ok.inj ((treeCodes_of_heldTree hT).symm.trans hcodes)
    exact ⟨T, hT, hfit, tableIs_deriveCommit (h.length_codesOfTree hT ▸ s.nleaf.isLt)⟩
  · exact absurd ht (statusError_ne_zero e opDerive)

end Answers

/-! The obligations. -/

/-- Settles O27: the walk's codes are the tree's, and NLEAF, a register, counts them. -/
theorem deriveWritesTheCodes : Obligations.DeriveWritesTheCodes := by
  unfold Obligations.DeriveWritesTheCodes
  intro s T h hT hfit
  have hexec := exec_derive_of_fit hT hfit
  have hlen := h.length_codesOfTree hT
  have htable : TableIs _ _ := tableIs_deriveCommit (s := s) (hlen ▸ s.nleaf.isLt)
  refine ⟨_, hexec, rfl, ?_, htable, exec_derive_keeps_cells hexec h rfl⟩
  rw [htable.1, List.length_map, hlen]

/-- Settles O28: the check of the lengths comes before any write. -/
theorem deriveCodeTooLong : Obligations.DeriveCodeTooLong := by
  unfold Obligations.DeriveCodeTooLong
  intro s T _ hT hlong
  exact ⟨_, exec_derive_eq_next.2 (.inr ⟨_, deriveResult_of_long hT hlong, rfl⟩), rfl, unwritten_nil⟩

/-- Settles O29: the table is that of the tree held, whose symbols differ and whose codes part. -/
theorem derivedTableIsWellFormed : Obligations.DerivedTableIsWellFormed := by
  unfold Obligations.DerivedTableIsWellFormed
  intro s t h hexec ht
  obtain ⟨T, hT, hfit, htable⟩ := exec_derive_success h hexec ht
  obtain ⟨hleaves, hnodup⟩ := h.leaves_of_heldTree hT
  refine ⟨T, _, hT, htable, tableWF_derivedTable hfit hnodup, ?_, ?_, fun hne => ?many, fun hone => ?single⟩
  · rw [List.length_map, h.length_codesOfTree hT]
  · rw [map_sym_entryOf, map_fst_codesOfTree]
  all_goals
    rw [map_entryBits_entryOf hfit]
    obtain ⟨hlen, hcodes⟩ | ⟨hlen, hcodes⟩ := codesOfTree_cases T
  case many.inl => omega
  case many.inr => rw [hcodes]
  case single.inl => exact hcodes
  case single.inr => omega

/-- Settles O30: the walk down the tree along the sequence, and for one symbol the code "0". -/
theorem derivedTableIsComplete : Obligations.DerivedTableIsComplete := by
  unfold Obligations.DerivedTableIsComplete
  intro s t table h hexec ht htable
  obtain ⟨T, -, hfit, hderived⟩ := exec_derive_success h hexec ht
  obtain rfl := htable.unique hderived
  rw [List.length_map, length_codesOfTree]
  refine ⟨fun htwo f => existsUnique_entry_firstBits hfit htwo f, fun hone e he b hcode => ?_⟩
  have hcodes : (codesOfTree T).map Prod.snd = [[false]] := (codesOfTree_cases T).elim And.right fun h => by omega
  have hmem : entryBits e ∈ [[false]] := hcodes ▸ map_entryBits_entryOf hfit ▸ List.mem_map_of_mem he
  rw [hcode] at hmem
  simp at hmem

/-- Settles O31: an entry's code parts to the left of every later one's. -/
theorem derivedTableIsInCodeOrder : Obligations.DerivedTableIsInCodeOrder := by
  unfold Obligations.DerivedTableIsInCodeOrder
  intro s t table h hexec ht htable
  obtain ⟨T, -, hfit, hderived⟩ := exec_derive_success h hexec ht
  obtain rfl := htable.unique hderived
  exact List.pairwise_map.2 ((derivedTable_pairwise hfit).imp PartsLeft.lex)

end Sys2Proof
end

section
/-! PROOFS. Packing bits into bytes and back: which bit of which byte each logical bit is (43_bit_packer.md R162,
44_bit_unpacker.md R176). -/

namespace Sys2Proof.Machine

/-- Bit `j` of a bit-string is bit `n - 1 - j` of its value: the first bit is the most significant (00_scope.md R9). -/
theorem testBit_bitsVal {b : Bits} {j : Nat} (hj : j < b.length) : (bitsVal b).testBit (b.length - 1 - j) = b[j] := by
  have hbit := getElem?_bitsOf b.length (bitsVal b) j
  rw [bitsOf_bitsVal, if_pos hj, List.getElem?_eq_getElem hj] at hbit
  exact (Option.some.inj hbit).symm

/-- Bit `7 - j` of byte `k` of a packing is logical bit `8k + j` (43_bit_packer.md R162, R163). -/
theorem getLsbD_packByte (b : Bits) (k : Nat) {j : Nat} (hj : j < 8) :
    (packByte b k).getLsbD (7 - j) = b.getD (8 * k + j) false := by
  have hbit := testBit_bitsVal (b := (List.range 8).map fun j => b.getD (8 * k + j) false) (j := j) (by simpa using hj)
  simp only [List.length_map, List.length_range, List.getElem_map, List.getElem_range] at hbit
  rw [packByte, BitVec.getLsbD_ofNat, decide_eq_true (by omega : 7 - j < 8), Bool.true_and]
  exact hbit

theorem getElem_packBits (b : Bits) {k : Nat} (hk : k < (packBits b).length) : (packBits b)[k] = packByte b k := by
  simp [packBits]

theorem unpackBits_cons (y : Byte) (ys : List Byte) : unpackBits (y :: ys) = bitsOf 8 y.toNat ++ unpackBits ys := rfl

@[simp] theorem length_unpackBits (ys : List Byte) : (unpackBits ys).length = 8 * ys.length := by
  induction ys with
  | nil => rfl
  | cons y ys ih => rw [unpackBits_cons, List.length_append, ih, length_bitsOf, List.length_cons]; omega

/-- Logical bit `i` of a byte sequence is bit `7 - i mod 8` of byte `i div 8` (44_bit_unpacker.md R176). -/
theorem getElem?_unpackBits (ys : List Byte) (i : Nat) :
    (unpackBits ys)[i]? = ys[i / 8]?.map fun y => y.getLsbD (7 - i % 8) := by
  induction ys generalizing i with
  | nil => rfl
  | cons y ys ih =>
    rw [unpackBits_cons, List.getElem?_append, length_bitsOf]
    split_ifs with hi
    · rw [getElem?_bitsOf, if_pos hi, Nat.div_eq_of_lt hi, Nat.mod_eq_of_lt hi]; rfl
    · obtain ⟨j, rfl⟩ : ∃ j, i = j + 8 := ⟨i - 8, by omega⟩
      rw [Nat.add_sub_cancel, ih, Nat.add_div_right j (by decide), Nat.add_mod_right, List.getElem?_cons_succ]

theorem getElem_unpackBits {ys : List Byte} {i : Nat} (hi : i < (unpackBits ys).length) (hy : i / 8 < ys.length) :
    (unpackBits ys)[i] = ys[i / 8].getLsbD (7 - i % 8) := by
  have hbit := getElem?_unpackBits ys i
  rw [List.getElem?_eq_getElem hi, List.getElem?_eq_getElem hy] at hbit
  exact Option.some.inj hbit

/-- Byte `i div 8` of a packing shows logical bit `i`, and 0 where the bits have ended (43_bit_packer.md R162, R163). -/
theorem exists_packed_bit {b : Bits} {i : Nat} (hi : i < 8 * ceilDiv8 b.length) :
    ∃ y, (packBits b)[i / 8]? = some y ∧ y.getLsbD (7 - i % 8) = b.getD i false := by
  have hk : i / 8 < (packBits b).length := by rw [length_packBits]; omega
  refine ⟨_, List.getElem?_eq_getElem hk, ?_⟩
  rw [getElem_packBits, getLsbD_packByte b _ (Nat.mod_lt i (by decide)), Nat.div_add_mod]

/-- Unpacking what was packed gives the bits back, and the padding (44_bit_unpacker.md R176). -/
theorem unpackBits_packBits (b : Bits) :
    unpackBits (packBits b) = b ++ List.replicate (8 * ceilDiv8 b.length - b.length) false := by
  have hlen : b.length ≤ 8 * ceilDiv8 b.length := by rw [ceilDiv8]; omega
  refine List.ext_getElem (by simp; omega) fun i hi _ => ?_
  rw [length_unpackBits, length_packBits] at hi
  obtain ⟨y, hy, hbit⟩ := exists_packed_bit hi
  obtain ⟨hk, rfl⟩ := List.getElem?_eq_some_iff.1 hy
  rw [getElem_unpackBits _ hk, hbit, List.getElem_append]
  split_ifs with hb
  · exact List.getD_eq_getElem _ _ hb
  · rw [List.getElem_replicate, List.getD_eq_default _ _ (Nat.not_lt.1 hb)]

/-- The packing of 0 bits is bytes of 0. -/
theorem packBits_replicate_false (n : Nat) : packBits (List.replicate n false) = List.replicate (ceilDiv8 n) 0 := by
  have hbyte (k : Nat) : packByte (List.replicate n false) k = 0 := by
    simp only [packByte, List.getD_eq_getElem?_getD, List.getElem?_getD_replicate_default_eq]
    rfl
  rw [packBits, List.length_replicate, List.map_congr_left fun k _ => hbyte k, List.map_const', List.length_range]

end Sys2Proof.Machine

namespace Sys2Proof

open Sys2Proof.Machine

/-- Settles O37: byte by byte and bit by bit, and bit by bit again for the inverse. -/
theorem packingIsPositional : Obligations.PackingIsPositional := by
  unfold Obligations.PackingIsPositional
  refine ⟨length_packBits, fun b k j hk hj => ?_, length_unpackBits, fun ys i => getElem_unpackBits,
    unpackBits_packBits⟩
  rw [getElem_packBits, getLsbD_packByte b k hj]
  split_ifs with hb
  · exact List.getD_eq_getElem _ _ hb
  · exact List.getD_eq_default _ _ (Nat.not_lt.1 hb)

end Sys2Proof
end

section
/-! PROOFS. PACK: the look-up of a symbol, the gathering of the bits symbol by symbol, what PACK answers, and its
obligations (O34, O35, O36). -/

namespace Sys2Proof.Machine

/-! The look-up (43_bit_packer.md R161). -/

theorem codeOf_eq_some {t : List Entry} {x : Nat} {c : Bits} (h : codeOf t x = some c) :
    ∃ e ∈ t, e.sym = x ∧ c = entryBits e := by
  obtain ⟨e, he, rfl⟩ := Option.map_eq_some_iff.1 h
  exact ⟨e, List.mem_of_find?_eq_some he, by simpa using List.find?_some he, rfl⟩

theorem codeOf_eq_none_iff {t : List Entry} {x : Nat} : codeOf t x = none ↔ ∀ e ∈ t, e.sym ≠ x := by
  simp [codeOf]

/-- A well-formed table has a symbol once (42_code_table_gen.md R148). -/
theorem eq_of_sym_eq {t : List Entry} (hwf : tableWF t = true) {e f : Entry} (he : e ∈ t) (hf : f ∈ t)
    (h : e.sym = f.sym) : e = f := by
  obtain ⟨-, -, hsym, -⟩ := tableWF_iff.1 hwf
  exact List.inj_on_of_nodup_map (List.pairwise_map.2 hsym) he hf h

/-- In a well-formed table the code of an entry's symbol is the code of that entry. -/
theorem codeOf_sym {t : List Entry} (hwf : tableWF t = true) {e : Entry} (he : e ∈ t) :
    codeOf t e.sym = some (entryBits e) := by
  cases hc : codeOf t e.sym with
  | none => exact absurd rfl (codeOf_eq_none_iff.1 hc e he)
  | some c =>
    obtain ⟨f, hf, hsym, rfl⟩ := codeOf_eq_some hc
    rw [eq_of_sym_eq hwf hf he hsym]

/-- `cs` are what the look-up finds for the symbols `xs`, one by one (43_bit_packer.md R161). -/
abbrev LookedUp (t : List Entry) (xs : List Nat) (cs : List Bits) : Prop :=
  List.Forall₂ (fun x c => codeOf t x = some c) xs cs

theorem LookedUp.coded {t : List Entry} {xs : List Nat} {cs : List Bits} (h : LookedUp t xs cs) : Coded t xs cs :=
  List.Forall₂.imp (fun _ _ => codeOf_eq_some) h

theorem lookedUp_of_coded {t : List Entry} (hwf : tableWF t = true) {xs : List Nat} {cs : List Bits}
    (h : Coded t xs cs) : LookedUp t xs cs :=
  List.Forall₂.imp (by rintro _ _ ⟨e, he, rfl, rfl⟩; exact codeOf_sym hwf he) h

/-! Cells from an index on. -/

/-- The cells from index `i` on are written and hold the sequence `xs`. -/
def HoldsFrom {α : Type} (m : Cells α) (i : Nat) (xs : List α) : Prop :=
  ∀ k, k < xs.length → Memory.get m (i + k) = xs[k]?

theorem holdsFrom_zero {α : Type} {m : Cells α} {xs : List α} : HoldsFrom m 0 xs ↔ Holds m xs := by
  simp only [HoldsFrom, Holds, Nat.zero_add]

theorem holdsFrom_nil {α : Type} (m : Cells α) (i : Nat) : HoldsFrom m i [] := fun _ hk => absurd hk (Nat.not_lt_zero _)

theorem holdsFrom_cons {α : Type} {m : Cells α} {i : Nat} {x : α} {xs : List α} :
    HoldsFrom m i (x :: xs) ↔ Memory.get m i = some x ∧ HoldsFrom m (i + 1) xs := by
  have hnext (k : Nat) : i + 1 + k = i + (k + 1) := by omega
  simp only [HoldsFrom, hnext]
  constructor
  · exact fun h => ⟨h 0 (Nat.succ_pos _), fun k hk => h (k + 1) (Nat.succ_lt_succ hk)⟩
  · rintro ⟨hx, h⟩ (_ | k) hk
    · exact hx
    · exact h k (Nat.lt_of_succ_lt_succ hk)

theorem holdsFrom_append {α : Type} {m : Cells α} {xs ys : List α} : ∀ {i : Nat},
    HoldsFrom m i (xs ++ ys) ↔ HoldsFrom m i xs ∧ HoldsFrom m (i + xs.length) ys := by
  induction xs with
  | nil => intro i; simp [holdsFrom_nil]
  | cons x xs ih =>
    intro i
    rw [List.cons_append, holdsFrom_cons, holdsFrom_cons, ih, and_assoc, List.length_cons, Nat.add_right_comm,
      Nat.add_assoc]

/-! The gathering of the bits (43_bit_packer.md R160, R165). -/

section Gather

variable {cap : Nat} {t : List Entry} {m : Cells Nat} {n i x : Nat} {b : Bits}

/-- A symbol with a code: the output is full, or the code is added. -/
theorem gatherBits_of_code {c : Bits} (hx : Memory.get m i = some x) (hc : codeOf t x = some c) :
    gatherBits cap t m (n + 1) i b =
      if 8 * cap < b.length + c.length then .raised .capacity else gatherBits cap t m n (i + 1) (b ++ c) := by
  simp only [gatherBits, hx, hc]

theorem gatherBits_of_unknown (hx : Memory.get m i = some x) (hc : codeOf t x = none) :
    gatherBits cap t m (n + 1) i b = .raised .unknownSymbol := by
  simp only [gatherBits, hx, hc]

theorem gatherBits_of_unwritten (hx : Memory.get m i = none) :
    gatherBits cap t m (n + 1) i b = .fault (.unwrittenCell .symbuf) := by
  simp only [gatherBits, hx]

/-- Unless the gathering ends at its first symbol for want of a symbol or of a code, there is a symbol with a code. -/
theorem exists_code_of_gatherBits {r : Attempt Bits} (h : gatherBits cap t m (n + 1) i b = r)
    (hunknown : r ≠ .raised .unknownSymbol) (hunwritten : r ≠ .fault (.unwrittenCell .symbuf)) :
    ∃ x c, Memory.get m i = some x ∧ codeOf t x = some c := by
  cases hx : Memory.get m i with
  | none => exact absurd (h.symm.trans (gatherBits_of_unwritten hx)) hunwritten
  | some x =>
    cases hc : codeOf t x with
    | none => exact absurd (h.symm.trans (gatherBits_of_unknown hx hc)) hunknown
    | some c => exact ⟨x, c, rfl, hc⟩

/-- Symbols whose codes fit are gathered one after the other. -/
theorem gatherBits_of_lookedUp {xs : List Nat} {cs : List Bits} (hcs : LookedUp t xs cs) : ∀ {i : Nat} {b : Bits},
    HoldsFrom m i xs → (b ++ cs.flatten).length ≤ 8 * cap →
      gatherBits cap t m (xs.length + n) i b = gatherBits cap t m n (i + xs.length) (b ++ cs.flatten) := by
  induction hcs with
  | nil => intro i b _ _; simp
  | @cons x c xs cs hc _ ih =>
    intro i b hxs hfit
    obtain ⟨hx, hxs⟩ := holdsFrom_cons.1 hxs
    rw [List.flatten_cons, ← List.append_assoc] at hfit ⊢
    have hcode : ¬ 8 * cap < b.length + c.length := by simp only [List.length_append] at hfit; omega
    rw [List.length_cons, Nat.succ_add, gatherBits_of_code hx hc, if_neg hcode, ih hxs hfit, Nat.add_right_comm,
      Nat.add_assoc]

/-- The bits gathered are those so far and the codes of the symbols in order. -/
theorem exists_codes_of_gatherBits_ok {out : Bits} : ∀ {n i : Nat} {b : Bits}, gatherBits cap t m n i b = .ok out →
    ∃ xs cs, xs.length = n ∧ HoldsFrom m i xs ∧ LookedUp t xs cs ∧ out = b ++ cs.flatten := by
  intro n
  induction n with
  | zero =>
    intro i b h
    obtain rfl := Attempt.ok.inj h
    exact ⟨[], [], rfl, holdsFrom_nil m i, .nil, by simp⟩
  | succ n ih =>
    intro i b h
    obtain ⟨x, c, hx, hc⟩ := exists_code_of_gatherBits h nofun nofun
    rw [gatherBits_of_code hx hc] at h
    split_ifs at h
    obtain ⟨xs, cs, rfl, hxs, hcs, rfl⟩ := ih h
    exact ⟨x :: xs, c :: cs, rfl, holdsFrom_cons.2 ⟨hx, hxs⟩, .cons hc hcs, by simp⟩

/-- The gathering ends with a full output at the first symbol whose code does not fit behind the codes before it. -/
theorem exists_overflow_of_gatherBits_capacity : ∀ {n i : Nat} {b : Bits}, b.length ≤ 8 * cap →
    gatherBits cap t m n i b = .raised .capacity →
    ∃ xs cs x c, xs.length < n ∧ HoldsFrom m i (xs ++ [x]) ∧ LookedUp t xs cs ∧ codeOf t x = some c ∧
      (b ++ cs.flatten).length ≤ 8 * cap ∧ 8 * cap < (b ++ cs.flatten ++ c).length := by
  intro n
  induction n with
  | zero => intro i b _ h; cases h
  | succ n ih =>
    intro i b hb h
    obtain ⟨x, c, hx, hc⟩ := exists_code_of_gatherBits h nofun nofun
    rw [gatherBits_of_code hx hc, ← List.length_append] at h
    split_ifs at h with hfull
    · exact ⟨[], [], x, c, Nat.succ_pos n, holdsFrom_cons.2 ⟨hx, holdsFrom_nil m _⟩, .nil, hc, by simpa using hb,
        by simpa using hfull⟩
    · obtain ⟨xs, cs, y, d, hlen, hxs, hcs, hd, hfit, hover⟩ := ih (Nat.not_lt.1 hfull) h
      refine ⟨x :: xs, c :: cs, y, d, Nat.succ_lt_succ hlen, holdsFrom_cons.2 ⟨hx, hxs⟩, .cons hc hcs, hd, ?_, ?_⟩
      · rwa [List.flatten_cons, ← List.append_assoc]
      · rwa [List.flatten_cons, ← List.append_assoc]

end Gather

end Sys2Proof.Machine

namespace Sys2Proof

open Sys2Proof.Machine

/-- Settles O36: the loop's result and its capacity error, each by induction on the symbols left. -/
theorem gatheringStaysWithinCapacity : Obligations.GatheringStaysWithinCapacity := by
  unfold Obligations.GatheringStaysWithinCapacity
  intro cap table m n i b hb
  refine ⟨fun out h => ?result, fun h => ?full⟩
  case result =>
    obtain ⟨xs, cs, rfl, hxs, hcs, hout⟩ := exists_codes_of_gatherBits_ok h
    exact ⟨length_gatherBits_le hb h, xs, cs, rfl, hxs, hcs, hout⟩
  case full =>
    obtain ⟨xs, cs, x, c, hlen, hxs, hrest⟩ := exists_overflow_of_gatherBits_capacity hb h
    exact ⟨xs, cs, x, c, hlen, fun k hk => hxs k (by simpa using Nat.lt_succ_of_le hk), hrest⟩

/-! What PACK's computation comes to when its first two checks pass. -/

section Checked

variable {s : State} {table : List Entry} {xs : List Nat} {cs : List Bits}
  (hsym : s.symlen.toNat ≤ s.config.symCap) (htable : TableIs s table) (htab : table.length ≤ s.config.tabCap)
  (hwf : tableWF table = true) (hcoded : Coded table xs cs) (hfit : cs.flatten.length ≤ 8 * s.config.byteCap)

include hsym htable htab hwf

theorem packResult_eq_gatherBits :
    packResult s = gatherBits s.config.byteCap table s.symbuf s.symlen.toNat 0 [] := by
  have hsize : s.tabsize.toNat = table.length := htable.1
  rw [packResult, if_neg (by omega), readTable_eq_ok.2 htable, Attempt.andThen_ok, if_pos hwf]

include hcoded hfit

/-- PACK has gathered the codes of the first symbols, and goes on behind them. -/
theorem packResult_of_coded_append {n : Nat} (hlen : s.symlen.toNat = xs.length + n) (hxs : Holds s.symbuf xs) :
    packResult s = gatherBits s.config.byteCap table s.symbuf n xs.length cs.flatten := by
  rw [packResult_eq_gatherBits hsym htable htab hwf, hlen,
    gatherBits_of_lookedUp (lookedUp_of_coded hwf hcoded) (holdsFrom_zero.2 hxs) hfit, Nat.zero_add, List.nil_append]

theorem packResult_of_coded (hxs : SymbolsAre s xs) : packResult s = .ok cs.flatten :=
  packResult_of_coded_append hsym htable htab hwf hcoded hfit (n := 0) hxs.1 hxs.2

/-- The symbol behind those whose codes fit decides: without an entry it is unknown; with a code that does not fit, the
output is full. -/
theorem packResult_of_next {x : Nat} (hlen : xs.length < s.symlen.toNat) (hxs : Holds s.symbuf (xs ++ [x])) :
    ((∀ e ∈ table, e.sym ≠ x) → packResult s = .raised .unknownSymbol) ∧
      ∀ e ∈ table, e.sym = x → 8 * s.config.byteCap < cs.flatten.length + e.len →
        packResult s = .raised .capacity := by
  obtain ⟨hxs, hx⟩ := holdsFrom_append.1 (holdsFrom_zero.2 hxs)
  obtain ⟨hx, -⟩ := holdsFrom_cons.1 hx
  rw [Nat.zero_add] at hx
  obtain ⟨n, hn⟩ : ∃ n, s.symlen.toNat = xs.length + (n + 1) := ⟨s.symlen.toNat - xs.length - 1, by omega⟩
  rw [packResult_of_coded_append hsym htable htab hwf hcoded hfit hn (holdsFrom_zero.1 hxs)]
  refine ⟨fun hnone => gatherBits_of_unknown hx (codeOf_eq_none_iff.2 hnone), fun e he hex hover => ?_⟩
  subst hex
  rw [gatherBits_of_code hx (codeOf_sym hwf he), if_pos (by rwa [entryBits, length_bitsOf])]

end Checked

/-! What PACK leaves (43_bit_packer.md R160, R164). -/

section Packed

variable {s : State} {b : Bits} (hb : packResult s = .ok b)

include hb

theorem length_of_packResult : b.length ≤ 8 * s.config.byteCap := by
  obtain ⟨-, -, t, -, -, hg⟩ := packResult_eq_ok.1 hb
  exact length_gatherBits_le (Nat.zero_le _) hg

/-- BITLEN, a register, counts the bits BYTEBUF has room for. -/
theorem bitlen_packCommit : (packCommit s b).bitlen.toNat = b.length := by
  have hlen := length_of_packResult hb
  have hcap := s.config.byteCap_bits
  exact Nat.mod_eq_of_lt (by omega)

theorem bytelen_packCommit : (packCommit s b).bytelen.toNat = ceilDiv8 b.length := by
  have hlen := length_of_packResult hb
  have hcap := s.config.byteCap_bits
  exact Nat.mod_eq_of_lt (by rw [ceilDiv8]; omega)

theorem bytesAre_packCommit : BytesAre (packCommit s b) (packBits b) :=
  ⟨by rw [bytelen_packCommit hb, length_packBits], holds_setRange _ _⟩

/-- PACK's bits are the codes of its symbols in a well-formed table. -/
theorem exists_codes_of_packResult :
    ∃ xs table cs, SymbolsAre s xs ∧ TableIs s table ∧ tableWF table = true ∧ Coded table xs cs ∧ b = cs.flatten := by
  obtain ⟨-, -, table, htable, hwf, hg⟩ := packResult_eq_ok.1 hb
  obtain ⟨xs, cs, hlen, hxs, hcs, hbits⟩ := exists_codes_of_gatherBits_ok hg
  exact ⟨xs, table, cs, ⟨hlen.symm, holdsFrom_zero.1 hxs⟩, htable, hwf, LookedUp.coded hcs, hbits⟩

end Packed

/-- PACK's failing case (43_bit_packer.md R160, 60_exceptions.md R219). -/
theorem exec_pack_of_raised {s : State} {e : ErrorKind} (h : packResult s = .raised e) :
    ∃ t, exec .pack s = .next t ∧
      t = { s with bytebuf := t.bytebuf, bytelen := 0, bitlen := 0, symcount := 0, status := statusError e 0x05 } ∧
      Unwritten t.bytebuf :=
  ⟨_, exec_pack_eq_next.2 (.inr ⟨e, h, rfl⟩), rfl, unwritten_nil⟩

/-! The obligations. -/

/-- Settles O34: the gathered bits are the codes, and the packing is positional. -/
theorem packWritesTheCodes : Obligations.PackWritesTheCodes := by
  unfold Obligations.PackWritesTheCodes
  intro s xs table cs hxs hsym htable htab hwf hcoded hfit
  have hb := packResult_of_coded (hxs.1 ▸ hsym) htable htab hwf hcoded hfit hxs
  have hbytes := bytelen_packCommit hb
  refine ⟨_, exec_pack_eq_next.2 (.inl ⟨_, hb, rfl⟩), rfl, bitlen_packCommit hb, hbytes, fun i hi => ?_,
    sameFrom_packCommit hb⟩
  rw [setStatus_bytelen, hbytes] at hi
  obtain ⟨y, hy, hbit⟩ := exists_packed_bit hi
  obtain ⟨hk, -⟩ := List.getElem?_eq_some_iff.1 hy
  exact ⟨y, ((bytesAre_packCommit hb).2 _ hk).trans hy, hbit⟩

/-- Settles O35: the check of the lengths, and the first symbol that stops the gathering. -/
theorem packErrors : Obligations.PackErrors := by
  unfold Obligations.PackErrors
  refine ⟨fun s hlong => ?tooLong, fun s table xs cs x hsym htable htab hwf hlen hxs hcoded hfit hnone => ?unknown,
    fun s table xs cs e hsym htable htab hwf hlen hxs hcoded he hfit hover => ?full⟩
  case tooLong => exact exec_pack_of_raised (if_pos hlong)
  case unknown => exact exec_pack_of_raised ((packResult_of_next hsym htable htab hwf hcoded hfit hlen hxs).1 hnone)
  case full =>
    exact exec_pack_of_raised ((packResult_of_next hsym htable htab hwf hcoded hfit hlen hxs).2 e he rfl hover)

end Sys2Proof
end

section
/-! PROOFS. The packed length inside ENCODE (43_bit_packer.md R167): the weighted sum of the code lengths, and the input
of one symbol (obligations O49, O48). -/

namespace Sys2Proof

open Sys2Proof.Machine

/-! The weighted sum. -/

/-- Over a table with distinct symbols, one symbol more in the input weighs its own entry's length more. -/
theorem sum_count_cons_mul_len {table : List Entry} (hwf : tableWF table = true) {e : Entry} (he : e ∈ table)
    (xs : List Nat) :
    (table.map fun f => (e.sym :: xs).count f.sym * f.len).sum =
      e.len + (table.map fun f => xs.count f.sym * f.len).sum := by
  have hterm (f : Entry) : (e.sym :: xs).count f.sym * f.len =
      (if e.sym = f.sym then f.len else 0) + xs.count f.sym * f.len := by
    rw [List.count_cons, Nat.add_mul, Nat.add_comm]
    simp
  have hothers : ∀ f, f ≠ e → f ∈ table → (if e.sym = f.sym then f.len else 0) = 0 := fun f hne hf =>
    if_neg fun hsym => hne (eq_of_sym_eq hwf hf he hsym.symm)
  obtain ⟨-, -, hsym, -⟩ := tableWF_iff.1 hwf
  have honce : table.count e = 1 := List.count_eq_one_of_mem (hsym.imp fun h hef => h (congrArg _ hef)) he
  simp only [hterm, List.sum_map_add, List.sum_map_eq_nsmul_single e _ hothers, honce, one_smul, if_true]

/-- The codes of a sequence have together the sum over the table of count times length (43_bit_packer.md R167). -/
theorem length_flatten_of_coded {table : List Entry} (hwf : tableWF table = true) {xs : List Nat} {cs : List Bits}
    (h : Coded table xs cs) : cs.flatten.length = (table.map fun e => xs.count e.sym * e.len).sum := by
  induction h with
  | nil => simp
  | cons hc _ ih =>
    obtain ⟨e, he, rfl, rfl⟩ := hc
    rw [List.flatten_cons, List.length_append, ih, sum_count_cons_mul_len hwf he, entryBits, length_bitsOf]

/-- An ENCODE that succeeds leaves the tally of its input, a well-formed table, and the packed codes of the input. -/
theorem exec_encode_success {s t : State} (h : exec .encode s = .next t) (ht : t.status = 0) :
    ∃ xs table cs, SymbolsAre s xs ∧ t.freq = tally xs ∧ TableIs t table ∧ tableWF table = true ∧ Coded table xs cs ∧
      BytesAre t (packBits cs.flatten) ∧ t.bitlen.toNat = cs.flatten.length := by
  obtain ⟨e, -, rfl⟩ | ⟨f, hf, ⟨e, -, rfl⟩ | ⟨es, -, ⟨e, -, rfl⟩ | ⟨ds, -, ⟨e, -, rfl⟩ | ⟨b, hb, rfl⟩⟩⟩⟩ :=
    exec_encode_eq_next.1 h
  case inr.inr.inr.inr =>
    obtain ⟨-, -, xs, hxs, rfl⟩ := countResult_eq_ok.1 hf
    obtain ⟨ys, table, cs, hys, htable, hwf, hcoded, rfl⟩ := exists_codes_of_packResult hb
    obtain rfl := hxs.unique hys
    exact ⟨xs, table, cs, hxs, rfl, htable, hwf, hcoded, bytesAre_packCommit hb, bitlen_packCommit hb⟩
  all_goals exact absurd ht (statusError_ne_zero _ _)

/-- Settles O49: the table and the counts are those the bits were gathered with. -/
theorem encodeBitLengthIsWeighted : Obligations.EncodeBitLengthIsWeighted := by
  unfold Obligations.EncodeBitLengthIsWeighted
  intro s t table h ht htable
  obtain ⟨xs, table', cs, -, hfreq, htable', hwf, hcoded, -, hlen⟩ := exec_encode_success h ht
  obtain rfl := htable.unique htable'
  simp only [hlen, length_flatten_of_coded hwf hcoded, hfreq, freqGet_tally]

/-! The input of one symbol (43_bit_packer.md R167). -/

theorem tally_replicate (x n : Nat) : tally (List.replicate (n + 1) x) = [(x, n + 1)] := by
  induction n with
  | zero => rfl
  | succ n ih =>
    have hsnoc : tally (List.replicate (n + 1) x ++ [x]) = tallyOne (tally (List.replicate (n + 1) x)) x :=
      List.foldl_append
    rw [List.replicate_succ', hsnoc, ih]
    simp [tallyOne, freqSet, freqGet, Memory.get, Memory.set]

/-- DERIVE of BUILD's tree of one symbol makes the one-bit code "0" (42_code_table_gen.md R142). -/
theorem deriveResult_of_one_entry (s : State) (x n : Nat) :
    deriveResult (buildCommit s [(x, n)]) = .ok [(x, [false])] := by
  have hroot : Memory.get (buildCommit s [(x, n)]).node 0 = some (leafRec (x, n)) :=
    Memory.get_setRange_zero _ _ Nat.one_pos
  have htree : treeAt (buildCommit s [(x, n)]).node 1 0 = some (.leaf x n 1) :=
    treeAt_succ_eq_some.2 ⟨_, hroot, .inl ⟨rfl, rfl⟩⟩
  exact deriveResult_eq_ok.2 ⟨Nat.one_ne_zero, treeCodes_of_treeAt htree, by simp⟩

/-- The table of one symbol (42_code_table_gen.md R142). -/
def singleTable (x : Nat) : List Entry := [entryOf (x, [false])]

theorem tableWF_singleTable (x : Nat) : tableWF (singleTable x) = true :=
  tableWF_derivedTable (T := .leaf x 0 1) (by simp [codesOfTree]) (List.nodup_singleton x)

theorem coded_singleTable (x n : Nat) : Coded (singleTable x) (List.replicate n x) (List.replicate n [false]) := by
  induction n with
  | zero => exact .nil
  | succ n ih =>
    exact .cons ⟨_, List.mem_singleton_self _, rfl, (entryBits_entryOf x [false] (by decide)).symm⟩ ih

/-- PACK of copies of one symbol with that table: a 0 for each. -/
theorem packResult_of_singleTable {s : State} {x n : Nat} (htable : TableIs s (singleTable x))
    (hxs : SymbolsAre s (List.replicate n x)) (hcap : n ≤ s.config.symCap) (hfit : n ≤ 8 * s.config.byteCap) :
    packResult s = .ok (List.replicate n false) := by
  have hlen : s.symlen.toNat = n := hxs.1.trans List.length_replicate
  rw [← List.flatten_replicate_singleton]
  exact packResult_of_coded (hlen ▸ hcap) htable Nat.one_le_two_pow (tableWF_singleTable x) (coded_singleTable x n)
    (by rwa [List.flatten_replicate_singleton, List.length_replicate]) hxs

/-- ENCODE of which all four computations have a result (45_orchestration_and_control.md R195). -/
theorem exec_encode_of_ok {s : State} {f : Cells Nat} {es : List (Nat × Nat)} {cs : List (Nat × Bits)} {b : Bits}
    (hcount : countResult s = .ok f) (hbuild : buildResult (setFreq f s) = .ok es)
    (hderive : deriveResult (buildCommit (setFreq f s) es) = .ok cs)
    (hpack : packResult (deriveCommit (buildCommit (setFreq f s) es) cs) = .ok b) :
    exec .encode s = .next (setStatus statusOk (packCommit (deriveCommit (buildCommit (setFreq f s) es) cs) b)) :=
  exec_encode_eq_next.2 (.inr ⟨f, hcount, .inr ⟨es, hbuild, .inr ⟨cs, hderive, .inr ⟨b, hpack, rfl⟩⟩⟩⟩)

/-- Settles O48: the four results in turn, one entry and one bit for each copy. -/
theorem encodeOfOneSymbol : Obligations.EncodeOfOneSymbol := by
  unfold Obligations.EncodeOfOneSymbol
  intro s x n hxs hpos hcap hfit
  have hlen : s.symlen.toNat = n := hxs.1.trans List.length_replicate
  have htally : tally (List.replicate n x) = [(x, n)] := by
    obtain ⟨m, rfl⟩ : ∃ m, n = m + 1 := ⟨n - 1, by omega⟩
    exact tally_replicate x m
  have hcount : countResult s = .ok [(x, n)] := countResult_eq_ok.2 ⟨by omega, by omega, _, hxs, htally.symm⟩
  have hbuild : buildResult (setFreq [(x, n)] s) = .ok [(x, n)] :=
    buildResult_eq_ok.2 ⟨by rw [setFreq_freq, ← htally, entries_tally], List.cons_ne_nil _ _⟩
  have hderive := deriveResult_of_one_entry (setFreq [(x, n)] s) x n
  have htable : TableIs (deriveCommit (buildCommit (setFreq [(x, n)] s) [(x, n)]) [(x, [false])]) (singleTable x) :=
    tableIs_deriveCommit (Nat.one_lt_two_pow (by decide))
  have hpack := packResult_of_singleTable htable hxs hcap hfit
  have hbits := bitlen_packCommit hpack
  have hbytes := bytesAre_packCommit hpack
  rw [packBits_replicate_false] at hbytes
  obtain ⟨hbytelen, hzeros⟩ := hbytes
  rw [List.length_replicate] at hbits hbytelen
  refine ⟨_, exec_encode_of_ok hcount hbuild hderive hpack, rfl, rfl, htable.2 0 Nat.one_pos, hbits, hbytelen,
    fun k hk => ?_⟩
  have hk : k < ceilDiv8 n := hbytelen ▸ hk
  exact (hzeros k (by simpa using hk)).trans (List.getElem?_replicate_of_lt hk)

end Sys2Proof
end

section
/-! PROOFS. UNPACK: the look-up of a code, the decoding walk, what UNPACK answers, and its obligations (O38 to O41). -/

namespace Sys2Proof.Machine

/-! The look-up (42_code_table_gen.md R149). -/

theorem matchCode_eq_some {t : List Entry} {b : Bits} {x : Nat} (h : matchCode t b = some x) :
    ∃ e ∈ t, e.sym = x ∧ b = entryBits e := by
  obtain ⟨e, he, rfl⟩ := Option.map_eq_some_iff.1 h
  exact ⟨e, List.mem_of_find?_eq_some he, rfl, (by simpa using List.find?_some he : entryBits e = b).symm⟩

theorem matchCode_eq_none_iff {t : List Entry} {b : Bits} : matchCode t b = none ↔ ∀ e ∈ t, entryBits e ≠ b := by
  simp [matchCode]

/-- In a well-formed table no code is empty (42_code_table_gen.md R148). -/
theorem entryBits_ne_nil {t : List Entry} (hwf : tableWF t = true) {e : Entry} (he : e ∈ t) : entryBits e ≠ [] := by
  obtain ⟨hlen, -⟩ := tableWF_iff.1 hwf
  refine List.ne_nil_of_length_pos ?_
  rw [entryBits, length_bitsOf]
  exact (hlen e he).1

/-- In a well-formed table no entry's code begins another's (42_code_table_gen.md R148). -/
theorem eq_of_entryBits_prefix {t : List Entry} (hwf : tableWF t = true) {e f : Entry} (he : e ∈ t) (hf : f ∈ t)
    (h : entryBits e <+: entryBits f) : e = f := by
  obtain ⟨-, -, -, hfree⟩ := tableWF_iff.1 hwf
  have hsymm : Std.Symm fun e f : Entry => ¬ entryBits e <+: entryBits f ∧ ¬ entryBits f <+: entryBits e :=
    ⟨fun _ _ hef => hef.symm⟩
  by_contra hne
  exact (hfree.forall he hf hne).1 h

/-- In a well-formed table the symbol of an entry's code is the symbol of that entry. -/
theorem matchCode_entryBits {t : List Entry} (hwf : tableWF t = true) {e : Entry} (he : e ∈ t) :
    matchCode t (entryBits e) = some e.sym := by
  cases hm : matchCode t (entryBits e) with
  | none => exact absurd rfl (matchCode_eq_none_iff.1 hm e he)
  | some x =>
    obtain ⟨f, hf, rfl, hbits⟩ := matchCode_eq_some hm
    rw [eq_of_entryBits_prefix hwf he hf (hbits ▸ List.prefix_refl _)]

/-- In a well-formed table a code cut short is no code. -/
theorem matchCode_eq_none_of_proper_prefix {t : List Entry} (hwf : tableWF t = true) {e : Entry} (he : e ∈ t)
    {b u : Bits} (hbits : entryBits e = b ++ u) (hu : u ≠ []) : matchCode t b = none := by
  refine matchCode_eq_none_iff.2 fun f hf hfb => hu ?_
  obtain rfl : f = e := eq_of_entryBits_prefix hwf hf he (hfb ▸ hbits ▸ List.prefix_append b u)
  simpa [hfb] using hbits

/-- No code is longer than `maxlen(T)` (42_code_table_gen.md R149). -/
theorem length_entryBits_le_maxLen {t : List Entry} {e : Entry} (he : e ∈ t) : (entryBits e).length ≤ maxLen t := by
  have hmax : maxLen t = (t.map (·.len)).foldr max 0 := List.foldl_map.symm.trans List.foldl_eq_foldr
  rw [entryBits, length_bitsOf, hmax]
  exact List.le_max_of_le' 0 (List.mem_map_of_mem he) le_rfl

/-! The walk (44_bit_unpacker.md R177 to R180). -/

section Walk

variable {t : List Entry} {x acc : Bits} {b : Bool} {c : Nat}

@[simp] theorem decodeWalk_zero : decodeWalk t x 0 acc = some [] := by
  cases x <;> rfl

/-- The bits taken are a code: its symbol is out, and the next candidate begins (44_bit_unpacker.md R177). -/
theorem decodeWalk_of_match {s : Nat} (h : matchCode t (acc ++ [b]) = some s) :
    decodeWalk t (b :: x) (c + 1) acc = (decodeWalk t x c []).map (s :: ·) := by
  simp only [decodeWalk, h]

/-- The bits taken are no code: they are too many, or one more is taken (44_bit_unpacker.md R177, R180). -/
theorem decodeWalk_of_no_match (h : matchCode t (acc ++ [b]) = none) :
    decodeWalk t (b :: x) (c + 1) acc =
      if maxLen t < (acc ++ [b]).length then none else decodeWalk t x (c + 1) (acc ++ [b]) := by
  simp only [decodeWalk, h]

/-- The symbols of a walk that succeeds are coded in the table, and the bits begin with their codes
(44_bit_unpacker.md R177). -/
theorem exists_codes_of_decodeWalk : ∀ {x : Bits} {c : Nat} {acc : Bits} {out : List Nat},
    decodeWalk t x c acc = some out → ∃ cs rest, Coded t out cs ∧ acc ++ x = cs.flatten ++ rest := by
  intro x
  induction x with
  | nil =>
    rintro (_ | c) acc out h
    · obtain rfl := Option.some.inj h
      exact ⟨[], acc ++ [], .nil, rfl⟩
    · cases h
  | cons b x ih =>
    rintro (_ | c) acc out h
    · obtain rfl := Option.some.inj h
      exact ⟨[], acc ++ b :: x, .nil, rfl⟩
    · cases hm : matchCode t (acc ++ [b]) with
      | some s =>
        rw [decodeWalk_of_match hm] at h
        obtain ⟨out, hout, rfl⟩ := Option.map_eq_some_iff.1 h
        obtain ⟨cs, rest, hcs, hx⟩ := ih hout
        refine ⟨(acc ++ [b]) :: cs, rest, .cons (matchCode_eq_some hm) hcs, ?_⟩
        rw [List.flatten_cons, List.append_assoc, ← hx, List.append_cons, List.nil_append]
      | none =>
        rw [decodeWalk_of_no_match hm] at h
        split_ifs at h
        rw [List.append_cons]
        exact ih h

/-- From a candidate that is a code cut short the walk takes the code's other bits, and its symbol is out. -/
theorem decodeWalk_code (hwf : tableWF t = true) {e : Entry} (he : e ∈ t) {u : Bits} (hu : u ≠ []) :
    ∀ {acc : Bits}, entryBits e = acc ++ u →
      decodeWalk t (u ++ x) (c + 1) acc = (decodeWalk t x c []).map (e.sym :: ·) := by
  induction u with
  | nil => exact absurd rfl hu
  | cons b u ih =>
    intro acc hbits
    rw [List.append_cons] at hbits
    by_cases hlast : u = []
    · subst hlast
      rw [List.append_nil] at hbits
      exact decodeWalk_of_match (hbits ▸ matchCode_entryBits hwf he)
    · have hlen : (acc ++ [b]).length ≤ maxLen t :=
        (hbits ▸ List.prefix_append _ u : (acc ++ [b]) <+: entryBits e).length_le.trans (length_entryBits_le_maxLen he)
      rw [List.cons_append, decodeWalk_of_no_match (matchCode_eq_none_of_proper_prefix hwf he hbits hlast),
        if_neg hlen.not_gt]
      exact ih hlast hbits

/-- The walk over the codes of a sequence gives the sequence, whatever bits follow (44_bit_unpacker.md R178, R184). -/
theorem decodeWalk_of_coded (hwf : tableWF t = true) {xs : List Nat} {cs : List Bits} (h : Coded t xs cs)
    (rest : Bits) : decodeWalk t (cs.flatten ++ rest) xs.length [] = some xs := by
  induction h with
  | nil => exact decodeWalk_zero
  | cons hc _ ih =>
    obtain ⟨e, he, rfl, rfl⟩ := hc
    rw [List.flatten_cons, List.append_assoc, List.length_cons, decodeWalk_code hwf he (entryBits_ne_nil hwf he) rfl,
      ih, Option.map_some]

/-- The walk fails exactly where the bits do not begin with the codes of as many symbols as are asked for
(44_bit_unpacker.md R179, R180). -/
theorem decodeWalk_eq_none_iff (hwf : tableWF t = true) :
    decodeWalk t x c [] = none ↔
      ¬ ∃ xs cs rest, Coded t xs cs ∧ xs.length = c ∧ x = cs.flatten ++ rest := by
  rw [← Option.not_isSome_iff_eq_none, Option.isSome_iff_exists, not_iff_not]
  constructor
  · rintro ⟨xs, h⟩
    obtain ⟨cs, rest, hcs, hx⟩ := exists_codes_of_decodeWalk h
    exact ⟨xs, cs, rest, hcs, length_decodeWalk t _ _ _ _ h, hx⟩
  · rintro ⟨xs, cs, rest, hcs, rfl, rfl⟩
    exact ⟨xs, decodeWalk_of_coded hwf hcs rest⟩

end Walk

end Sys2Proof.Machine

namespace Sys2Proof

open Sys2Proof.Machine

/-! What UNPACK's computation comes to when its first two checks pass. -/

section Checked

variable {s : State} {table : List Entry} (hsym : s.symcount.toNat ≤ s.config.symCap) (htable : TableIs s table)
  (htab : table.length ≤ s.config.tabCap) (hwf : tableWF table = true) (hbyte : s.bytelen.toNat ≤ s.config.byteCap)

include hsym htable htab hwf hbyte

/-- Nothing is asked for (44_bit_unpacker.md R183). -/
theorem unpackResult_of_symcount_zero (hzero : s.symcount.toNat = 0) : unpackResult s = .ok [] :=
  unpackResult_eq_ok.2 ⟨hsym, htable.1 ▸ htab, hbyte, table, htable, hwf, .inl ⟨hzero, rfl⟩⟩

theorem unpackResult_of_coded {xs : List Nat} {cs : List Bits} {ys : List Byte} {rest : Bits}
    (hcount : s.symcount.toNat = xs.length) (hys : BytesAre s ys) (hcoded : Coded table xs cs)
    (hbits : unpackBits ys = cs.flatten ++ rest) : unpackResult s = .ok xs := by
  by_cases hzero : s.symcount.toNat = 0
  · obtain rfl := List.eq_nil_of_length_eq_zero (hcount.symm.trans hzero)
    exact unpackResult_of_symcount_zero hsym htable htab hwf hbyte hzero
  · have hwalk : decodeWalk table (unpackBits ys) s.symcount.toNat [] = some xs :=
      hbits ▸ hcount ▸ decodeWalk_of_coded hwf hcoded rest
    exact unpackResult_eq_ok.2 ⟨hsym, htable.1 ▸ htab, hbyte, table, htable, hwf, .inr ⟨hzero, ys, hys, hwalk⟩⟩

/-- UNPACK's third check (44_bit_unpacker.md R175): a walk that fails was asked for a symbol. -/
theorem unpackResult_of_walk_fails {ys : List Byte} (hys : BytesAre s ys)
    (hwalk : decodeWalk table (unpackBits ys) s.symcount.toNat [] = none) :
    unpackResult s = .raised .malformedCode := by
  have hsize : s.tabsize.toNat = table.length := htable.1
  have hne : s.symcount.toNat ≠ 0 := fun hzero => by simp [hzero] at hwalk
  rw [unpackResult, if_neg (by omega), readTable_eq_ok.2 htable, Attempt.andThen_ok, if_pos hwf, if_neg hne,
    readBytes_eq_ok.2 hys, Attempt.andThen_ok, hwalk]

end Checked

/-! What UNPACK leaves (44_bit_unpacker.md R175, R182). -/

section Unpacked

variable {s : State} {out : List Nat} (hout : unpackResult s = .ok out)

include hout

theorem length_of_unpackResult : out.length = s.symcount.toNat := by
  obtain ⟨-, -, -, t, -, -, ⟨hzero, rfl⟩ | ⟨-, ys, -, hw⟩⟩ := unpackResult_eq_ok.1 hout
  · exact hzero.symm
  · exact length_decodeWalk t _ _ _ _ hw

theorem symbolsAre_unpackCommit : SymbolsAre (unpackCommit s out) out :=
  ⟨(length_of_unpackResult hout).symm, holds_setRange _ _⟩

/-- UNPACK's symbols have codes in a well-formed table, and the bits, if any were asked for, begin with them. -/
theorem exists_codes_of_unpackResult :
    ∃ table cs, TableIs s table ∧ tableWF table = true ∧ Coded table out cs ∧
      (s.symcount.toNat ≠ 0 → ∃ ys rest, BytesAre s ys ∧ unpackBits ys = cs.flatten ++ rest) := by
  obtain ⟨-, -, -, table, htable, hwf, ⟨hzero, rfl⟩ | ⟨-, ys, hys, hw⟩⟩ := unpackResult_eq_ok.1 hout
  · exact ⟨table, [], htable, hwf, .nil, fun hne => absurd hzero hne⟩
  · obtain ⟨cs, rest, hcs, hbits⟩ := exists_codes_of_decodeWalk hw
    exact ⟨table, cs, htable, hwf, hcs, fun _ => ⟨ys, rest, hys, hbits⟩⟩

/-- UNPACK's completion (44_bit_unpacker.md R175). -/
theorem exec_unpack_of_ok :
    ∃ t, exec .unpack s = .next t ∧ t = { s with symbuf := t.symbuf, symlen := s.symcount, status := 0 } ∧
      SymbolsAre t out ∧ SameFrom s.symcount.toNat s.symbuf t.symbuf :=
  ⟨_, exec_unpack_eq_next.2 (.inl ⟨out, hout, rfl⟩), rfl, symbolsAre_unpackCommit hout, sameFrom_unpackCommit hout⟩

end Unpacked

/-- UNPACK's failing case (44_bit_unpacker.md R182, 60_exceptions.md R219). -/
theorem exec_unpack_of_raised {s : State} {e : ErrorKind} (h : unpackResult s = .raised e) :
    ∃ t, exec .unpack s = .next t ∧
      t = { s with symbuf := t.symbuf, symlen := 0, status := statusError e 0x06 } ∧ Unwritten t.symbuf :=
  ⟨_, exec_unpack_eq_next.2 (.inr ⟨e, h, rfl⟩), rfl, unwritten_nil⟩

/-! The obligations. -/

/-- Settles O38: the walk takes code after code and stops after the last. -/
theorem unpackReturnsTheCodedSymbols : Obligations.UnpackReturnsTheCodedSymbols := by
  unfold Obligations.UnpackReturnsTheCodedSymbols
  intro s xs table cs ys rest hcount hcap htable htab hwf hys hbyte hcoded hbits
  exact exec_unpack_of_ok
    (unpackResult_of_coded (hcount ▸ hcap) htable htab hwf (hys.1 ▸ hbyte) hcount hys hcoded hbits)

/-- Settles O39: every symbol the walk puts out has taken its own code's bits. -/
theorem unpackSuccessIsExact : Obligations.UnpackSuccessIsExact := by
  unfold Obligations.UnpackSuccessIsExact
  intro s t h ht
  obtain ⟨xs, hxs, rfl⟩ | ⟨e, -, rfl⟩ := exec_unpack_eq_next.1 h
  · obtain ⟨table, cs, htable, hwf, hcoded, hbits⟩ := exists_codes_of_unpackResult hxs
    exact ⟨table, xs, cs, htable, hwf, symbolsAre_unpackCommit hxs, length_of_unpackResult hxs, hcoded, hbits⟩
  · exact absurd ht (statusError_ne_zero e opUnpack)

/-- Settles O40: the check of the lengths, and that a walk over bits without the codes can only fail. -/
theorem unpackErrors : Obligations.UnpackErrors := by
  unfold Obligations.UnpackErrors
  refine ⟨fun s hlong => ?tooLong, fun s table ys hsym htable htab hwf hys hbyte hnone => ?fails⟩
  case tooLong => exact exec_unpack_of_raised (if_pos hlong)
  case fails =>
    exact exec_unpack_of_raised (unpackResult_of_walk_fails hsym htable htab hwf (hys.1 ▸ hbyte) hys
      ((decodeWalk_eq_none_iff hwf).2 hnone))

/-- Settles O41: with the lengths and the table passed, nothing is read and nothing is written but SYMLEN and STATUS. -/
theorem unpackOfZeroSymbols : Obligations.UnpackOfZeroSymbols := by
  unfold Obligations.UnpackOfZeroSymbols
  intro s table hzero hbyte htable htab hwf
  have hcount : s.symcount.toNat = 0 := congrArg BitVec.toNat hzero
  have hresult := unpackResult_of_symcount_zero (hcount ▸ Nat.zero_le _) htable htab hwf hbyte hcount
  obtain ⟨t, hexec, ht, -, hsame⟩ := exec_unpack_of_ok hresult
  have hsymlen := congrArg (fun n => { s with symbuf := t.symbuf, symlen := n, status := 0 }) hzero
  exact ⟨t, hexec, ht.trans hsymlen, hcount ▸ hsame⟩

end Sys2Proof
end

section
/-! PROOFS. ENCODE as a chain of commands, and the two commands that answer at once (45_orchestration_and_control.md R195,
R197; obligations O42, O44, O51). -/

namespace Sys2Proof

open Sys2Proof.Machine

/-- A primitive step alone and then what ignores STATUS is that step with the rest behind it: an error of the step shows in
STATUS, and a step without error leaves STATUS = 0 (60_exceptions.md R219). -/
theorem thenUnlessError_settle {α : Type} {op : Opcode} {r : Attempt α} {commit : α → State} {failed : State}
    {k : State → Host.Outcome State Fault Refusal} (hk : Ignores (setStatus statusOk) id k) :
    thenUnlessError (settle op r commit failed complete) k = settle op r commit failed k := by
  cases r with
  | ok a =>
    have hrest := hk (commit a)
    rw [mapNext_id, mapNext_id] at hrest
    exact (if_neg (by decide : ¬ statusErr statusOk = true)).trans hrest
  | raised e => exact if_pos (statusErr_statusError e op)
  | fault f => rfl

/-- Settles O42: each of the first three commands is a primitive step, and what follows it ignores STATUS. -/
theorem encodeIsTheFourCommands : Obligations.EncodeIsTheFourCommands := by
  unfold Obligations.EncodeIsTheFourCommands
  intro s
  have unread := unread_status statusOk
  have packIgnores := unread.settle opPack unread.pack unread.complete
  have deriveIgnores := unread.settle opDerive unread.derive packIgnores
  have buildIgnores := unread.settle opBuild unread.build deriveIgnores
  have fromDerive (s2 : State) :
      thenUnlessError (exec .derive s2) (exec .pack) = performDerive s2 fun s3 => performPack s3 complete :=
    thenUnlessError_settle packIgnores
  have fromBuild (s1 : State) :
      thenUnlessError (exec .build s1) (fun s2 => performDerive s2 fun s3 => performPack s3 complete) =
        performBuild s1 fun s2 => performDerive s2 fun s3 => performPack s3 complete :=
    thenUnlessError_settle deriveIgnores
  simp only [fromDerive, fromBuild]
  exact (thenUnlessError_settle buildIgnores).symm

/-- ENCODE of an input that COUNT does not accept ends as COUNT does (45_orchestration_and_control.md R195). -/
theorem exec_encode_of_count_raised {s : State} {e : ErrorKind} (h : countResult s = .raised e) :
    exec .encode s = .next (setStatus (statusError e opCount) (setFreq [] s)) :=
  exec_encode_eq_next.2 (.inl ⟨e, h, rfl⟩)

/-- Settles O44: COUNT's two errors, each before any other sub-step. -/
theorem encodeInputErrors : Obligations.EncodeInputErrors := by
  unfold Obligations.EncodeInputErrors
  refine ⟨fun s hempty => ?empty, fun s hlong => ?capacity⟩
  case empty =>
    exact ⟨_, exec_encode_of_count_raised (countResult_eq_raised.2 (.inr ⟨hempty, rfl⟩)), rfl, freqGet_nil⟩
  case capacity =>
    exact ⟨_, exec_encode_of_count_raised (countResult_eq_raised.2 (.inl ⟨hlong, rfl⟩)), rfl, freqGet_nil⟩

/-- Settles O51: the scrubbed state with STATUS = 0 is the reset state but for CMD and the host's side. -/
theorem clrScrubsTheBlock : Obligations.ClrScrubsTheBlock := by
  unfold Obligations.ClrScrubsTheBlock
  exact fun s => rfl

end Sys2Proof
end

section
/-! PROOFS. UNPACK directly after PACK, and so after ENCODE, gives the symbols back (44_bit_unpacker.md R178,
45_orchestration_and_control.md R199; obligations O46, O45). -/

namespace Sys2Proof

open Sys2Proof.Machine

/-- UNPACK's computation over what PACK has left: the bits are the codes, and the padding behind them is not read
(44_bit_unpacker.md R178, R184). -/
theorem unpackResult_of_packCommit {s : State} {b : Bits} {xs : List Nat} (hb : packResult s = .ok b)
    (hxs : SymbolsAre s xs) : unpackResult (setStatus statusOk (packCommit s b)) = .ok xs := by
  obtain ⟨hsym, htab, -⟩ := packResult_eq_ok.1 hb
  obtain ⟨ys, table, cs, hys, htable, hwf, hcoded, rfl⟩ := exists_codes_of_packResult hb
  obtain rfl := hxs.unique hys
  have hfit : (packCommit s cs.flatten).bytelen.toNat ≤ s.config.byteCap := by
    have hlen := length_of_packResult hb
    rw [bytelen_packCommit hb, ceilDiv8]
    omega
  exact unpackResult_of_coded (s := setStatus statusOk (packCommit s cs.flatten)) hsym htable (htable.1 ▸ htab) hwf hfit
    hxs.1 (bytesAre_packCommit hb) hcoded (unpackBits_packBits _)

/-- UNPACK directly after a PACK that has a result completes with the symbols packed. -/
theorem exec_unpack_of_packCommit {s : State} {b : Bits} {xs : List Nat} (hb : packResult s = .ok b)
    (hxs : SymbolsAre s xs) :
    ∃ u, exec .unpack (setStatus statusOk (packCommit s b)) = .next u ∧ u.status = 0 ∧ SymbolsAre u xs := by
  obtain ⟨u, hu, hframe, hsymbols, -⟩ := exec_unpack_of_ok (unpackResult_of_packCommit hb hxs)
  exact ⟨u, hu, (congrArg State.status hframe :), hsymbols⟩

/-- Settles O46: a PACK that succeeds had a result, of the symbols in SYMBUF. -/
theorem packThenUnpackIsIdentity : Obligations.PackThenUnpackIsIdentity := by
  unfold Obligations.PackThenUnpackIsIdentity
  intro s t xs hxs h ht
  obtain ⟨b, hb, rfl⟩ | ⟨e, -, rfl⟩ := exec_pack_eq_next.1 h
  · exact exec_unpack_of_packCommit hb hxs
  · exact absurd ht (statusError_ne_zero e opPack)

/-- Settles O45: ENCODE's last sub-step is PACK, and the three before it leave the symbols alone. -/
theorem encodeThenUnpackIsIdentity : Obligations.EncodeThenUnpackIsIdentity := by
  unfold Obligations.EncodeThenUnpackIsIdentity
  intro s t xs hxs h ht
  obtain ⟨e, -, rfl⟩ | ⟨f, -, ⟨e, -, rfl⟩ | ⟨es, -, ⟨e, -, rfl⟩ | ⟨cs, -, ⟨e, -, rfl⟩ | ⟨b, hb, rfl⟩⟩⟩⟩ :=
    exec_encode_eq_next.1 h
  case inr.inr.inr.inr => exact exec_unpack_of_packCommit hb hxs
  all_goals exact absurd ht (statusError_ne_zero _ _)

end Sys2Proof
end

section
/-! PROOFS. When the commands fault, and that from a state that meets the invariant and whose valid regions are written
every command answers (60_exceptions.md R227; obligation O57). -/

namespace Sys2Proof

open Sys2Proof.Machine

/-! What each command's computation comes to when it faults. -/

theorem readTable_eq_fault {s : State} {f : Fault} :
    readTable s = .fault f ↔ f = .unwrittenCell .codetab ∧ ∃ k < s.tabsize.toNat, Memory.get s.codetab k = none := by
  simp only [readTable, readRegion_eq_fault, Nat.zero_add]

theorem readBytes_eq_fault {s : State} {f : Fault} :
    readBytes s = .fault f ↔ f = .unwrittenCell .bytebuf ∧ ∃ k < s.bytelen.toNat, Memory.get s.bytebuf k = none := by
  simp only [readBytes, readRegion_eq_fault, Nat.zero_add]

/-- The gathering of bits faults only at an unwritten symbol (43_bit_packer.md R160). -/
theorem gatherBits_fault {cap : Nat} {t : List Entry} {m : Cells Nat} {f : Fault} {n : Nat} : ∀ {i : Nat} {b : Bits},
    gatherBits cap t m n i b = .fault f → f = .unwrittenCell .symbuf ∧ ∃ k < n, Memory.get m (i + k) = none := by
  induction n with
  | zero => intro i b h; cases h
  | succ n ih =>
    intro i b h
    cases hx : Memory.get m i with
    | none =>
      rw [gatherBits_of_unwritten hx] at h
      exact ⟨(Attempt.fault.inj h).symm, 0, Nat.succ_pos n, hx⟩
    | some x =>
      cases hc : codeOf t x with
      | none => rw [gatherBits_of_unknown hx hc] at h; cases h
      | some c =>
        rw [gatherBits_of_code hx hc] at h
        split_ifs at h
        obtain ⟨hf, k, hk, hnone⟩ := ih h
        exact ⟨hf, k + 1, Nat.succ_lt_succ hk, by rwa [Nat.add_right_comm, Nat.add_assoc] at hnone⟩

/-- PACK faults only at an unwritten entry or an unwritten symbol, the lengths being within the capacities. -/
theorem packResult_fault {s : State} {f : Fault} (h : packResult s = .fault f) :
    (s.tabsize.toNat ≤ s.config.tabCap ∧ f = .unwrittenCell .codetab ∧
        ∃ k < s.tabsize.toNat, Memory.get s.codetab k = none) ∨
      (s.symlen.toNat ≤ s.config.symCap ∧ f = .unwrittenCell .symbuf ∧
        ∃ k < s.symlen.toNat, Memory.get s.symbuf k = none) := by
  rw [packResult] at h
  split_ifs at h with hlong
  obtain ⟨hsym, htab⟩ := not_or.1 hlong
  obtain hread | ⟨t, -, hrest⟩ := Attempt.andThen_eq_fault.1 h
  · exact .inl ⟨Nat.not_lt.1 htab, readTable_eq_fault.1 hread⟩
  · split_ifs at hrest
    obtain ⟨hf, k, hk, hnone⟩ := gatherBits_fault hrest
    exact .inr ⟨Nat.not_lt.1 hsym, hf, k, hk, by rwa [Nat.zero_add] at hnone⟩

/-- UNPACK faults only at an unwritten entry or an unwritten byte, the lengths being within the capacities. -/
theorem unpackResult_fault {s : State} {f : Fault} (h : unpackResult s = .fault f) :
    (s.tabsize.toNat ≤ s.config.tabCap ∧ f = .unwrittenCell .codetab ∧
        ∃ k < s.tabsize.toNat, Memory.get s.codetab k = none) ∨
      (s.bytelen.toNat ≤ s.config.byteCap ∧ f = .unwrittenCell .bytebuf ∧
        ∃ k < s.bytelen.toNat, Memory.get s.bytebuf k = none) := by
  by_cases hlong : s.config.symCap < s.symcount.toNat ∨ s.config.tabCap < s.tabsize.toNat ∨
      s.config.byteCap < s.bytelen.toNat
  · rw [unpackResult, if_pos hlong] at h
    cases h
  rw [unpackResult, if_neg hlong] at h
  obtain ⟨-, htab, hbyte⟩ : _ ∧ s.tabsize.toNat ≤ s.config.tabCap ∧ s.bytelen.toNat ≤ s.config.byteCap := by
    simpa only [not_or, Nat.not_lt] using hlong
  obtain hread | ⟨t, -, hrest⟩ := Attempt.andThen_eq_fault.1 h
  · exact .inl ⟨htab, readTable_eq_fault.1 hread⟩
  · split_ifs at hrest
    obtain hread | ⟨ys, -, hwalk⟩ := Attempt.andThen_eq_fault.1 hrest
    · exact .inr ⟨hbyte, readBytes_eq_fault.1 hread⟩
    · split at hwalk <;> cases hwalk

/-- DERIVE never faults where the invariant holds: NODE is a tree wherever NODECNT says so (log entry 5). -/
theorem Inv.deriveResult_ne_fault {s : State} (h : Inv s) (f : Fault) : deriveResult s ≠ .fault f := by
  rw [deriveResult]
  split_ifs with hcnt
  · exact nofun
  · obtain ⟨T, hT, -⟩ := (h.tree.resolve_left hcnt).whole
    rw [treeCodes_of_heldTree hT, Attempt.andThen_ok]
    split_ifs <;> exact nofun

/-! The commands answer. -/

/-- From every state that meets the invariant and whose valid regions are written `k` answers a next state. -/
def AlwaysAnswers (k : State → Host.Outcome State Fault Refusal) : Prop :=
  ∀ s, Inv s → RegionsWritten s → ∃ t, k s = .next t

theorem complete_alwaysAnswers : AlwaysAnswers complete := fun _ _ _ => ⟨_, rfl⟩

/-- A primitive step answers when its computation does not fault and, on a result, the rest answers. -/
theorem settle_answers {α : Type} {op : Opcode} {r : Attempt α} {commit : α → State} {failed : State}
    {k : State → Host.Outcome State Fault Refusal} (hr : ∀ f, r ≠ .fault f)
    (hk : ∀ a, r = .ok a → ∃ t, k (commit a) = .next t) : ∃ t, settle op r commit failed k = .next t := by
  cases r with
  | ok a => exact hk a rfl
  | raised e => exact ⟨_, rfl⟩
  | fault f => exact absurd rfl (hr f)

/-- No cell of a written region is unwritten. -/
theorem not_exists_unwritten {α : Type} {m : Cells α} {n cap : Nat}
    (h : n ≤ cap → ∀ k < n, (Memory.get m k).isSome = true) (hcap : n ≤ cap) : ¬ ∃ k < n, Memory.get m k = none := by
  rintro ⟨k, hk, hnone⟩
  have hsome := h hcap k hk
  rw [hnone] at hsome
  cases hsome

/-- The cells that hold a sequence are written. -/
theorem isSome_of_holds {α : Type} {m : Cells α} {xs : List α} (h : Holds m xs) :
    ∀ k < xs.length, (Memory.get m k).isSome = true := by
  intro k hk
  rw [h k hk, List.getElem?_eq_getElem hk]
  rfl

section Answers

variable {k : State → Host.Outcome State Fault Refusal} (hk : AlwaysAnswers k)

include hk

theorem performCount_alwaysAnswers : AlwaysAnswers fun s => performCount s k := by
  intro s h hwritten
  refine settle_answers (fun f hf => ?_) fun f hf => hk _ (h.countWrites hf) hwritten
  obtain ⟨hcap, -, hnone⟩ := countResult_eq_fault.1 hf
  exact not_exists_unwritten hwritten.1 hcap hnone

theorem performBuild_alwaysAnswers : AlwaysAnswers fun s => performBuild s k := fun s h hwritten =>
  settle_answers (buildResult_ne_fault s) fun _ hes => hk _ (h.buildWrites hes) hwritten

/-- DERIVE's own table is written (42_code_table_gen.md R140). -/
theorem performDerive_alwaysAnswers : AlwaysAnswers fun s => performDerive s k := by
  rintro s h ⟨hsym, -, hbyte⟩
  refine settle_answers h.deriveResult_ne_fault fun cs hcs => hk _ (h.deriveWrites hcs) ⟨hsym, fun _ => ?_, hbyte⟩
  have htree := h.tree.resolve_left (deriveResult_eq_ok.1 hcs).1
  obtain ⟨hsize, hholds⟩ : TableIs (deriveCommit s cs) (cs.map entryOf) :=
    tableIs_deriveCommit (length_of_deriveResult htree hcs ▸ s.nleaf.isLt)
  rw [hsize]
  exact isSome_of_holds hholds

end Answers

theorem execPack_alwaysAnswers : AlwaysAnswers execPack := by
  rintro s _ ⟨hsym, htab, -⟩
  refine settle_answers (fun f hf => ?_) fun _ _ => ⟨_, rfl⟩
  obtain ⟨hcap, -, hnone⟩ | ⟨hcap, -, hnone⟩ := packResult_fault hf
  · exact not_exists_unwritten htab hcap hnone
  · exact not_exists_unwritten hsym hcap hnone

theorem execUnpack_alwaysAnswers : AlwaysAnswers execUnpack := by
  rintro s _ ⟨-, htab, hbyte⟩
  refine settle_answers (fun f hf => ?_) fun _ _ => ⟨_, rfl⟩
  obtain ⟨hcap, -, hnone⟩ | ⟨hcap, -, hnone⟩ := unpackResult_fault hf
  · exact not_exists_unwritten htab hcap hnone
  · exact not_exists_unwritten hbyte hcap hnone

/-- Settles O57: no command's computation faults there, and ENCODE's sub-steps keep the invariant and leave what the next
one reads written. -/
theorem commandsAlwaysAnswer : Obligations.CommandsAlwaysAnswer := by
  unfold Obligations.CommandsAlwaysAnswer
  intro i
  cases i with
  | clr => exact fun s _ _ => ⟨_, rfl⟩
  | count => exact performCount_alwaysAnswers complete_alwaysAnswers
  | build => exact performBuild_alwaysAnswers complete_alwaysAnswers
  | derive => exact performDerive_alwaysAnswers complete_alwaysAnswers
  | pack => exact execPack_alwaysAnswers
  | unpack => exact execUnpack_alwaysAnswers
  | encode =>
    exact performCount_alwaysAnswers (performBuild_alwaysAnswers (performDerive_alwaysAnswers execPack_alwaysAnswers))

end Sys2Proof
end

section
/-! PROOFS. The depth of a Huffman tree: a node of depth `d` weighs at least the Fibonacci number of `d + 1`, because each
merge takes the two lightest nodes. So a tree that weighs at most 65536 gives no code longer than LEN_MAX
(45_orchestration_and_control.md R195). -/

namespace Sys2Proof.Machine

/-- The weights of the working collection bound its depths: every node weighs at least the Fibonacci number of its own
depth and one more, and at least that of every other node's depth. -/
structure FibBounded (w : List Live) : Prop where
  own : ∀ x ∈ w, Nat.fib (x.2.depth + 1) ≤ x.2.weight
  other : ∀ x ∈ w, ∀ y ∈ w, Nat.fib x.2.depth ≤ y.2.weight

/-- Leaves have depth 1 and weigh at least 1. -/
theorem fibBounded_leaves {es : List (Nat × Nat)} (hpos : ∀ e ∈ es, e.2 ≠ 0) :
    FibBounded (numbered 0 (es.map leafRec)) := by
  have leaf : ∀ x ∈ numbered 0 (es.map leafRec), x.2.depth = 1 ∧ 1 ≤ x.2.weight := by
    intro x hx
    obtain ⟨hk, hr⟩ := leaf_of_mem_numbered hx
    rw [hr]
    exact ⟨rfl, Nat.one_le_iff_ne_zero.2 (hpos _ (List.getElem_mem hk))⟩
  refine ⟨fun x hx => ?_, fun x hx y hy => ?_⟩
  · obtain ⟨hdepth, hweight⟩ := leaf x hx
    rwa [hdepth]
  · rw [(leaf x hx).1]
    exact (leaf y hy).2

/-- The step of the bound: a branch over `p` and `q` weighs what the deeper child's own bound and the other child's bound
for the deeper one's depth add up to. -/
theorem fib_le_weight_branchRec {p q : Live} (hp : Nat.fib (p.2.depth + 1) ≤ p.2.weight)
    (hq : Nat.fib (q.2.depth + 1) ≤ q.2.weight) (hpq : Nat.fib p.2.depth ≤ q.2.weight)
    (hqp : Nat.fib q.2.depth ≤ p.2.weight) :
    Nat.fib ((branchRec p q).depth + 1) ≤ (branchRec p q).weight := by
  show Nat.fib (max p.2.depth q.2.depth + 2) ≤ p.2.weight + q.2.weight
  rw [Nat.fib_add_two]
  rcases Nat.le_total p.2.depth q.2.depth with hle | hle
  · rw [Nat.max_eq_right hle]; omega
  · rw [Nat.max_eq_left hle]; omega

/-- A merge of the two lightest keeps the bound: the nodes left are not lighter than the two taken, which outweigh the
Fibonacci number of the branch's depth. -/
theorem FibBounded.merge {w rest : List Live} {q p : Live} (B : FibBounded w) (L : LightestTwo w q p rest) (next : Nat) :
    FibBounded ((next, branchRec p q) :: rest) := by
  have hq : q ∈ w := L.perm.subset (by simp)
  have hp : p ∈ w := L.perm.subset (by simp)
  have hrest : ∀ x ∈ rest, x ∈ w := fun x hx => L.perm.subset (by simp [hx])
  have hown := fib_le_weight_branchRec (B.own p hp) (B.own q hq) (B.other p hp q hq) (B.other q hq p hp)
  have hbranch : ∀ y ∈ rest, Nat.fib (branchRec p q).depth ≤ y.2.weight := by
    intro y hy
    have hpy := weight_le_of_not_lighter (L.second y hy)
    have hqy := weight_le_of_not_lighter (L.first y (List.mem_cons_of_mem _ hy))
    show Nat.fib (max p.2.depth q.2.depth + 1) ≤ y.2.weight
    rcases Nat.le_total p.2.depth q.2.depth with hle | hle
    · rw [Nat.max_eq_right hle]; exact (B.own q hq).trans hqy
    · rw [Nat.max_eq_left hle]; exact (B.own p hp).trans hpy
  have hnew : ∀ x ∈ rest, Nat.fib x.2.depth ≤ (branchRec p q).weight := fun x hx =>
    (B.other x (hrest x hx) p hp).trans (Nat.le_add_right _ _)
  constructor
  · exact List.forall_mem_cons.2 ⟨hown, fun x hx => B.own x (hrest x hx)⟩
  · refine List.forall_mem_cons.2 ⟨List.forall_mem_cons.2 ⟨Nat.fib_le_fib_succ.trans hown, hbranch⟩, fun x hx => ?_⟩
    exact List.forall_mem_cons.2 ⟨hnew x hx, fun y hy => B.other x (hrest x hx) y (hrest y hy)⟩

/-- The forest during BUILD with the bound on its depths. -/
structure FibForest (nodes : Cells NodeRec) (keys : List Nat) (next : Nat) (w : List Live) : Prop where
  forest : Forest nodes keys next w
  bounded : FibBounded w

theorem fibForest_keptByLightest {nodes : Cells NodeRec} {keys : List Nat} (hkeys : keys.Nodup) :
    KeptByLightest nodes (FibForest nodes keys) := fun next w q p rest F L g =>
  ⟨(forest_keptByMerge hkeys).keptByLightest next w q p rest F.forest L g, F.bounded.merge L next⟩

/-- THE DEPTH BOUND for the tree BUILD makes from entries with rising symbols and nonzero counts. -/
theorem fib_le_treeWeight_of_treeNodes {nodes : Cells NodeRec} {es : List (Nat × Nat)} (hne : es ≠ [])
    (hrise : Memory.rising es = true) (hpos : ∀ e ∈ es, e.2 ≠ 0) (hh : Holds nodes (treeNodes es)) {T : CodeTree}
    (hT : treeAt nodes (2 * es.length - 1) (2 * es.length - 1 - 1) = some T) :
    Nat.fib (treeDepth T + 1) ≤ treeWeight T := by
  obtain ⟨root, F⟩ := treeNodes_keeps hne hh ⟨forest_leaves hne hh hpos, fibBounded_leaves hpos⟩
    (fibForest_keptByLightest (Memory.nodup_indexes hrise))
  obtain ⟨R, hR⟩ := F.forest.stands root List.mem_cons_self
  have hroot : 2 * es.length - 1 - 1 = root.1 := by simpa using F.forest.newest
  obtain ⟨r, hr, hweight, hdepth⟩ := record_of_treeAt hT
  obtain rfl : root.2 = r := Option.some.inj (hR.record.symm.trans (hroot ▸ hr))
  rw [hweight, hdepth]
  exact F.bounded.own root List.mem_cons_self

/-- No code is longer than the tree is high, but for the one-bit code of a single leaf (42_code_table_gen.md R141, R142). -/
theorem length_le_of_mem_codesOfTree {T : CodeTree} : ∀ c ∈ codesOfTree T, c.2.length ≤ max 1 (treeHeight T) := by
  have below (U : CodeTree) : ∀ b : Bits, ∀ c ∈ pathCodes b U, c.2.length ≤ b.length + treeHeight U := by
    induction U with
    | leaf => intro b c hc; rw [List.mem_singleton.1 hc]; exact Nat.le_add_right _ _
    | branch _ _ l u hl hu =>
      intro b c hc
      rw [treeHeight]
      rcases (List.mem_append.1 hc).imp (hl _ c) (hu _ c) with hlen | hlen <;>
        rw [List.length_append, List.length_singleton] at hlen <;> omega
  cases T with
  | leaf => intro c hc; rw [List.mem_singleton.1 hc]; exact Nat.le_max_left _ _
  | branch =>
    intro c hc
    have hlen := below _ [] c hc
    rw [List.length_nil, Nat.zero_add] at hlen
    exact hlen.trans (Nat.le_max_right _ _)

/-- A tree that obeys the depth bound and weighs at most 65536 gives no code longer than LEN_MAX: the Fibonacci number of 35
is larger. -/
theorem codes_fit_of_fib_le {T : CodeTree} (hfib : Nat.fib (treeHeight T + 2) ≤ 65536) :
    ∀ c ∈ codesOfTree T, c.2.length ≤ Config.lenMax := by
  have hheight : treeHeight T ≤ 32 := by
    by_contra hdeep
    have hmono : Nat.fib 35 ≤ Nat.fib (treeHeight T + 2) := Nat.fib_mono (by omega)
    have h35 : Nat.fib 35 = 9227465 := by norm_num
    omega
  exact fun c hc => (length_le_of_mem_codesOfTree c hc).trans (Nat.max_le.2 ⟨by decide, hheight⟩)

end Sys2Proof.Machine
end

section
/-! PROOFS. The tree as a function of the entries, and the tally as a function of what is counted: on these two ENCODE's
table rests (41_huffman_tree_builder.md R129, 45_orchestration_and_control.md R199). -/

namespace Sys2Proof.Machine

/-! The tally (40_symbol_freq_counter.md R110, R112). -/

/-- The tally lists exactly the symbols that occur, each with the number of its occurrences. -/
theorem mem_tally_iff {xs : List Nat} {e : Nat × Nat} : e ∈ tally xs ↔ xs.count e.1 = e.2 ∧ e.2 ≠ 0 := by
  have hget := Memory.get_of_mem (rising_tally xs) (i := e.1) (v := e.2)
  have hcount := freqGet_tally xs e.1
  rw [freqGet] at hcount
  constructor
  · intro he
    rw [hget.1 he] at hcount
    exact ⟨hcount.symm, ne_zero_of_mem_tally xs e he⟩
  · rintro ⟨hoccurs, hne⟩
    cases hv : Memory.get (tally xs) e.1 with
    | none => rw [hv, hoccurs] at hcount; exact absurd hcount.symm hne
    | some v =>
      rw [hv, hoccurs] at hcount
      exact hget.2 (hv.trans (congrArg some hcount))

/-- The order of the input does not matter to its tally: a list with rising indexes is determined by its cells. -/
theorem tally_eq_of_perm {xs ys : List Nat} (h : xs.Perm ys) : tally xs = tally ys := by
  have hirrefl : Std.Irrefl fun a b : Nat × Nat => a.1 < b.1 := ⟨fun a => Nat.lt_irrefl a.1⟩
  have hantisymm : Std.Antisymm fun a b : Nat × Nat => a.1 < b.1 := ⟨fun a b hab hba => absurd hab (Nat.lt_asymm hba)⟩
  have rises (zs : List Nat) := Memory.rising_iff_pairwise.1 (rising_tally zs)
  exact (rises xs).eq_of_mem_iff (rises ys) fun e => by rw [mem_tally_iff, mem_tally_iff, h.count_eq]

/-- The symbols listed are those of the input. -/
theorem toFinset_tally (xs : List Nat) : ((tally xs).map Prod.fst).toFinset = xs.toFinset := by
  ext x
  rw [List.mem_toFinset, List.mem_toFinset, List.mem_map]
  constructor
  · rintro ⟨e, he, rfl⟩
    obtain ⟨hcount, hne⟩ := mem_tally_iff.1 he
    exact List.count_pos_iff.1 (hcount ▸ Nat.pos_of_ne_zero hne)
  · intro hx
    exact ⟨(x, xs.count x), mem_tally_iff.2 ⟨rfl, (List.count_pos_iff.2 hx).ne'⟩, rfl⟩

theorem length_tally (xs : List Nat) : (tally xs).length = xs.toFinset.card := by
  rw [← toFinset_tally, List.toFinset_card_of_nodup (Memory.nodup_indexes (rising_tally xs)), List.length_map]

theorem tally_ne_nil {xs : List Nat} (h : xs ≠ []) : tally xs ≠ [] := by
  rw [← List.length_pos_iff, length_tally, Finset.card_pos, List.toFinset_nonempty_iff]
  exact h

/-- The occurrences of all symbols are together the input. -/
theorem sum_count_tally (xs : List Nat) : (((tally xs).map Prod.fst).map fun x => xs.count x).sum = xs.length := by
  rw [← List.sum_toFinset _ (Memory.nodup_indexes (rising_tally xs)), toFinset_tally, List.sum_toFinset_count_eq_length]

/-! The tree of the entries. -/

/-- The tree that stands at an index stands there in every memory that holds what this one holds. -/
theorem treeAt_of_extends {nodes nodes' : Cells NodeRec}
    (hext : ∀ k r, Memory.get nodes k = some r → Memory.get nodes' k = some r) {d : Nat} : ∀ {k : Nat} {T : CodeTree},
    treeAt nodes d k = some T → treeAt nodes' d k = some T := by
  induction d with
  | zero => intro k T h; simp [treeAt] at h
  | succ d ih =>
    intro k T h
    obtain ⟨r, hr, hleaf | ⟨hk, l, u, hl, hu, hT⟩⟩ := treeAt_succ_eq_some.1 h
    · exact treeAt_succ_eq_some.2 ⟨r, hext k r hr, .inl hleaf⟩
    · exact treeAt_succ_eq_some.2 ⟨r, hext k r hr, .inr ⟨hk, l, u, ih hl, ih hu, hT⟩⟩

/-- The tree of some entries: the one BUILD's records of them make where nothing else is written. -/
def treeOf (es : List (Nat × Nat)) : Option CodeTree :=
  treeAt (Memory.setRange [] 0 (treeNodes es)) (2 * es.length - 1) (2 * es.length - 1 - 1)

/-- It stands in every memory that holds those records. -/
theorem treeAt_of_holds {nodes : Cells NodeRec} {es : List (Nat × Nat)} {T : CodeTree} (hT : treeOf es = some T)
    (hh : Holds nodes (treeNodes es)) : treeAt nodes (2 * es.length - 1) (2 * es.length - 1 - 1) = some T := by
  refine treeAt_of_extends (fun k r hr => ?_) hT
  by_cases hk : k < (treeNodes es).length
  · rw [hh k hk, ← holds_setRange [] (treeNodes es) k hk, hr]
  · rw [Memory.get_setRange_beyond [] _ (Nat.not_lt.1 hk)] at hr
    cases hr

/-- BUILD leaves it as the tree held, when NODECNT can count its records. -/
theorem heldTree_buildCommit (s : State) {es : List (Nat × Nat)} {T : CodeTree} (hT : treeOf es = some T)
    (hlen : 2 * es.length - 1 < 2 ^ 32) : heldTree (buildCommit s es) = some T := by
  have hcnt : (buildCommit s es).nodecnt.toNat = 2 * es.length - 1 := Nat.mod_eq_of_lt hlen
  rw [heldTree_eq_some, hcnt]
  exact treeAt_of_holds hT (holds_setRange s.node _)

/-! The tree of a tally. -/

section Tallied

variable {xs : List Nat} {T : CodeTree}

/-- The input has a tree: of its symbols, with right fields for its counts. -/
theorem exists_treeOf_tally (hxs : xs ≠ []) :
    ∃ T, treeOf (tally xs) = some T ∧ (treeSymbols T).Perm ((tally xs).map Prod.fst) ∧
      treeFieldsRight (fun x => xs.count x) T = true := by
  obtain ⟨T, hT, hsym, hfields, -⟩ := tree_of_treeNodes (count := fun x => xs.count x) (tally_ne_nil hxs)
    (rising_tally xs) (ne_zero_of_mem_tally xs) (fun e he => (mem_tally_iff.1 he).1.symm) (holds_setRange [] _)
  exact ⟨T, hT, hsym, hfields⟩

variable (hxs : xs ≠ []) (hT : treeOf (tally xs) = some T)

include hxs hT

theorem treeSymbols_of_tally : (treeSymbols T).Perm ((tally xs).map Prod.fst) := by
  obtain ⟨T', hT', hsym, -⟩ := exists_treeOf_tally hxs
  obtain rfl : T' = T := Option.some.inj (hT'.symm.trans hT)
  exact hsym

/-- The input has one code per symbol that occurs. -/
theorem length_codesOfTree_of_tally : (codesOfTree T).length = (tally xs).length := by
  rw [length_codesOfTree, (treeSymbols_of_tally hxs hT).length_eq, List.length_map]

/-- Its weight is the length of the input, which so bounds its height. -/
theorem fib_treeHeight_le_length : Nat.fib (treeHeight T + 2) ≤ xs.length := by
  obtain ⟨T', hT', hsym, hfields⟩ := exists_treeOf_tally hxs
  obtain rfl : T' = T := Option.some.inj (hT'.symm.trans hT)
  have hfib := fib_le_treeWeight_of_treeNodes (tally_ne_nil hxs) (rising_tally xs) (ne_zero_of_mem_tally xs)
    (holds_setRange [] _) hT
  rwa [treeDepth_eq_treeHeight_succ T' hfields, treeWeight_eq_sum T' hfields, (hsym.map _).sum_eq, sum_count_tally]
    at hfib

/-- No tree over the same symbols has a smaller weighted path length (41_huffman_tree_builder.md R128 (f)). -/
theorem pathCost_le_of_tally {U : CodeTree} (hU : (treeSymbols U).Perm ((tally xs).map Prod.fst)) :
    pathCost (fun x => xs.count x) 0 T ≤ pathCost (fun x => xs.count x) 0 U :=
  pathCost_le_of_treeNodes (tally_ne_nil hxs) (rising_tally xs) (ne_zero_of_mem_tally xs)
    (fun _ he => (mem_tally_iff.1 he).1.symm) (holds_setRange [] _) hT hU

end Tallied

end Sys2Proof.Machine
end

section
/-! PROOFS. ENCODE's tree and table, and that ENCODE completes (45_orchestration_and_control.md R195, R199; obligations O47,
O43). -/

namespace Sys2Proof

open Sys2Proof.Machine

/-! The tree inside ENCODE. -/

/-- NODECNT and TABSIZE can count what ENCODE makes of at most `SYM_CAP` symbols (00_scope.md R6). -/
theorem two_mul_length_tally_lt {c : Params} {xs : List Nat} (hcap : xs.length ≤ c.symCap) :
    2 * (tally xs).length - 1 < 2 ^ 32 := by
  have htally := length_tally_le xs
  have hbits : c.symCap * 32 < 2 ^ 32 := c.symCap_bits
  omega

/-- An ENCODE that succeeds had an input, counted its symbols in NLEAF, and left the table of the tally's tree. -/
theorem exec_encode_tree {s t : State} {xs : List Nat} (hxs : SymbolsAre s xs) (h : exec .encode s = .next t)
    (ht : t.status = 0) :
    xs ≠ [] ∧ t.nleaf.toNat = (tally xs).length ∧ t.symcount = s.symlen ∧
      ∃ T, treeOf (tally xs) = some T ∧ TableIs t ((codesOfTree T).map entryOf) := by
  obtain ⟨e, -, rfl⟩ | ⟨f, hf, ⟨e, -, rfl⟩ | ⟨es, hes, ⟨e, -, rfl⟩ | ⟨cs, hcs, ⟨e, -, rfl⟩ | ⟨b, -, rfl⟩⟩⟩⟩ :=
    exec_encode_eq_next.1 h
  case inr.inr.inr.inr =>
    obtain ⟨hcap, hpos, ys, hys, rfl⟩ := countResult_eq_ok.1 hf
    obtain rfl := hxs.unique hys
    obtain rfl : es = tally xs := (buildResult_eq_ok.1 hes).1.trans (entries_tally xs)
    have hne : xs ≠ [] := List.ne_nil_of_length_pos (hxs.1 ▸ Nat.pos_of_ne_zero hpos)
    have hlen := two_mul_length_tally_lt (c := s.config) (hxs.1 ▸ hcap)
    obtain ⟨T, hT, -⟩ := exists_treeOf_tally hne
    have hheld := heldTree_buildCommit (setFreq (tally xs) s) hT hlen
    obtain ⟨-, hcodes, -⟩ := deriveResult_eq_ok.1 hcs
    obtain rfl : codesOfTree T = cs := Attempt.ok.inj ((treeCodes_of_heldTree hheld).symm.trans hcodes)
    have hcount := length_codesOfTree_of_tally hne hT
    exact ⟨hne, Nat.mod_eq_of_lt (by omega), rfl, T, hT, tableIs_deriveCommit (by omega)⟩
  all_goals exact absurd ht (statusError_ne_zero _ _)

/-- BYTELEN counts the bytes of BITLEN bits after an ENCODE that succeeds (43_bit_packer.md R164). -/
theorem bytelen_of_exec_encode {s t : State} (h : exec .encode s = .next t) (ht : t.status = 0) :
    t.bytelen.toNat = ceilDiv8 t.bitlen.toNat := by
  obtain ⟨xs, table, cs, -, -, -, -, -, ⟨hbytes, -⟩, hbits⟩ := exec_encode_success h ht
  rw [hbytes, length_packBits, hbits]

/-- BITLEN after an ENCODE that succeeds: over the codes of the tally's tree the sum of count times length
(43_bit_packer.md R167). -/
theorem bitlen_of_exec_encode {s t : State} {xs : List Nat} {T : CodeTree} (hxs : SymbolsAre s xs)
    (h : exec .encode s = .next t) (ht : t.status = 0) (htable : TableIs t ((codesOfTree T).map entryOf)) :
    t.bitlen.toNat = ((codesOfTree T).map fun c => xs.count c.1 * c.2.length).sum := by
  obtain ⟨ys, table, cs, hys, -, htable', hwf, hcoded, -, hbits⟩ := exec_encode_success h ht
  obtain rfl := hxs.unique hys
  obtain rfl := htable.unique htable'
  rw [hbits, length_flatten_of_coded hwf hcoded, List.map_map]
  rfl

theorem freq_of_exec_encode {s t : State} {xs : List Nat} (hxs : SymbolsAre s xs) (h : exec .encode s = .next t)
    (ht : t.status = 0) : t.freq = tally xs := by
  obtain ⟨ys, table, cs, hys, hfreq, -⟩ := exec_encode_success h ht
  rw [hfreq, hxs.unique hys]

/-- Settles O47: the tally does not depend on the order, and on it alone rest the tree, the table and the lengths. -/
theorem encodeTableIgnoresOrder : Obligations.EncodeTableIgnoresOrder := by
  unfold Obligations.EncodeTableIgnoresOrder
  intro s s' t t' xs ys hxs hys hperm h h' ht ht'
  have htally := tally_eq_of_perm hperm
  obtain ⟨-, hleaf, hsyms, T, hT, htable⟩ := exec_encode_tree hxs h ht
  obtain ⟨-, hleaf', hsyms', T', hT', htable'⟩ := exec_encode_tree hys h' ht'
  rw [← htally] at hleaf' hT'
  obtain rfl : T = T' := Option.some.inj (hT.symm.trans hT')
  have hbits : t.bitlen = t'.bitlen := BitVec.eq_of_toNat_eq <| by
    simp only [bitlen_of_exec_encode hxs h ht htable, bitlen_of_exec_encode hys h' ht' htable', hperm.count_eq]
  refine ⟨fun k => ?counts, BitVec.eq_of_toNat_eq (hleaf.trans hleaf'.symm),
    BitVec.eq_of_toNat_eq (htable.1.trans htable'.1.symm), fun k hk => ?entries, hbits, ?bytes, ?symbols⟩
  case counts => rw [freq_of_exec_encode hxs h ht, freq_of_exec_encode hys h' ht', htally]
  case entries =>
    rw [htable.1] at hk
    rw [htable.2 k hk, htable'.2 k hk]
  case bytes =>
    exact BitVec.eq_of_toNat_eq (by rw [bytelen_of_exec_encode h ht, bytelen_of_exec_encode h' ht', hbits])
  case symbols =>
    rw [hsyms, hsyms']
    exact BitVec.eq_of_toNat_eq (by rw [hxs.1, hys.1, hperm.length_eq])

/-! ENCODE completes. -/

/-- Symbols that all have an entry in a well-formed table have codes, of at most LEN_MAX bits each (42_code_table_gen.md
R148). -/
theorem exists_coded {table : List Entry} (hwf : tableWF table = true) {xs : List Nat}
    (hmem : ∀ x ∈ xs, x ∈ table.map (·.sym)) : ∃ cs, Coded table xs cs ∧ cs.flatten.length ≤ 32 * xs.length := by
  obtain ⟨hlengths, -⟩ := tableWF_iff.1 hwf
  induction xs with
  | nil => exact ⟨[], .nil, Nat.le_refl _⟩
  | cons x xs ih =>
    obtain ⟨hx, hrest⟩ := List.forall_mem_cons.1 hmem
    obtain ⟨e, he, rfl⟩ := List.mem_map.1 hx
    obtain ⟨cs, hcs, hlen⟩ := ih hrest
    have hle := (hlengths e he).2
    refine ⟨entryBits e :: cs, .cons ⟨e, he, rfl, rfl⟩ hcs, ?_⟩
    rw [List.flatten_cons, List.length_append, List.length_cons, entryBits, length_bitsOf]
    omega

/-- The state in which ENCODE of the symbols `xs` comes to PACK, the tree being `T`. -/
def beforePack (s : State) (xs : List Nat) (T : CodeTree) : State :=
  deriveCommit (buildCommit (setFreq (tally xs) s) (tally xs)) (codesOfTree T)

theorem nleaf_beforePack (s : State) {xs : List Nat} (T : CodeTree) (hcap : xs.length ≤ s.config.symCap) :
    (beforePack s xs T).nleaf.toNat = (tally xs).length := by
  have hlen := two_mul_length_tally_lt hcap
  exact Nat.mod_eq_of_lt (by omega)

section Completes

variable {s : State} {xs : List Nat} {T : CodeTree} (hne : xs ≠ []) (hT : treeOf (tally xs) = some T)
  (hfit : ∀ c ∈ codesOfTree T, c.2.length ≤ Config.lenMax)

include hne hT

theorem tableIs_beforePack (hcap : xs.length ≤ s.config.symCap) :
    TableIs (beforePack s xs T) ((codesOfTree T).map entryOf) := by
  have hlen := two_mul_length_tally_lt hcap
  have hcodes := length_codesOfTree_of_tally hne hT
  exact tableIs_deriveCommit (by omega)

include hfit

theorem tableWF_of_tally : tableWF ((codesOfTree T).map entryOf) = true :=
  tableWF_derivedTable hfit ((treeSymbols_of_tally hne hT).nodup_iff.2 (Memory.nodup_indexes (rising_tally xs)))

/-- The input has codes in its own table. -/
theorem exists_coded_of_tally :
    ∃ cs, Coded ((codesOfTree T).map entryOf) xs cs ∧ cs.flatten.length ≤ 32 * xs.length := by
  refine exists_coded (tableWF_of_tally hne hT hfit) fun x hx => ?_
  rw [map_sym_entryOf, map_fst_codesOfTree, (treeSymbols_of_tally hne hT).mem_iff, ← List.mem_toFinset, toFinset_tally,
    List.mem_toFinset]
  exact hx

/-- ENCODE of 1 to SYM_CAP symbols whose codes fit their containers, and PACK with them, completes. -/
theorem exec_encode_of_fit {b : Bits} (hxs : SymbolsAre s xs) (hcap : xs.length ≤ s.config.symCap)
    (hpack : packResult (beforePack s xs T) = .ok b) :
    exec .encode s = .next (setStatus statusOk (packCommit (beforePack s xs T) b)) := by
  have hlen : s.symlen.toNat = xs.length := hxs.1
  have hpos := List.length_pos_iff.2 hne
  have hcount : countResult s = .ok (tally xs) := countResult_eq_ok.2 ⟨by omega, by omega, xs, hxs, rfl⟩
  have hbuild : buildResult (setFreq (tally xs) s) = .ok (tally xs) :=
    buildResult_eq_ok.2 ⟨(entries_tally xs).symm, tally_ne_nil hne⟩
  have hheld := heldTree_buildCommit (setFreq (tally xs) s) hT (two_mul_length_tally_lt hcap)
  exact exec_encode_of_ok hcount hbuild
    (deriveResult_eq_ok.2 ⟨nodecnt_ne_zero_of_heldTree hheld, treeCodes_of_heldTree hheld, hfit⟩) hpack

end Completes

/-- Settles O43: the depth bound keeps every code within LEN_MAX, and 4 bytes hold the longest code. -/
theorem encodeCompletes : Obligations.EncodeCompletes := by
  unfold Obligations.EncodeCompletes
  intro s xs hxs hsymbols hpos hcap hmax hroom
  have hne : xs ≠ [] := List.ne_nil_of_length_pos hpos
  obtain ⟨T, hT, -⟩ := exists_treeOf_tally hne
  have hfit := codes_fit_of_fib_le ((fib_treeHeight_le_length hne hT).trans hmax)
  have htable : TableIs (beforePack s xs T) _ := tableIs_beforePack hne hT hcap
  have hleaf := nleaf_beforePack s T hcap
  have hwf := tableWF_of_tally hne hT hfit
  obtain ⟨cs, hcoded, hbits⟩ := exists_coded_of_tally hne hT hfit
  have hsize : ((codesOfTree T).map entryOf).length = (tally xs).length :=
    (List.length_map _).trans (length_codesOfTree_of_tally hne hT)
  have hpack : packResult (beforePack s xs T) = .ok cs.flatten :=
    packResult_of_coded (hxs.1.trans_le hcap) htable
      (hsize.trans_le (Memory.length_le_of_wf (freqWf_iff.1 (freqWf_tally hsymbols)).1)) hwf hcoded
      (show cs.flatten.length ≤ 8 * s.config.byteCap by omega) hxs
  exact ⟨_, _, cs, exec_encode_of_fit hne hT hfit hxs hcap hpack, rfl, freqGet_tally xs,
    hleaf.trans (length_tally xs), htable, hsize.trans hleaf.symm, hwf, hcoded, bytesAre_packCommit hpack,
    bitlen_packCommit hpack⟩

end Sys2Proof
end

section
/-! PROOFS. ENCODE against a fixed-length encoding: a balanced tree over the same symbols costs no more than it, and the
tally's tree costs no more than the balanced one (45_orchestration_and_control.md R199; obligation O50). -/

namespace Sys2Proof.Machine

/-- At most `2^h` symbols fit a tree of height `h`. -/
theorem exists_balanced_tree {h : Nat} : ∀ {xs : List Nat}, xs ≠ [] → xs.length ≤ 2 ^ h →
    ∃ U, treeSymbols U = xs ∧ treeHeight U ≤ h := by
  induction h with
  | zero =>
    intro xs hne hlen
    obtain ⟨x, rfl⟩ := List.length_eq_one_iff.1 (Nat.le_antisymm hlen (List.length_pos_iff.2 hne))
    exact ⟨.leaf x 0 0, rfl, Nat.le_refl 0⟩
  | succ h ih =>
    intro xs hne hlen
    rw [pow_succ] at hlen
    by_cases hfits : xs.length ≤ 2 ^ h
    · obtain ⟨U, hU, hheight⟩ := ih hne hfits
      exact ⟨U, hU, Nat.le_succ_of_le hheight⟩
    · have hpow := Nat.two_pow_pos h
      obtain ⟨l, hl, hlh⟩ := ih (xs := xs.take (2 ^ h)) (List.ne_nil_of_length_pos (by rw [List.length_take]; omega))
        (List.length_take_le _ _)
      obtain ⟨u, hu, huh⟩ := ih (xs := xs.drop (2 ^ h)) (List.ne_nil_of_length_pos (by rw [List.length_drop]; omega))
        (by rw [List.length_drop]; omega)
      exact ⟨.branch 0 0 l u, by rw [treeSymbols, hl, hu, List.take_append_drop], Nat.succ_le_succ (Nat.max_le.2 ⟨hlh, huh⟩)⟩

/-- A tree costs at most its height for every symbol counted. -/
theorem pathCost_le_height_mul_sum (count : Nat → Nat) (U : CodeTree) :
    ∀ d, pathCost count d U ≤ (d + treeHeight U) * ((treeSymbols U).map count).sum := by
  induction U with
  | leaf s _ _ => intro d; simp [pathCost, treeSymbols, treeHeight, Nat.mul_comm]
  | branch _ _ l u hl hu =>
    intro d
    rw [pathCost, treeSymbols, treeHeight, List.map_append, List.sum_append, Nat.mul_add]
    exact Nat.add_le_add ((hl _).trans (Nat.mul_le_mul_right _ (by omega)))
      ((hu _).trans (Nat.mul_le_mul_right _ (by omega)))

/-- The weighted path length is the sum over the codes of count times length (43_bit_packer.md R167). -/
theorem sum_pathCodes_eq_pathCost (count : Nat → Nat) (T : CodeTree) :
    ∀ b : Bits, ((pathCodes b T).map fun c => count c.1 * c.2.length).sum = pathCost count b.length T := by
  induction T with
  | leaf s _ _ => intro b; simp [pathCodes, pathCost]
  | branch _ _ l u hl hu =>
    intro b
    rw [pathCodes, List.map_append, List.sum_append, hl, hu, List.length_append, List.length_append, pathCost]
    rfl

end Sys2Proof.Machine

namespace Sys2Proof

open Sys2Proof.Machine

/-- Settles O50: Huffman's theorem against the balanced tree over the same symbols. -/
theorem encodeBeatsFixedLength : Obligations.EncodeBeatsFixedLength := by
  unfold Obligations.EncodeBeatsFixedLength
  intro s t h ht htwo
  obtain ⟨xs, -, -, hxs, -⟩ := exec_encode_success h ht
  obtain ⟨hne, hleaf, -, T, hT, htable⟩ := exec_encode_tree hxs h ht
  have hsym := treeSymbols_of_tally hne hT
  have hcodes : codesOfTree T = pathCodes [] T := (codesOfTree_cases T).elim
    (fun hone => by rw [hsym.length_eq, List.length_map] at hone; omega) And.right
  obtain ⟨U, hU, hheight⟩ := exists_balanced_tree (xs := (tally xs).map Prod.fst)
    (by simpa using tally_ne_nil hne) (by rw [List.length_map, ← hleaf]; exact Nat.le_pow_clog (by decide) _)
  calc t.bitlen.toNat = pathCost (fun x => xs.count x) 0 T := by
        rw [bitlen_of_exec_encode hxs h ht htable, hcodes, sum_pathCodes_eq_pathCost (fun x => xs.count x)]; rfl
    _ ≤ pathCost (fun x => xs.count x) 0 U := pathCost_le_of_tally hne hT (List.Perm.of_eq hU)
    _ ≤ (0 + treeHeight U) * ((treeSymbols U).map fun x => xs.count x).sum := pathCost_le_height_mul_sum _ U 0
    _ = treeHeight U * s.symlen.toNat := by rw [Nat.zero_add, hU, sum_count_tally, hxs.1]
    _ ≤ Nat.clog 2 t.nleaf.toNat * s.symlen.toNat := Nat.mul_le_mul_right _ hheight

end Sys2Proof
end

section
/-! PROOFS. The errors each command can end with (60_exceptions.md R211, R216 to R219; obligations O58, O26, O6). -/

namespace Sys2Proof.Machine

/-! The computations that raise errors, one by one. -/

/-- The walk of the tree raises no error (42_code_table_gen.md R140). -/
theorem walk_ne_raised (nodes : Cells NodeRec) (e : ErrorKind) (d : Nat) : ∀ (k : Nat) (b : Bits),
    walk nodes d k b ≠ .raised e := by
  induction d with
  | zero => exact nofun
  | succ d ih =>
    intro k b h
    rw [walk] at h
    split at h
    · cases h
    · split at h
      · cases h
      · obtain hleft | ⟨l, -, hrest⟩ := Attempt.andThen_eq_raised.1 h
        · exact ih _ _ hleft
        · obtain hright | ⟨u, -, hok⟩ := Attempt.andThen_eq_raised.1 hrest
          · exact ih _ _ hright
          · cases hok

theorem treeCodes_ne_raised (nodes : Cells NodeRec) (n : Nat) (e : ErrorKind) : treeCodes nodes n ≠ .raised e := by
  rw [treeCodes]
  split
  · exact nofun
  · split
    · exact nofun
    · exact walk_ne_raised nodes e n (n - 1) []

/-- BUILD's one error: no symbol has a count (41_huffman_tree_builder.md R127). -/
theorem buildResult_raised {s : State} {e : ErrorKind} (h : buildResult s = .raised e) : e = .emptyInput := by
  rw [buildResult] at h
  split_ifs at h
  exact (Attempt.raised.inj h).symm

/-- DERIVE's errors: no tree is there, or a code does not fit its container (42_code_table_gen.md R140, R145). -/
theorem deriveResult_raised {s : State} {e : ErrorKind} (h : deriveResult s = .raised e) :
    (s.nodecnt.toNat = 0 ∧ e = .sequence) ∨ (s.nodecnt.toNat ≠ 0 ∧ e = .capacity) := by
  rw [deriveResult] at h
  split_ifs at h with hcnt
  · cases h
    exact .inl ⟨hcnt, rfl⟩
  · obtain hwalk | ⟨cs, -, hlong⟩ := Attempt.andThen_eq_raised.1 h
    · exact absurd hwalk (treeCodes_ne_raised _ _ _)
    · split_ifs at hlong
      cases hlong
      exact .inr ⟨hcnt, rfl⟩

/-- The gathering of bits ends with a full output or at a symbol without a code (43_bit_packer.md R160). -/
theorem gatherBits_raised {cap : Nat} {t : List Entry} {m : Cells Nat} {e : ErrorKind} {n : Nat} :
    ∀ {i : Nat} {b : Bits}, gatherBits cap t m n i b = .raised e →
      e = .capacity ∨ (e = .unknownSymbol ∧ ∃ k < n, ∃ x, Memory.get m (i + k) = some x ∧ codeOf t x = none) := by
  induction n with
  | zero => intro i b h; cases h
  | succ n ih =>
    intro i b h
    cases hx : Memory.get m i with
    | none => rw [gatherBits_of_unwritten hx] at h; cases h
    | some x =>
      cases hc : codeOf t x with
      | none =>
        rw [gatherBits_of_unknown hx hc] at h
        cases h
        exact .inr ⟨rfl, 0, Nat.succ_pos n, x, hx, hc⟩
      | some c =>
        rw [gatherBits_of_code hx hc] at h
        split_ifs at h
        · cases h
          exact .inl rfl
        · refine (ih h).imp_right fun ⟨he, k, hk, y, hy, hnone⟩ => ⟨he, k + 1, Nat.succ_lt_succ hk, y, ?_, hnone⟩
          rwa [Nat.add_right_comm, Nat.add_assoc] at hy

/-- PACK's errors: a length or the output is beyond its capacity, the table is not well-formed, or a symbol has no entry
in it (43_bit_packer.md R160). -/
theorem packResult_raised {s : State} {e : ErrorKind} (h : packResult s = .raised e) :
    e = .capacity ∨ ∃ t, TableIs s t ∧
      ((e = .malformedCode ∧ tableWF t = false) ∨
        (e = .unknownSymbol ∧ ∃ k < s.symlen.toNat, ∃ x, Memory.get s.symbuf k = some x ∧ codeOf t x = none)) := by
  rw [packResult] at h
  split_ifs at h with hlong
  · cases h
    exact .inl rfl
  · obtain hread | ⟨t, ht, hrest⟩ := Attempt.andThen_eq_raised.1 h
    · exact absurd hread (readRegion_ne_raised _ _ _ _ _)
    · have htable := readTable_eq_ok.1 ht
      split_ifs at hrest with hwf
      · refine (gatherBits_raised hrest).imp_right fun hunknown => ⟨t, htable, .inr ?_⟩
        simpa only [Nat.zero_add] using hunknown
      · cases hrest
        exact .inr ⟨t, htable, .inl ⟨rfl, by simpa using hwf⟩⟩

/-- Symbols with codes have entries. -/
theorem exists_entry_of_coded {t : List Entry} {xs : List Nat} {cs : List Bits} (h : Coded t xs cs) :
    ∀ x ∈ xs, ∃ e ∈ t, e.sym = x := by
  induction h with
  | nil => exact nofun
  | cons hx _ ih =>
    obtain ⟨e, he, hsym, -⟩ := hx
    exact List.forall_mem_cons.2 ⟨⟨e, he, hsym⟩, ih⟩

/-- Of symbols that all have codes in a well-formed table PACK raises nothing but CapacityError. -/
theorem packResult_raised_of_coded {s : State} {xs : List Nat} {table : List Entry} {cs : List Bits}
    (hxs : SymbolsAre s xs) (htable : TableIs s table) (hwf : tableWF table = true) (hcoded : Coded table xs cs)
    {e : ErrorKind} (h : packResult s = .raised e) : e = .capacity := by
  obtain he | ⟨t, ht, hcase⟩ := packResult_raised h
  · exact he
  obtain rfl := htable.unique ht
  obtain ⟨-, hmalformed⟩ | ⟨-, k, hk, x, hx, hnone⟩ := hcase
  · rw [hwf] at hmalformed
    cases hmalformed
  · have hget : xs[k]? = some x := (hxs.2 k (hxs.1 ▸ hk)).symm.trans hx
    obtain ⟨d, hd, hsym⟩ := exists_entry_of_coded hcoded x (List.mem_of_getElem? hget)
    exact absurd hsym (codeOf_eq_none_iff.1 hnone d hd)

/-- UNPACK's errors: a length is beyond its capacity, or the table or the bits are malformed (44_bit_unpacker.md R175,
R181). -/
theorem unpackResult_raised {s : State} {e : ErrorKind} (h : unpackResult s = .raised e) :
    e = .capacity ∨ e = .malformedCode := by
  by_cases hlong : s.config.symCap < s.symcount.toNat ∨ s.config.tabCap < s.tabsize.toNat ∨
      s.config.byteCap < s.bytelen.toNat
  · rw [unpackResult, if_pos hlong] at h
    cases h
    exact .inl rfl
  rw [unpackResult, if_neg hlong] at h
  obtain hread | ⟨t, -, hrest⟩ := Attempt.andThen_eq_raised.1 h
  · exact absurd hread (readRegion_ne_raised _ _ _ _ _)
  · split_ifs at hrest
    · obtain hread | ⟨ys, -, hwalk⟩ := Attempt.andThen_eq_raised.1 hrest
      · exact absurd hread (readRegion_ne_raised _ _ _ _ _)
      · split at hwalk <;> cases hwalk
        exact .inr rfl
    · cases hrest
      exact .inr rfl

end Sys2Proof.Machine

namespace Sys2Proof

open Sys2Proof.Machine

/-! DERIVE and PACK inside ENCODE: the tree of the input's own tally (45_orchestration_and_control.md R195). -/

/-- ENCODE comes to DERIVE with the tally of its input and the tally's tree. -/
theorem exists_tree_before_derive {s : State} {f : Cells Nat} {es : List (Nat × Nat)} (hf : countResult s = .ok f)
    (hes : buildResult (setFreq f s) = .ok es) :
    ∃ xs T, SymbolsAre s xs ∧ xs ≠ [] ∧ xs.length ≤ s.config.symCap ∧ f = tally xs ∧ es = tally xs ∧
      treeOf (tally xs) = some T ∧ heldTree (buildCommit (setFreq f s) es) = some T := by
  obtain ⟨hcap, hpos, xs, hxs, rfl⟩ := countResult_eq_ok.1 hf
  obtain rfl : es = tally xs := (buildResult_eq_ok.1 hes).1.trans (entries_tally xs)
  have hne : xs ≠ [] := List.ne_nil_of_length_pos (hxs.1 ▸ Nat.pos_of_ne_zero hpos)
  have hlen : xs.length ≤ s.config.symCap := hxs.1 ▸ hcap
  obtain ⟨T, hT, -⟩ := exists_treeOf_tally hne
  exact ⟨xs, T, hxs, hne, hlen, rfl, rfl, hT, heldTree_buildCommit _ hT (two_mul_length_tally_lt hlen)⟩

/-- Inside ENCODE DERIVE raises nothing but CapacityError: there is a tree. -/
theorem deriveResult_raised_in_encode {s : State} {f : Cells Nat} {es : List (Nat × Nat)} {e : ErrorKind}
    (hf : countResult s = .ok f) (hes : buildResult (setFreq f s) = .ok es)
    (h : deriveResult (buildCommit (setFreq f s) es) = .raised e) : e = .capacity := by
  obtain ⟨xs, T, -, -, -, -, -, -, hheld⟩ := exists_tree_before_derive hf hes
  obtain ⟨hcnt, -⟩ | ⟨-, he⟩ := deriveResult_raised h
  · exact absurd hcnt (nodecnt_ne_zero_of_heldTree hheld)
  · exact he

/-- Inside ENCODE PACK raises nothing but CapacityError: the table is the input's own. -/
theorem packResult_raised_in_encode {s : State} {f : Cells Nat} {es : List (Nat × Nat)} {cs : List (Nat × Bits)}
    {e : ErrorKind} (hf : countResult s = .ok f) (hes : buildResult (setFreq f s) = .ok es)
    (hcs : deriveResult (buildCommit (setFreq f s) es) = .ok cs)
    (h : packResult (deriveCommit (buildCommit (setFreq f s) es) cs) = .raised e) : e = .capacity := by
  obtain ⟨xs, T, hxs, hne, hlen, rfl, rfl, hT, hheld⟩ := exists_tree_before_derive hf hes
  obtain ⟨-, hcodes, hfit⟩ := deriveResult_eq_ok.1 hcs
  obtain rfl : codesOfTree T = cs := Attempt.ok.inj ((treeCodes_of_heldTree hheld).symm.trans hcodes)
  obtain ⟨bs, hcoded, -⟩ := exists_coded_of_tally hne hT hfit
  exact packResult_raised_of_coded (s := beforePack s xs T) hxs (tableIs_beforePack hne hT hlen)
    (tableWF_of_tally hne hT hfit) hcoded h

/-! How the commands end. -/

/-- A next state has STATUS = 0 or the word of one of the errors (60_exceptions.md R218, R219). -/
def EndsWith (errors : List (ErrorKind × Opcode)) (o : Host.Outcome State Fault Refusal) : Prop :=
  ∀ t, o = .next t → t.status = 0 ∨ ∃ e op, (e, op) ∈ errors ∧ t.status = statusError e op

theorem complete_endsWith (errors : List (ErrorKind × Opcode)) (s : State) : EndsWith errors (complete s) := by
  intro t h
  obtain rfl := Host.Outcome.next.inj h
  exact .inl rfl

/-- A primitive step ends with an error of its computation, or as the rest ends on its result. -/
theorem settle_endsWith {α : Type} {errors : List (ErrorKind × Opcode)} {op : Opcode} {r : Attempt α}
    {commit : α → State} {failed : State} {k : State → Host.Outcome State Fault Refusal}
    (hr : ∀ e, r = .raised e → (e, op) ∈ errors) (hk : ∀ a, r = .ok a → EndsWith errors (k (commit a))) :
    EndsWith errors (settle op r commit failed k) := by
  intro t h
  obtain ⟨a, ha, hnext⟩ | ⟨e, he, rfl⟩ := settle_eq_next.1 h
  · exact hk a ha t hnext
  · exact .inr ⟨e, op, hr e he, rfl⟩

theorem execEncode_endsWith (s : State) : EndsWith (errorsOf .encode) (execEncode s) := by
  unfold execEncode performCount performBuild performDerive performPack
  refine settle_endsWith (fun e he => ?_) fun f hf => ?_
  · obtain ⟨-, rfl⟩ | ⟨-, rfl⟩ := countResult_eq_raised.1 he <;> decide
  refine settle_endsWith (fun e he => ?_) fun es hes => ?_
  · exact absurd he (buildResult_ne_raised_of_count hf e)
  refine settle_endsWith (fun e he => ?_) fun cs hcs => ?_
  · obtain rfl := deriveResult_raised_in_encode hf hes he
    decide
  refine settle_endsWith (fun e he => ?_) fun b _ => complete_endsWith _ _
  · obtain rfl := packResult_raised_in_encode hf hes hcs he
    decide

/-- Settles O58: each command's computation raises its own errors only, and inside ENCODE BUILD has entries, DERIVE a
tree and PACK a table with every symbol. -/
theorem commandsEndWithTheirErrors : Obligations.CommandsEndWithTheirErrors := by
  unfold Obligations.CommandsEndWithTheirErrors
  intro i s
  change EndsWith (errorsOf i) (exec i s)
  cases i with
  | clr => exact complete_endsWith _ _
  | count =>
    refine settle_endsWith (fun e he => ?_) fun _ _ => complete_endsWith _ _
    obtain ⟨-, rfl⟩ | ⟨-, rfl⟩ := countResult_eq_raised.1 he <;> decide
  | build =>
    refine settle_endsWith (fun e he => ?_) fun _ _ => complete_endsWith _ _
    obtain rfl := buildResult_raised he
    decide
  | derive =>
    refine settle_endsWith (fun e he => ?_) fun _ _ => complete_endsWith _ _
    obtain ⟨-, rfl⟩ | ⟨-, rfl⟩ := deriveResult_raised he <;> decide
  | pack =>
    refine settle_endsWith (fun e he => ?_) fun _ _ => complete_endsWith _ _
    obtain rfl | ⟨t, -, ⟨rfl, -⟩ | ⟨rfl, -⟩⟩ := packResult_raised he <;> decide
  | unpack =>
    refine settle_endsWith (fun e he => ?_) fun _ _ => complete_endsWith _ _
    obtain rfl | rfl := unpackResult_raised he <;> decide
  | encode => exact execEncode_endsWith s

/-- Settles O26: the first of DERIVE's two checks. -/
theorem deriveWithoutTree : Obligations.DeriveWithoutTree := by
  unfold Obligations.DeriveWithoutTree
  intro s hcnt
  have hresult : deriveResult s = .raised .sequence := if_pos (congrArg BitVec.toNat hcnt)
  have hreleased := congrArg
    (fun n => { s with codetab := [], tabsize := 0, nodecnt := n, status := statusError .sequence 0x04 }) hcnt.symm
  exact ⟨_, exec_derive_eq_next.2 (.inr ⟨_, hresult, rfl⟩), hreleased, unwritten_nil⟩

/-! Illegal words. -/

/-- A word with a bit above bit 7 set, or with a reserved opcode, is no command (30_encoding.md R93). -/
theorem exists_decode_error {w : Word} (h : zeroField w ≠ 0 ∨ (opField w).toNat = 0 ∨ 8 ≤ (opField w).toNat) :
    ∃ e, decode w = .error e := by
  cases hd : decode w with
  | error e => exact ⟨e, rfl⟩
  | ok i =>
    obtain ⟨hzero, hop⟩ := eq_encode_iff.1 (decode_eq_ok_iff.1 hd)
    obtain ⟨hlow, hhigh⟩ := exists_eq_opcode_iff.1 ⟨i, hop⟩
    obtain hne | hreserved := h
    · exact absurd hzero hne
    · omega

theorem issueCommand_of_error {w : Word} {e : IllegalWord} (h : decode w = .error e) (s : State) :
    issueCommand w s = .next (setStatus (statusError .illegalCommand (opField w)) (setCmd w s)) := by
  rw [issueCommand, h]
  rfl

/-- Settles O6: the word is stored, and the decoder rejects it. -/
theorem illegalWordChangesOnlyCmdAndStatus : Obligations.IllegalWordChangesOnlyCmdAndStatus := by
  unfold Obligations.IllegalWordChangesOnlyCmdAndStatus
  intro s rest w hp hb hillegal
  obtain ⟨e, he⟩ := exists_decode_error hillegal
  have hindex : ¬ (Element.reg w).space.elements s.config ≤ 0 := Nat.not_succ_le_zero 8
  have hwidth : ¬ (Element.reg w).fits s.config = false := nofun
  rw [step_of_write hp, if_neg (by simp [hb]), if_neg hindex, if_neg hwidth]
  exact issueCommand_of_error he _

end Sys2Proof
end

section
/-! PROOFS. No command is refused, and what a command that stops has read (60_exceptions.md R227, 10_state.md R39;
obligation O56). -/

namespace Sys2Proof

open Sys2Proof.Machine

/-! Refusals. -/

/-- No state is refused by `k`. -/
def NeverRefuses (k : State → Host.Outcome State Fault Refusal) : Prop := ∀ s x, k s ≠ .refused x

theorem complete_neverRefuses : NeverRefuses complete := nofun

theorem settle_ne_refused {α : Type} {op : Opcode} {r : Attempt α} {commit : α → State} {failed : State}
    {k : State → Host.Outcome State Fault Refusal} (hk : NeverRefuses k) (x : Refusal) :
    settle op r commit failed k ≠ .refused x := by
  intro h
  obtain ⟨a, -, hrest⟩ := settle_eq_refused.1 h
  exact hk _ x hrest

theorem exec_neverRefuses (i : Instr) : NeverRefuses (exec i) := by
  have pack : NeverRefuses execPack := fun _ => settle_ne_refused complete_neverRefuses
  cases i with
  | clr => exact nofun
  | count => exact fun _ => settle_ne_refused complete_neverRefuses
  | build => exact fun _ => settle_ne_refused complete_neverRefuses
  | derive => exact fun _ => settle_ne_refused complete_neverRefuses
  | pack => exact pack
  | unpack => exact fun _ => settle_ne_refused complete_neverRefuses
  | encode =>
    have derive : NeverRefuses fun s => performDerive s execPack := fun _ => settle_ne_refused pack
    have build : NeverRefuses fun s => performBuild s fun t => performDerive t execPack := fun _ =>
      settle_ne_refused derive
    exact fun _ => settle_ne_refused build

/-! Faults. -/

/-- From a state that meets the invariant `k` stops only with one of the faults `P`. -/
def FaultsOnly (P : Fault → Prop) (k : State → Host.Outcome State Fault Refusal) : Prop :=
  ∀ s f, Inv s → k s = .fault f → P f

theorem complete_faultsOnly (P : Fault → Prop) : FaultsOnly P complete := nofun

section Faults

variable {P : Fault → Prop} {k : State → Host.Outcome State Fault Refusal} (hk : FaultsOnly P k)

include hk

theorem performCount_faultsOnly (hsym : P (.unwrittenCell .symbuf)) : FaultsOnly P fun s => performCount s k := by
  intro s f h hfault
  obtain hf | ⟨a, ha, hrest⟩ := settle_eq_fault.1 hfault
  · obtain ⟨-, rfl, -⟩ := countResult_eq_fault.1 hf
    exact hsym
  · exact hk _ f (h.countWrites ha) hrest

theorem performBuild_faultsOnly : FaultsOnly P fun s => performBuild s k := by
  intro s f h hfault
  obtain hf | ⟨es, hes, hrest⟩ := settle_eq_fault.1 hfault
  · exact absurd hf (buildResult_ne_fault s f)
  · exact hk _ f (h.buildWrites hes) hrest

theorem performDerive_faultsOnly : FaultsOnly P fun s => performDerive s k := by
  intro s f h hfault
  obtain hf | ⟨cs, hcs, hrest⟩ := settle_eq_fault.1 hfault
  · exact absurd hf (h.deriveResult_ne_fault f)
  · exact hk _ f (h.deriveWrites hcs) hrest

end Faults

/-- The unwritten cells a command can meet: of SYMBUF, CODETAB and BYTEBUF (10_state.md R39). -/
def InputCellUnwritten (f : Fault) : Prop :=
  f = .unwrittenCell .symbuf ∨ f = .unwrittenCell .codetab ∨ f = .unwrittenCell .bytebuf

theorem execPack_faultsOnly : FaultsOnly InputCellUnwritten execPack := by
  intro s f _ hfault
  obtain hf | ⟨b, -, hrest⟩ := settle_eq_fault.1 hfault
  · obtain ⟨-, rfl, -⟩ | ⟨-, rfl, -⟩ := packResult_fault hf
    · exact .inr (.inl rfl)
    · exact .inl rfl
  · cases hrest

theorem execUnpack_faultsOnly : FaultsOnly InputCellUnwritten execUnpack := by
  intro s f _ hfault
  obtain hf | ⟨out, -, hrest⟩ := settle_eq_fault.1 hfault
  · obtain ⟨-, rfl, -⟩ | ⟨-, rfl, -⟩ := unpackResult_fault hf
    · exact .inr (.inl rfl)
    · exact .inr (.inr rfl)
  · cases hrest

/-- Settles O56: COUNT, PACK and UNPACK read the three memories; BUILD reads none, and DERIVE only the tree the
invariant gives. -/
theorem commandsStopOnlyOnUnwrittenCells : Obligations.CommandsStopOnlyOnUnwrittenCells := by
  unfold Obligations.CommandsStopOnlyOnUnwrittenCells
  refine ⟨exec_neverRefuses, fun i s f h hfault => ?_⟩
  have never := complete_faultsOnly fun _ => False
  cases i with
  | clr => cases hfault
  | build => exact (performBuild_faultsOnly never s f h hfault).elim
  | derive => exact (performDerive_faultsOnly never s f h hfault).elim
  | count =>
    exact ⟨performCount_faultsOnly (complete_faultsOnly InputCellUnwritten) (.inl rfl) s f h hfault,
      nofun, nofun, nofun⟩
  | pack => exact ⟨execPack_faultsOnly s f h hfault, nofun, nofun, nofun⟩
  | unpack => exact ⟨execUnpack_faultsOnly s f h hfault, nofun, nofun, nofun⟩
  | encode =>
    have fromBuild := performBuild_faultsOnly (performDerive_faultsOnly execPack_faultsOnly)
    exact ⟨performCount_faultsOnly fromBuild (.inl rfl) s f h hfault, nofun, nofun, nofun⟩

end Sys2Proof
end

section
/-! PROOFS. The reset operation and the idle block (70_reset_and_hazards.md R240, R241; obligations O10, O11). -/

namespace Sys2Proof

open Sys2Proof.Machine

/-- Reset gives every register and memory its value of 10_state.md R40 and keeps only what is not the block's. -/
theorem hostReset_eq (s : State) :
    hostReset s = { State.reset with config := s.config, pending := s.pending, readLog := s.readLog,
                                     draws := s.draws } := rfl

/-- A reset stands behind no guard: unlike a read and a write it is carried out while BUSY = 1, too. -/
theorem step_of_reset {s : State} {rest : List HostOp} (hp : s.pending = .reset :: rest) :
    step s = .next (hostReset (setPending rest s)) := by
  rw [step_of_pending hp, hostStep]

/-- With nothing pending there is no operation to carry out (log entry 1). -/
theorem step_of_pending_nil {s : State} (hp : s.pending = []) : step s = .next s := by
  rw [step, nextHostOp, hp]

/-- Settles O10: the step is the reset operation, whatever STATUS holds, and that operation leaves the reset state. -/
theorem resetFromAnyState : Obligations.ResetFromAnyState := by
  unfold Obligations.ResetFromAnyState
  intro s rest hp
  rw [step_of_reset hp, hostReset_eq, setPending_pending, setPending_config, setPending_readLog, setPending_draws]

/-- Settles O11: without a host operation the step stays where it is. -/
theorem idleBlockDoesNothing : Obligations.IdleBlockDoesNothing := by
  unfold Obligations.IdleBlockDoesNothing
  exact fun _ => step_of_pending_nil

end Sys2Proof
end
